-- ==== Sys2Proof/Word.lean ====
section
/-! DEFINITION. The word types of 00_scope.md R10: every value of the CORE is unsigned. -/

namespace Sys2Proof

/-- `u8` (R10). -/
abbrev Byte := BitVec 8

/-- `u16` (R10). -/
abbrev Word := BitVec 16

/-- A frame: opcode first, checksum last (30_encoding.md R90). -/
abbrev Frame := List Byte

end Sys2Proof
end

