-- ==== Sys2Proof/Config.lean ====
section
/-! DEFINITION. The implementation parameters of 00_scope.md R8 and the one free value of the CORE. -/

namespace Sys2Proof

/-- The status codes of a CV operation, by name (00_scope.md R8, 92_eei_decisions.md D29). -/
inductive Status where
  | ok
  | generic
  | outOfRange
  | readOnly
  | invalidValue
  deriving DecidableEq, Repr, Inhabited

/-- The parameters of 00_scope.md R8 that are not fixed by the spec. `ADDR_W` and `PRIO_W` are the
widths of two fields of `State`; `CHK_TARGET` and `OPC_PEER_XFER` are the constants below;
`STORE_INIT` is the argument of `State.powerUp`. -/
structure Params where
  isMaster          : Bool
  cap               : Nat
  txqCap            : Nat
  regCap            : Nat
  nCv               : Nat
  pageSize          : Nat
  deviceClass       : Word
  defaultAddress    : Word
  defaultPriority   : Word
  dCd               : Nat
  dMd               : Nat
  dPrioUnit         : Nat
  dLb               : Nat
  opcImmPacket      : Byte
  opcWrSlData       : Byte
  opcSlRdData       : Byte
  opcLongAck        : Byte
  reqidWrite        : Byte
  flagPron          : Byte
  flagProff         : Byte
  stOk              : Byte
  stGeneric         : Byte
  stOutOfRange      : Byte
  stReadOnly        : Byte
  stInvalidValue    : Byte
  slaveSentinel     : Byte
  recognizedSources : List Byte
  respSrc           : Byte
  deriving DecidableEq, Repr

/-- `CHK_TARGET`: the XOR of a valid whole frame (R8, 30_encoding.md R95). -/
def chkTarget : Byte := 0x00

/-- `OPC_PEER_XFER`, the one opcode whose value the source gives (R8, 30_encoding.md R105). -/
def opcPeerXfer : Byte := 0xE5

/-- The code byte of a status (R8, 92_eei_decisions.md D29). -/
def Params.code (p : Params) : Status → Byte
  | .ok           => p.stOk
  | .generic      => p.stGeneric
  | .outOfRange   => p.stOutOfRange
  | .readOnly     => p.stReadOnly
  | .invalidValue => p.stInvalidValue

/-- The four opcodes whose keys select the CV unit, in the order of 43_cv_handler.md R260. -/
def Params.cvOpcodes (p : Params) : List Byte :=
  [opcPeerXfer, p.opcImmPacket, p.opcWrSlData, p.opcSlRdData]

/-- The constraints of 00_scope.md R8, a conjunct each: `CAP` a power of two and at least 4 (D41);
`TXQ_CAP`, `REG_CAP`, `N_CV`, `PAGE_SIZE` in range; 7-bit codes, sentinel, sources and request id;
flags nonzero and disjoint; five distinct status codes; `RESP_SRC` not recognized; the four CV
opcodes in the variable class with distinct keys; `OPC_LONG_ACK` in the 4-byte class. -/
abbrev Params.WF (p : Params) : Prop :=
  4 ≤ p.cap ∧ p.cap &&& (p.cap - 1) = 0 ∧
  2 ≤ p.txqCap ∧ 4 ≤ p.regCap ∧ 3 ≤ p.nCv ∧ p.nCv ≤ 65536 ∧ 1 ≤ p.pageSize ∧
  (∀ o ∈ p.cvOpcodes, o.extractLsb' 5 3 = 7) ∧
  (p.cvOpcodes.map (BitVec.setWidth 5)).Nodup ∧
  p.opcLongAck.extractLsb' 5 3 = 5 ∧
  p.reqidWrite.msb = false ∧
  p.flagPron ≠ 0 ∧ p.flagProff ≠ 0 ∧ p.flagPron &&& p.flagProff = 0 ∧
  [p.stOk, p.stGeneric, p.stOutOfRange, p.stReadOnly, p.stInvalidValue].Nodup ∧
  (∀ c ∈ [p.stOk, p.stGeneric, p.stOutOfRange, p.stReadOnly, p.stInvalidValue], c.msb = false) ∧
  p.slaveSentinel.msb = false ∧
  (∀ b ∈ p.recognizedSources, b.msb = false) ∧
  p.respSrc.msb = false ∧ p.respSrc ∉ p.recognizedSources

/-- The reference profile of 92_eei_decisions.md D45. No meaning of the machine reads it: it is the
choice of parameters that `State.reset` and the opcode table are written for (log entry 2,
DESIGN CHOICE). -/
def Params.reference : Params where
  isMaster          := false
  cap               := 64
  txqCap            := 4
  regCap            := 8
  nCv               := 16
  pageSize          := 8
  deviceClass       := 0x1234
  defaultAddress    := 0x0001
  defaultPriority   := 0
  dCd               := 1200
  dMd               := 360
  dPrioUnit         := 60
  dLb               := 900
  opcImmPacket      := 0xED
  opcWrSlData       := 0xEF
  opcSlRdData       := 0xE7
  opcLongAck        := 0xB4
  reqidWrite        := 0x20
  flagPron          := 0x80
  flagProff         := 0x40
  stOk              := 0x7F
  stGeneric         := 0x00
  stOutOfRange      := 0x03
  stReadOnly        := 0x02
  stInvalidValue    := 0x01
  slaveSentinel     := 0x7C
  recognizedSources := [0x01]
  respSrc           := 0x05

/-- The answer of the external write-authorization hook: "a draw over the five status codes"
(43_cv_handler.md R274, 10_state.md R49). No body: nothing can prove which of the five it is. It is
applied to the counter `State.draws`, which each draw advances (log entry 9, DESIGN CHOICE). -/
opaque Config.authAnswer : Nat → Status

end Sys2Proof
end

