-- ==== Sys2Proof/Syntax.lean ====
section
/-! DEFINITION. The instructions of spec/opcode_table.json, one constructor per row: the commands of
30_encoding.md R110, the wire frames of R92 and R105, and the CV requests of 43_cv_handler.md R265
and R261. -/

namespace Sys2Proof

/-- A CvMessage, its fields in the order of 30_encoding.md R100. -/
structure CvMessage where
  source      : Byte
  destination : Word
  requestId   : Byte
  msbBits     : Byte
  deviceClass : Word
  lncvNumber  : Word
  lncvValue   : Word
  flags       : Byte
  deriving DecidableEq, Repr

/-- One constructor per row of spec/opcode_table.json (log entry 11).

The wire constructors hold the bytes of a complete candidate frame after its opcode; `len` is the
length byte of the variable class and `body` the bytes after it. The CV constructors hold the
opcode of the carrying frame, and the unpacked message or the payload. -/
inductive Instr where
  -- commands (30_encoding.md R110)
  | reset
  | evBusFall
  | evBusRise
  | evTimerExpiry
  | evRxByte (b : Byte)
  | evRxError
  | evTxReady
  | evTxComplete
  | step
  | svcCheck
  | svcAct
  | enqueue (opc : Byte) (d : List Byte)
  | longAck (opc code : Byte)
  | register (key hid : Byte)
  | unregister (key hid : Byte)
  | readReg (r : Byte)
  -- wire frame classes (30_encoding.md R92)
  | frameFixed2 (key : BitVec 5) (chk : Byte)
  | frameFixed4 (key : BitVec 5) (d0 d1 chk : Byte)
  | frameFixed6 (key : BitVec 5) (d0 d1 d2 d3 chk : Byte)
  | frameVariable (key : BitVec 5) (len : Byte) (body : List Byte)
  -- wire messages (30_encoding.md R105)
  | opcPeerXfer (len : Byte) (body : List Byte)
  | opcImmPacket (len : Byte) (body : List Byte)
  | opcWrSlData (len : Byte) (body : List Byte)
  | opcSlRdData (len : Byte) (body : List Byte)
  | opcLongAck (d0 d1 chk : Byte)
  -- CV requests (43_cv_handler.md R265, R261)
  | cvProgOn (opc : Byte) (m : CvMessage)
  | cvProgOff (opc : Byte) (m : CvMessage)
  | cvWrite (opc : Byte) (m : CvMessage)
  | cvRead (opc : Byte) (m : CvMessage)
  | cvSlaveWrite (opc : Byte) (payload : List Byte)
  | cvSlaveRead (opc : Byte) (payload : List Byte)
  deriving DecidableEq, Repr

end Sys2Proof
end

