-- ==== Sys2Proof/Decode.lean ====
section
/-! DEFINITION. Frame arithmetic (30_encoding.md R92 to R99), the CvMessage layout (R100 to R102), the
three decoders (commands R110 to R112, wire frames R92 and R105, CV requests 43_cv_handler.md R261 to
R265), and the encoder. -/

namespace Sys2Proof

/-! ## Frame arithmetic -/

/-- `xor_all` (00_scope.md R10). -/
def xorAll : List Byte → Byte
  | []      => 0
  | b :: bs => b ^^^ xorAll bs

/-- The checksum byte after the bytes `bs` (30_encoding.md R95). -/
def checksum (bs : List Byte) : Byte := chkTarget ^^^ xorAll bs

/-- `opc[7:5]`, which chooses the length class (30_encoding.md R92). -/
def frameClass (opc : Byte) : BitVec 3 := opc.extractLsb' 5 3

/-- `frame_len(opc, second)` (30_encoding.md R92). An opcode has bit 7 set (R106), so the last case is
the variable class. -/
def frameLen (opc second : Byte) : Nat :=
  if frameClass opc = 4 then 2
  else if frameClass opc = 5 then 4
  else if frameClass opc = 6 then 6
  else second.toNat

/-- `hdr(opc)` (30_encoding.md R94). -/
def hdr (opc : Byte) : Nat := if frameClass opc = 7 then 2 else 1

/-- `key(opc) = opc[4:0]` (30_encoding.md R98). -/
def key (opc : Byte) : BitVec 5 := opc.setWidth 5

/-- The opcode of class `c` and key `k`. -/
def mkOpc (c : BitVec 3) (k : BitVec 5) : Byte := c ++ k

/-! ## Byte order and the MSB side channel -/

/-- The low byte of a 16-bit field, sent first (20_memory.md R70). -/
def loByte (w : Word) : Byte := w.extractLsb' 0 8

/-- The high byte of a 16-bit field, sent second (20_memory.md R70). -/
def hiByte (w : Word) : Byte := w.extractLsb' 8 8

/-- A 16-bit field from its low and its high byte (30_encoding.md R101). -/
def mkWord (lo hi : Byte) : Word := lo.setWidth 16 ||| (hi.setWidth 16 <<< 8)

/-- The seven value bytes D1 to D7 of a CvMessage before packing (30_encoding.md R102). -/
def CvMessage.valueBytes (m : CvMessage) : List Byte :=
  [loByte m.deviceClass, hiByte m.deviceClass, loByte m.lncvNumber, hiByte m.lncvNumber,
   loByte m.lncvValue, hiByte m.lncvValue, m.flags]

/-- The side channel of the bytes `ds`: bit `i` is bit 7 of `ds[i]` (30_encoding.md R102). -/
def sideChannel : List Byte → Byte
  | []      => 0
  | d :: ds => (if d.msb then 1 else 0) ||| (sideChannel ds <<< 1)

/-- A value byte with bit 7 cleared (30_encoding.md R102). -/
def clearMsb (d : Byte) : Byte := d &&& 0x7F

/-- The 12 bytes of a packed CvMessage (30_encoding.md R102). -/
def CvMessage.pack (m : CvMessage) : List Byte :=
  [m.source, loByte m.destination, hiByte m.destination, m.requestId, sideChannel m.valueBytes]
    ++ m.valueBytes.map clearMsb

/-- Byte `D[i]` of the payload `p`, bit 7 taken from bit `i` of `p[4]` (30_encoding.md R101). -/
def valueByte (p : List Byte) (i : Nat) : Byte :=
  p.getD (5 + i) 0 ||| (if (p.getD 4 0).getLsbD i then 0x80 else 0)

/-- The CvMessage of the payload `p` (30_encoding.md R101). -/
def CvMessage.unpack (p : List Byte) : CvMessage where
  source      := p.getD 0 0
  destination := mkWord (p.getD 1 0) (p.getD 2 0)
  requestId   := p.getD 3 0
  msbBits     := p.getD 4 0
  deviceClass := mkWord (valueByte p 0) (valueByte p 1)
  lncvNumber  := mkWord (valueByte p 2) (valueByte p 3)
  lncvValue   := mkWord (valueByte p 4) (valueByte p 5)
  flags       := valueByte p 6

/-! ## Operand rules -/

/-- The bytes `opc, d` make a frame that can be framed: opcode bit 7 set, data bytes with bit 7 clear,
length as the class says (42_tx_queue.md R221). -/
def enqueueOk (opc : Byte) (d : List Byte) : Bool :=
  opc.msb && d.all (fun b => !b.msb) &&
    (if frameClass opc = 7 then
      match d with
      | []     => false
      | l :: _ => l.toNat == d.length + 2
    else d.length + 2 == frameLen opc 0)

/-- The operands of `REGISTER` and `UNREGISTER`: key byte bits 7:5 zero, `hid` not 0 (30_encoding.md
R111). -/
def registerOk (k hid : Byte) : Bool := k.extractLsb' 5 3 == 0 && hid != 0

/-- The operand of `READ_REG`: 0 to 3 (10_state.md R48). -/
def readRegOk (r : Byte) : Bool := decide (r.toNat ≤ 3)

/-! ## The decoders -/

/-- Why a decoder reads no instruction. -/
inductive DecodeError where
  /-- no byte at the command port -/
  | noCommand
  /-- a command byte outside the table (30_encoding.md R112) -/
  | unknownCommand
  /-- a command that stops before its operands end (30_encoding.md R112) -/
  | truncatedCommand
  /-- a byte with bit 7 clear where an opcode should stand (30_encoding.md R106) -/
  | strayByte
  /-- fewer bytes than the frame needs (41_rx_framer.md R183) -/
  | incompleteFrame
  deriving DecidableEq, Repr

/-- A command of one operand byte. -/
def operand1 (f : Byte → Instr) : List Byte → Except DecodeError (Instr × List Byte)
  | a :: rest => .ok (f a, rest)
  | _         => .error .truncatedCommand

/-- A command of two operand bytes. -/
def operand2 (f : Byte → Byte → Instr) : List Byte → Except DecodeError (Instr × List Byte)
  | a :: b :: rest => .ok (f a b, rest)
  | _              => .error .truncatedCommand

/-- `ENQUEUE`'s operands `opc, n, d[0..n-1]`: the command is `n + 3` bytes (30_encoding.md R111). -/
def operandFrame : List Byte → Except DecodeError (Instr × List Byte)
  | opc :: n :: rest =>
    if n.toNat ≤ rest.length then .ok (.enqueue opc (rest.take n.toNat), rest.drop n.toNat)
    else .error .truncatedCommand
  | _ => .error .truncatedCommand

/-- The command decoder: the instruction at the head of the bytes and the bytes after it
(30_encoding.md R110 to R112). -/
def decodeCommand : List Byte → Except DecodeError (Instr × List Byte)
  | [] => .error .noCommand
  | b :: rest =>
    match b.toNat with
    | 0x00 => .ok (.reset, rest)
    | 0x01 => .ok (.evBusFall, rest)
    | 0x02 => .ok (.evBusRise, rest)
    | 0x03 => .ok (.evTimerExpiry, rest)
    | 0x04 => operand1 .evRxByte rest
    | 0x05 => .ok (.evRxError, rest)
    | 0x06 => .ok (.evTxReady, rest)
    | 0x07 => .ok (.evTxComplete, rest)
    | 0x10 => .ok (.step, rest)
    | 0x11 => .ok (.svcCheck, rest)
    | 0x12 => .ok (.svcAct, rest)
    | 0x13 => operandFrame rest
    | 0x14 => operand2 .longAck rest
    | 0x15 => operand2 .register rest
    | 0x16 => operand2 .unregister rest
    | 0x17 => operand1 .readReg rest
    | _    => .error .unknownCommand

/-- The variable-class instruction of opcode `opc`: a named message (30_encoding.md R105) or the
class (R92). -/
def wireVariable (p : Params) (opc len : Byte) (body : List Byte) : Instr :=
  if opc = opcPeerXfer then .opcPeerXfer len body
  else if opc = p.opcImmPacket then .opcImmPacket len body
  else if opc = p.opcWrSlData then .opcWrSlData len body
  else if opc = p.opcSlRdData then .opcSlRdData len body
  else .frameVariable (key opc) len body

/-- The 4-byte-class instruction of opcode `opc` (30_encoding.md R92, R105). -/
def wireFixed4 (p : Params) (opc d0 d1 chk : Byte) : Instr :=
  if opc = p.opcLongAck then .opcLongAck d0 d1 chk else .frameFixed4 (key opc) d0 d1 chk

/-- The wire decoder: the candidate frame at the head of the readable bytes, once all of it is there
(30_encoding.md R92, R105, R108). Two bytes are read before a length is known (41_rx_framer.md
R180), so a variable frame holds its length byte even where the length says 0 or 1. -/
def decodeWire (p : Params) : List Byte → Except DecodeError Instr
  | b0 :: b1 :: tl =>
    if b0.msb = false then .error .strayByte
    else if frameClass b0 = 4 then .ok (.frameFixed2 (key b0) b1)
    else if frameClass b0 = 5 then
      match tl with
      | d1 :: chk :: _ => .ok (wireFixed4 p b0 b1 d1 chk)
      | _              => .error .incompleteFrame
    else if frameClass b0 = 6 then
      match tl with
      | d1 :: d2 :: d3 :: chk :: _ => .ok (.frameFixed6 (key b0) b1 d1 d2 d3 chk)
      | _                          => .error .incompleteFrame
    else if b1.toNat - 2 ≤ tl.length then .ok (wireVariable p b0 b1 (tl.take (b1.toNat - 2)))
    else .error .incompleteFrame
  | b0 :: [] => if b0.msb = false then .error .strayByte else .error .incompleteFrame
  | []       => .error .incompleteFrame

/-- The request kind of an unpacked message, tested in the order of 43_cv_handler.md R265. -/
def cvRequest (p : Params) (opc : Byte) (m : CvMessage) : Instr :=
  if m.flags &&& p.flagPron ≠ 0 then .cvProgOn opc m
  else if m.flags &&& p.flagProff ≠ 0 then .cvProgOff opc m
  else if m.requestId = p.reqidWrite then .cvWrite opc m
  else .cvRead opc m

/-- The CV decoder: the request a delivered frame makes of the CV unit, or none where the unit ignores
it (43_cv_handler.md R261, R263, R280, R281). -/
def decodeCv (p : Params) (opc : Byte) (payload : List Byte) : Option Instr :=
  if key opc = key opcPeerXfer ∨ key opc = key p.opcImmPacket then
    if payload.length = 13 ∧ payload.getD 0 0 ∈ p.recognizedSources then
      some (cvRequest p opc (CvMessage.unpack payload))
    else none
  else if key opc = key p.opcWrSlData then
    if payload.head? = some p.slaveSentinel then some (.cvSlaveWrite opc payload) else none
  else if key opc = key p.opcSlRdData then
    if payload.head? = some p.slaveSentinel then some (.cvSlaveRead opc payload) else none
  else none

/-! ## The encoder -/

/-- A frame from the bytes before its checksum (30_encoding.md R90, R95). -/
def withChecksum (bs : List Byte) : Frame := bs ++ [checksum bs]

/-- The frame that carries the CvMessage `m` under the opcode `opc` (30_encoding.md R100). -/
def cvFrame (opc : Byte) (m : CvMessage) : Frame := withChecksum (opc :: 0x0F :: m.pack)

/-- The frame of opcode `opc` whose payload, checksum included, is `payload` (30_encoding.md R90,
R99). -/
def payloadFrame (opc : Byte) (payload : List Byte) : Frame :=
  if frameClass opc = 7 then opc :: BitVec.ofNat 8 (payload.length + 2) :: payload
  else opc :: payload

/-- The bytes of an instruction: a command at the command port (30_encoding.md R110), a frame on the
wire (R92, R105), a CV request in the frame that carries it (R100, R104). -/
def encode (p : Params) : Instr → List Byte
  | .reset                       => [0x00]
  | .evBusFall                   => [0x01]
  | .evBusRise                   => [0x02]
  | .evTimerExpiry               => [0x03]
  | .evRxByte b                  => [0x04, b]
  | .evRxError                   => [0x05]
  | .evTxReady                   => [0x06]
  | .evTxComplete                => [0x07]
  | .step                        => [0x10]
  | .svcCheck                    => [0x11]
  | .svcAct                      => [0x12]
  | .enqueue opc d               => [0x13, opc, BitVec.ofNat 8 d.length] ++ d
  | .longAck opc code            => [0x14, opc, code]
  | .register k hid              => [0x15, k, hid]
  | .unregister k hid            => [0x16, k, hid]
  | .readReg r                   => [0x17, r]
  | .frameFixed2 k chk           => [mkOpc 4 k, chk]
  | .frameFixed4 k d0 d1 chk     => [mkOpc 5 k, d0, d1, chk]
  | .frameFixed6 k d0 d1 d2 d3 c => [mkOpc 6 k, d0, d1, d2, d3, c]
  | .frameVariable k len body    => mkOpc 7 k :: len :: body
  | .opcPeerXfer len body        => Sys2Proof.opcPeerXfer :: len :: body
  | .opcImmPacket len body       => p.opcImmPacket :: len :: body
  | .opcWrSlData len body        => p.opcWrSlData :: len :: body
  | .opcSlRdData len body        => p.opcSlRdData :: len :: body
  | .opcLongAck d0 d1 chk        => [p.opcLongAck, d0, d1, chk]
  | .cvProgOn opc m              => cvFrame opc m
  | .cvProgOff opc m             => cvFrame opc m
  | .cvWrite opc m               => cvFrame opc m
  | .cvRead opc m                => cvFrame opc m
  | .cvSlaveWrite opc payload    => payloadFrame opc payload
  | .cvSlaveRead opc payload     => payloadFrame opc payload

/-! ## The opcode table's words -/

/-- The bytes of a word of `nbits` bits, bits 7:0 first. -/
def wordBytes (nbits w : Nat) : List Byte :=
  (List.range ((nbits + 7) / 8)).map fun k => BitVec.ofNat 8 (w >>> (8 * k))

/-- A CvMessage of a recognized originator, every other field 0. -/
def CvMessage.blank (p : Params) : CvMessage where
  source      := p.recognizedSources.headD 0
  destination := 0
  requestId   := 0
  msbBits     := 0
  deviceClass := 0
  lncvNumber  := 0
  lncvValue   := 0
  flags       := 0

/-- The frame of the CV request whose table row matches the field value `b`: the sentinel of a
slave-data message, the flags of a programming-off, the request id of a write. A row of format
`cv_request` gives one field of a message, not a word of its own (log entry 12). -/
def cvFieldFrame (p : Params) (b : Byte) : Option Frame :=
  if b = p.slaveSentinel then some (withChecksum [p.opcWrSlData, 4, b])
  else if b &&& p.flagPron = 0 ∧ b &&& p.flagProff ≠ 0 then
    some (cvFrame opcPeerXfer { CvMessage.blank p with flags := b })
  else if b = p.reqidWrite then
    some (cvFrame opcPeerXfer { CvMessage.blank p with requestId := b })
  else none

/-- Where the instruction of a table word stands. -/
inductive TableWord where
  /-- a command, operand bytes the word does not give being zeros -/
  | command (bytes : List Byte)
  /-- a wire frame in the ring buffer -/
  | wire (f : Frame)
  /-- a CV request in the frame that carries it -/
  | cv (f : Frame)
  /-- no instruction -/
  | nothing
  deriving DecidableEq, Repr

/-- The bytes of a word with the zeros above it, as many as an instruction of its first bytes can have:
two operand bytes and `n` more of an `ENQUEUE`, five bytes of a fixed frame, the length byte's value
of a variable frame. -/
def paddedWord (nbits w : Nat) : List Byte :=
  let bs := wordBytes nbits w
  bs ++ List.replicate (5 + (bs.getD 1 0).toNat + (bs.getD 2 0).toNat) 0

/-- The place of a table word: the command port if its first byte is a command byte, else the wire if
it is an opcode, else a CV field (log entry 12). -/
def placeWord (p : Params) (nbits w : Nat) : TableWord :=
  let bs := paddedWord nbits w
  match decodeCommand bs with
  | .ok (i, _) => .command (encode p i)
  | .error _ =>
    match decodeWire p bs with
    | .ok i => .wire (encode p i)
    | .error _ =>
      match cvFieldFrame p (bs.headD 0) with
      | some f => .cv f
      | none   => .nothing

/-- The instruction the decoders read from a word of the opcode table, whose match values are those of
the reference profile. -/
def decodeTableWord (nbits w : Nat) : Option Instr :=
  match placeWord Params.reference nbits w with
  | .command bytes => (decodeCommand bytes).toOption.map Prod.fst
  | .wire f        => (decodeWire Params.reference f).toOption
  | .cv f          => decodeCv Params.reference (f.headD 0) (f.drop (hdr (f.headD 0)))
  | .nothing       => none

end Sys2Proof
end

