-- ==== Sys2Proof/Machine/State.lean ====
section
/-! DEFINITION. The state of the CORE (10_state.md), its faults, holds, refusals and output events, and
the state right after reset. -/

namespace Sys2Proof.Machine

/-- The faults of 60_exceptions.md R331. All are safe: the operation ends, nothing of it is kept. -/
inductive Fault where
  /-- `STEP` and the wire frames: a frame that passes the checksum with no room for one after its
  header (41_rx_framer.md R186). Safe. -/
  | framerShortFrame
  /-- `ENQUEUE`, `LONG_ACK` and every answer of the CV unit: `TXQ_CAP` frames are held already
  (42_tx_queue.md R221). Safe. -/
  | txqOverflow
  /-- `REGISTER`: `REG_CAP` entries already (41_rx_framer.md R195). Safe. -/
  | registryFull
  /-- `RESET`: the Persistent Store reports "not initialized" (70_reset_and_hazards.md R361). Safe. -/
  | storeNotInitialized
  deriving DecidableEq, Repr

/-- The permanent holds of 60_exceptions.md R333. -/
inductive Hold where
  /-- a push into a full ring buffer (41_rx_framer.md R175) -/
  | rbFull
  deriving DecidableEq, Repr

/-- The refusals of 60_exceptions.md R334. All are safe: the operation is given no meaning. -/
inductive Refusal where
  /-- `exec`: an instruction that has no meaning yet. Safe. -/
  | notModelled (mnemonic : String)
  /-- any operation other than `RESET` while `up` is false (10_state.md R46). Safe. -/
  | notUp
  /-- the fetch of a command byte outside the table (30_encoding.md R112). Safe. -/
  | unknownCommand
  /-- the fetch of a command that stops before its operands end (30_encoding.md R112). Safe. -/
  | truncatedCommand
  /-- `REGISTER`, `UNREGISTER` and `READ_REG` operands (30_encoding.md R111, 10_state.md R48). Safe. -/
  | badOperand
  /-- `ENQUEUE` and `LONG_ACK` of a frame that cannot be framed (42_tx_queue.md R221). Safe. -/
  | malformedEnqueue
  /-- a host write of the ring buffer (20_memory.md R62). "There is no command for it": nothing raises
  it (log entry 18). Safe. -/
  | hostPush
  /-- every operation of a run that was refused before: "the run has no meaning after it"
  (60_exceptions.md R334, log entry 7). Safe. -/
  | afterRefusal
  deriving DecidableEq, Repr

/-- The five states of the arbitration unit (10_state.md R28). -/
inductive ArbState where
  | idle
  | carrierDetectWait
  | masterDelayWait
  | priorityDelayWait
  | lineBreakWait
  deriving DecidableEq, Repr

/-- The transmitter's state (10_state.md R34): `sending f c` has handed over `c` bytes of `f`. -/
inductive TxState where
  | none
  | sending (f : Frame) (c : Nat)
  | draining (f : Frame)
  deriving DecidableEq, Repr

/-- The collision causes (60_exceptions.md R322). -/
inductive Cause where
  | framingError
  | echoMismatch
  deriving DecidableEq, Repr

/-- The result of a framer step (41_rx_framer.md R180). -/
inductive StepResult where
  | none
  | rescan
  | handled
  deriving DecidableEq, Repr

/-- What the last `STEP` or `READ_REG` returned to its caller: the model's own record (log entry
10). -/
inductive Result where
  | none
  | step (r : StepResult)
  | word (w : Word)
  deriving DecidableEq, Repr

/-- The output events (10_state.md R44). -/
inductive Event where
  | timerArm (d : Nat)
  | chanEnable (tx rx : Bool)
  | chanForceLine (on : Bool)
  | chanStart
  | chanTx (b : Byte)
  | txDone
  | txReleased
  | collision (cause : Cause)
  | dispatch (hid opc : Byte) (payload : List Byte)
  | storeCommit (page : Nat) (values : List Word)
  | hookProgEnded
  | hookValueWritten (n : Nat) (v : Word)
  | hookAuth (n : Nat) (v : Word) (status : Byte)
  | hookSeqStart (bytes : List Byte)
  | hookSeqFinal (bytes : List Byte)
  deriving DecidableEq, Repr

/-- An entry of the observer registry (10_state.md R32): `hid = 0` is the CV unit. -/
structure RegEntry where
  key : BitVec 5
  hid : Byte
  deriving DecidableEq, Repr

/-- Storage of `w`-bit units by address: addresses strictly rising, no entry equal to what an unlisted
address reads as (`Memory.wf`). `Memory 8` is a list of `Host.Cell`. -/
abbrev Memory (w : Nat) := List (Nat × BitVec w)

/-- What an unlisted ring-buffer cell reads as: no rule reads one (10_state.md R50). Log entry 4,
DESIGN CHOICE. -/
def unlistedCell : Byte := 0x00

/-- What an unlisted CV slot reads as: the factory store's value. Log entry 5, DESIGN CHOICE. -/
def unlistedSlot : Word := 0xFFFF

/-- The state of the CORE: every field of 10_state.md, the parameters (00_scope.md R8, log entry 2), and
the model's own `input`, `result` and `draws` (log entries 1, 10, 9). -/
structure State where
  /-- the parameters of the CORE; no operation changes them -/
  params            : Params
  /-- Config.address (R22) -/
  address           : BitVec 10
  /-- Config.priority (R23) -/
  priority          : BitVec 4
  /-- Config.is_master (R24) -/
  isMaster          : Bool
  /-- Status.busy (R25) -/
  busy              : Bool
  /-- Status.transmitting (R26) -/
  transmitting      : Bool
  /-- Status.collision_detected (R27) -/
  collisionDetected : Bool
  /-- the arbitration state (R28) -/
  arbState          : ArbState
  /-- the one-shot arbitration timer (R29) -/
  timer             : Option Nat
  /-- channel control: send enabled (R30) -/
  txEn              : Bool
  /-- channel control: receive enabled (R30) -/
  rxEn              : Bool
  /-- channel control: transmit line forced (R30) -/
  forceLine         : Bool
  /-- the ring buffer's writer cursor (R31) -/
  wr                : Nat
  /-- the ring buffer's reader cursor (R31) -/
  rd                : Nat
  /-- the ring buffer's cells (20_memory.md R60) -/
  rb                : Memory 8
  /-- the observer registry, in registration order (R32) -/
  reg               : List RegEntry
  /-- the pending frames, head first (R33) -/
  txq               : List Frame
  /-- the frame in flight (R34) -/
  txState           : TxState
  /-- the byte most recently handed to the channel (R35) -/
  lastSent          : Option Byte
  /-- the service check found that a transmission may start (R36) -/
  svcLatch          : Bool
  /-- programming mode (R37) -/
  progMode          : Bool
  /-- the persisted CV values by slot (R38, 20_memory.md R65) -/
  store             : Memory 16
  /-- STORE_STATUS: the Persistent Store is initialized (70_reset_and_hazards.md R361) -/
  storeReady        : Bool
  /-- the output trace, oldest first (R44) -/
  out               : List Event
  /-- the mark of a fault (R45) -/
  fault             : Option Fault
  /-- the mark of a permanent hold (R45) -/
  hung              : Option Hold
  /-- the mark of a refusal (R45) -/
  refused           : Bool
  /-- a reset has completed (R46) -/
  up                : Bool
  /-- the command bytes still to come (the model's own) -/
  input             : List Byte
  /-- what the last `STEP` or `READ_REG` returned (the model's own) -/
  result            : Result
  /-- the number of answers drawn from the authorization hook (the model's own) -/
  draws             : Nat
  deriving DecidableEq, Repr

/-- The state right after `RESET` on the factory store under the reference profile, nothing run before
(70_reset_and_hazards.md R364, state S0 of 95_test_vectors.md; log entries 2, 3, 5). -/
def State.reset : State where
  params            := Params.reference
  address           := 0x001
  priority          := 0
  isMaster          := false
  busy              := false
  transmitting      := false
  collisionDetected := false
  arbState          := .idle
  timer             := none
  txEn              := true
  rxEn              := true
  forceLine         := false
  wr                := 0
  rd                := 0
  rb                := []
  reg               := [⟨0x05, 0⟩, ⟨0x0D, 0⟩, ⟨0x0F, 0⟩, ⟨0x07, 0⟩]
  txq               := []
  txState           := .none
  lastSent          := none
  svcLatch          := false
  progMode          := false
  store             := []
  storeReady        := true
  out               := []
  fault             := none
  hung              := none
  refused           := false
  up                := true
  input             := []
  result            := .none
  draws             := 0

end Sys2Proof.Machine
end

