-- ==== Sys2Proof/Machine/Flags.lean ====
section
/-! DEFINITION. The Status flags a transmission sets and clears (10_state.md R25, R26), and the register
view, which packs flags, state codes and Config into four words (10_state.md R28, R47, R48). -/

namespace Sys2Proof.Machine

/-- The flags of a transmission start: `transmitting` and `busy` (42_tx_queue.md R233). -/
def State.markSending (s : State) : State := { s with transmitting := true, busy := true }

/-- The flag of a completed transmission; `busy` stays (42_tx_queue.md R236). -/
def State.markSent (s : State) : State := { s with transmitting := false }

/-- The code of an arbitration state (10_state.md R28). -/
def ArbState.code : ArbState → BitVec 3
  | .idle              => 0
  | .carrierDetectWait => 1
  | .masterDelayWait   => 2
  | .priorityDelayWait => 3
  | .lineBreakWait     => 4

/-- The code of a transmitter state (10_state.md R48). -/
def TxState.code : TxState → BitVec 2
  | .none        => 0
  | .sending _ _ => 1
  | .draining _  => 2

/-- The code of a collision cause (60_exceptions.md R322). -/
def Cause.code : Cause → Nat
  | .framingError => 1
  | .echoMismatch => 2

/-- CONFIG: address 9:0, priority 13:10, is_master 14, bit 15 reads 0 (10_state.md R48). -/
def configWord (s : State) : Word := 0#1 ++ BitVec.ofBool s.isMaster ++ s.priority ++ s.address

/-- STATUS: busy 0, transmitting 1, collision_detected 2, bits 15:3 read 0 (10_state.md R48). -/
def statusWord (s : State) : Word :=
  0#13 ++ BitVec.ofBool s.collisionDetected ++ BitVec.ofBool s.transmitting ++ BitVec.ofBool s.busy

/-- ARB: state code 2:0, timer armed 3, tx_en 4, rx_en 5, force_line 6, bits 15:7 read 0 (10_state.md
R48). -/
def arbWord (s : State) : Word :=
  0#9 ++ BitVec.ofBool s.forceLine ++ BitVec.ofBool s.rxEn ++ BitVec.ofBool s.txEn ++
    BitVec.ofBool s.timer.isSome ++ s.arbState.code

/-- PROTO: prog_mode 0, tx_state code 2:1, bits 15:3 read 0 (10_state.md R48). -/
def protoWord (s : State) : Word := 0#13 ++ s.txState.code ++ BitVec.ofBool s.progMode

/-- Register `r` of the register view, `r` at most 3 (10_state.md R47, R48). -/
def regWord (s : State) (r : Byte) : Word :=
  if r = 0 then configWord s
  else if r = 1 then statusWord s
  else if r = 2 then arbWord s
  else protoWord s

end Sys2Proof.Machine
end

