-- ==== Sys2Proof/Machine/Ops.lean ====
section
/-! DEFINITION. The operations every meaning is built from: storage, the four outcomes, the output trace,
the timer, the ring buffer, the CV store, the collision (entry and return), and the fetch of a
command. -/

namespace Sys2Proof.Machine

/-! ## Storage -/

/-- The value at address `a`, `d` being what an unlisted address reads as. -/
def Memory.read {w : Nat} (d : BitVec w) : Memory w → Nat → BitVec w
  | [],          _ => d
  | (k, x) :: m, a => if a = k then x else Memory.read d m a

/-- The storage with `v` at address `a`, in canonical form: writing what an unlisted address reads as
removes the entry. -/
def Memory.write {w : Nat} (d : BitVec w) : Memory w → Nat → BitVec w → Memory w
  | [],          a, v => if v = d then [] else [(a, v)]
  | (k, x) :: m, a, v =>
    if a < k then (if v = d then (k, x) :: m else (a, v) :: (k, x) :: m)
    else if a = k then (if v = d then m else (a, v) :: m)
    else (k, x) :: Memory.write d m a v

/-- The canonical form: addresses strictly rising, no entry equal to what an unlisted address reads
as. -/
abbrev Memory.wf {w : Nat} (d : BitVec w) (m : Memory w) : Prop :=
  m.Pairwise (fun x y => x.1 < y.1) ∧ ∀ c ∈ m, c.2 ≠ d

/-! ## Outcomes (00_scope.md R12, 60_exceptions.md R330 to R334) -/

/-- The outcome of an operation of the CORE. -/
abbrev Outcome := Host.Outcome State Fault Refusal

/-- One operation after another inside one step: a fault or a refusal of the first ends both, with
nothing kept (60_exceptions.md R330, R332). -/
def thenDo (o : Outcome) (k : State → Outcome) : Outcome :=
  match o with
  | .next t    => k t
  | .fault f   => .fault f
  | .refused r => .refused r

/-- A permanent hold (60_exceptions.md R333): the state as it stood, marked. The machine goes on
holding, so this is a next state, not a stop (log entry 6, DESIGN CHOICE). -/
def hold (h : Hold) (s : State) : Outcome := .next { s with hung := some h }

/-- What the marks of 10_state.md R45 leave of an operation: a faulted or refused run has no meaning any
more (60_exceptions.md R330, R334), a held machine does not move (R333). -/
def gate (s : State) (op : State → Outcome) : Outcome :=
  match s.fault with
  | some f => .fault f
  | none =>
    if s.refused then .refused .afterRefusal
    else
      match s.hung with
      | some _ => .next s
      | none   => op s

/-- An operation other than `RESET`: refused while the CORE is not up (10_state.md R46). -/
def whenUp (s : State) (op : State → Outcome) : Outcome :=
  gate s fun s => if s.up then op s else .refused .notUp

/-- The state after an outcome, with the mark the spec records: a fault or a refusal leaves the state as
it stood before the operation (60_exceptions.md R330, R334; log entry 7). -/
def State.record (s : State) : Outcome → State
  | .next t    => t
  | .fault f   => { s with fault := some f }
  | .refused _ => { s with refused := true }

/-! ## Output trace, timer, results -/

/-- `emit` (00_scope.md R11, 10_state.md R44). -/
def State.emit (s : State) (e : Event) : State := { s with out := s.out ++ [e] }

/-- `arm(d)`: replaces an armed delay (10_state.md R29). -/
def State.arm (s : State) (d : Nat) : State := { s with timer := some d }.emit (.timerArm d)

/-- The value an operation returns to its caller (41_rx_framer.md R180, 10_state.md R47). -/
def State.answer (s : State) (r : Result) : State := { s with result := r }

/-! ## Ring buffer -/

/-- `avail(s)` (41_rx_framer.md R176). -/
def avail (s : State) : Nat :=
  if s.rd ≤ s.wr then s.wr - s.rd else s.wr + s.params.cap - s.rd

/-- `at(k) = RB[(s.rd + k) mod CAP]` (41_rx_framer.md R177). -/
def cellAt (s : State) (k : Nat) : Byte :=
  Memory.read unlistedCell s.rb ((s.rd + k) % s.params.cap)

/-- The readable window, from the reader (20_memory.md R61). -/
def readable (s : State) : List Byte := (List.range (avail s)).map (cellAt s)

/-- The reader `k` cells on (41_rx_framer.md R180). -/
def State.advance (s : State) (k : Nat) : State := { s with rd := (s.rd + k) % s.params.cap }

/-- `push(b)` (41_rx_framer.md R174, R175). -/
def push (b : Byte) (s : State) : Outcome :=
  let nxt := (s.wr + 1) % s.params.cap
  if nxt = s.rd then hold .rbFull s
  else .next { s with rb := Memory.write unlistedCell s.rb s.wr b, wr := nxt }

/-- The cells with the bytes `bs` from cell `a` on, round the end of the buffer. -/
def fillCells (cap : Nat) : List Byte → Nat → Memory 8 → Memory 8
  | [],      _, m => m
  | b :: bs, a, m => fillCells cap bs (a + 1) (Memory.write unlistedCell m (a % cap) b)

/-- The state with exactly the frame `f` readable, as received bytes would leave it (41_rx_framer.md
R174), and the reader where it was. -/
def State.withReadable (s : State) (f : Frame) : State :=
  { s with
    rb := fillCells s.params.cap f s.rd s.rb
    wr := (s.rd + f.length) % s.params.cap }

/-! ## CV store -/

/-- `MemRead(Store, n, 2)` (20_memory.md R69). -/
def storeRead (s : State) (n : Nat) : Word := Memory.read unlistedSlot s.store n

/-- The values of page `p` (20_memory.md R67, R68; log entry 14). -/
def pageValues (s : State) (p : Nat) : List Word :=
  (List.range s.params.pageSize).map fun k => storeRead s (p * s.params.pageSize + k)

/-- `MemWrite(Store, n, 2, v)`: the page commit, one indivisible step, and its event (20_memory.md
R68). -/
def storeWrite (n : Nat) (v : Word) (s : State) : State :=
  let t := { s with store := Memory.write unlistedSlot s.store n v }
  t.emit (.storeCommit (n / s.params.pageSize) (pageValues t (n / s.params.pageSize)))

/-- `cv_lookup(n)`: slots 0 and 2 fall back to the defaults while the marker slot does not hold the
device class (43_cv_handler.md R262). -/
def cvLookup (s : State) (n : Nat) : Word :=
  if n = 0 ∧ storeRead s 1 ≠ s.params.deviceClass then s.params.defaultAddress
  else if n = 2 ∧ storeRead s 1 ≠ s.params.deviceClass then s.params.defaultPriority
  else storeRead s n

/-! ## The collision: the CORE's exception (60_exceptions.md R322 to R324) -/

/-- The in-flight frame goes back whole to the head of the queue, if one is being sent
(40_arbitration.md R141, 42_tx_queue.md R238). `transmitting` with no frame being sent is a state no
run reaches (10_state.md R40; log entry 13). -/
def State.requeue (s : State) : State :=
  if s.transmitting then
    match s.txState with
    | .sending f _ => { s with txq := f :: s.txq, txState := .none, transmitting := false }
    | .none        => { s with transmitting := false }
    | .draining _  => { s with transmitting := false }
  else s

/-- `collide(cause)`, the collision entry (40_arbitration.md R141, 60_exceptions.md R323). -/
def collide (cause : Cause) (s : State) : State :=
  let s := { s with collisionDetected := true, txEn := false, rxEn := false }
  let s := (s.emit (.chanEnable false false)).requeue
  let s := { s with forceLine := true }.emit (.chanForceLine true)
  let s := { s with busy := true }.arm s.params.dLb
  { s with arbState := .lineBreakWait }.emit (.collision cause)

/-- `lb_expired`, the collision return (40_arbitration.md R137, 60_exceptions.md R324): `busy` stays. -/
def lbExpired (s : State) : State :=
  let s := { s with collisionDetected := false, txEn := true, rxEn := true }
  let s := s.emit (.chanEnable true true)
  let s := { s with forceLine := false }.emit (.chanForceLine false)
  { s with arbState := .idle }

/-! ## Fetching a command -/

/-- What stands at the command port. -/
inductive Fetched where
  /-- nothing: the CORE waits (70_reset_and_hazards.md R365; log entry 16) -/
  | waiting
  /-- bytes that spell no operation the CORE may run -/
  | bad (r : Refusal)
  /-- an instruction and the bytes after it -/
  | instr (i : Instr) (rest : List Byte)
  deriving DecidableEq, Repr

/-- The next command. "CORE not up" is refused before an unknown or truncated command (60_exceptions.md
R332; log entry 17). -/
def fetch (s : State) : Fetched :=
  match s.input with
  | [] => .waiting
  | b :: bs =>
    if s.up = false ∧ b ≠ 0x00 then .bad .notUp
    else
      match decodeCommand (b :: bs) with
      | .ok (i, rest)           => .instr i rest
      | .error .unknownCommand  => .bad .unknownCommand
      | .error .noCommand | .error .truncatedCommand | .error .strayByte
      | .error .incompleteFrame => .bad .truncatedCommand

end Sys2Proof.Machine
end

