-- ==== Sys2Proof/Machine/Operands.lean ====
section
/-! DEFINITION. The operand forms of the commands: a checked operand, or the refusal its rule names
(30_encoding.md R111, 42_tx_queue.md R221, 10_state.md R48). -/

namespace Sys2Proof.Machine

/-- The registry entry that the operand bytes `key, hid` name, once they pass their check
(30_encoding.md R111). -/
def withEntry (k hid : Byte) (op : RegEntry → Outcome) : Outcome :=
  if registerOk k hid then op ⟨k.setWidth 5, hid⟩ else .refused .badOperand

/-- The register view's number, once it passes its check (10_state.md R48). -/
def withRegister (r : Byte) (op : Byte → Outcome) : Outcome :=
  if readRegOk r then op r else .refused .badOperand

/-- The frame built from `opc, d`, once they pass their check (42_tx_queue.md R221). -/
def withFrame (opc : Byte) (d : List Byte) (op : Frame → Outcome) : Outcome :=
  if enqueueOk opc d then op (withChecksum (opc :: d)) else .refused .malformedEnqueue

end Sys2Proof.Machine
end

