-- ==== Sys2Proof/Machine/Arb.lean ====
section
/-! DEFINITION. The arbitration unit (40_arbitration.md): bus edges, timer expiry, receive error. -/

namespace Sys2Proof.Machine

/-- `EV_BUS_FALL` (40_arbitration.md R131). -/
def execEvBusFall (s : State) : Outcome :=
  whenUp s fun s => .next { { s with busy := true }.arm s.params.dLb with arbState := .lineBreakWait }

/-- `EV_BUS_RISE` (40_arbitration.md R132). -/
def execEvBusRise (s : State) : Outcome :=
  whenUp s fun s =>
    .next { { s with busy := true }.arm s.params.dCd with arbState := .carrierDetectWait }

/-- `cd_expired` (40_arbitration.md R134). -/
def cdExpired (s : State) : State :=
  if s.isMaster then { s with busy := false, arbState := .idle }
  else { s.arm s.params.dMd with arbState := .masterDelayWait }

/-- `md_expired` (40_arbitration.md R135): the product is a natural number. -/
def mdExpired (s : State) : State :=
  if s.priority ≠ 0 then
    { s.arm (s.priority.toNat * s.params.dPrioUnit) with arbState := .priorityDelayWait }
  else { s with busy := false, arbState := .idle }

/-- `pd_expired` (40_arbitration.md R136). -/
def pdExpired (s : State) : State := { s with busy := false, arbState := .idle }

/-- The expiry of an armed delay, by state (40_arbitration.md R133). -/
def timerExpired (s : State) : State :=
  match s.arbState with
  | .carrierDetectWait => cdExpired { s with timer := none }
  | .masterDelayWait   => mdExpired { s with timer := none }
  | .priorityDelayWait => pdExpired { s with timer := none }
  | .lineBreakWait     => lbExpired { s with timer := none }
  | .idle              => { s with timer := none }

/-- `EV_TIMER_EXPIRY` (40_arbitration.md R133). With no delay armed the Timer cannot raise the event and
it "has no step": nothing happens (log entry 8, DESIGN CHOICE). -/
def execEvTimerExpiry (s : State) : Outcome :=
  whenUp s fun s => .next (if s.timer.isSome then timerExpired s else s)

/-- `EV_RX_ERROR` (41_rx_framer.md R173). -/
def execEvRxError (s : State) : Outcome := whenUp s fun s => .next (collide .framingError s)

end Sys2Proof.Machine
end

