-- ==== Sys2Proof/Machine/Boot.lean ====
section
/-! DEFINITION. Power-up, `RESET` and the register view (70_reset_and_hazards.md R360 to R366, 10_state.md
R47). -/

namespace Sys2Proof.Machine

/-- The CV unit's registry entries (70_reset_and_hazards.md R363). -/
def cvEntries (p : Params) : List RegEntry := p.cvOpcodes.map fun opc => ⟨key opc, 0⟩

/-- What `RESET` writes (70_reset_and_hazards.md R360, R362). -/
def resetFields (s : State) : State :=
  { s with
    busy := false, transmitting := false, collisionDetected := false
    arbState := .idle, timer := none
    txEn := true, rxEn := true, forceLine := false
    rd := 0, wr := 0
    txq := [], txState := .none, lastSent := none, svcLatch := false
    progMode := false
    reg := cvEntries s.params
    address := (cvLookup s 0).setWidth 10
    priority := (cvLookup s 2).setWidth 4
    isMaster := s.params.isMaster
    up := true }

/-- `RESET` (70_reset_and_hazards.md R360, R361): accepted whether or not the CORE is up. -/
def execReset (s : State) : Outcome :=
  gate s fun s => if s.storeReady then .next (resetFields s) else .fault .storeNotInitialized

/-- `READ_REG` (10_state.md R47, R48): no side effect on the CORE. -/
def execReadReg (r : Byte) (s : State) : Outcome :=
  whenUp s fun s => withRegister r fun r => .next (s.answer (.word (regWord s r)))

/-- The state at power-up for the parameters `p` and the launch argument `STORE_INIT` (whether the store
is initialized, and its slot values), before the first `RESET`: none where the parameters break a
constraint (70_reset_and_hazards.md R364, R366). Fields that only `RESET` gives a value hold that of
`State.reset` until then (log entry 3). -/
def State.powerUp (p : Params) (ready : Bool) (slots : Memory 16) : Option State :=
  if p.WF ∧ Memory.wf unlistedSlot slots then
    some { State.reset with params := p, store := slots, storeReady := ready, reg := [], up := false }
  else none

end Sys2Proof.Machine
end

