-- ==== Sys2Proof/Machine/Tx.lean ====
section
/-! DEFINITION. The transmit unit (42_tx_queue.md): queue, service, transmitter, long-ack. -/

namespace Sys2Proof.Machine

/-- The frames TX holds: pending plus in flight (10_state.md R33, 42_tx_queue.md R221). -/
def framesHeld (s : State) : Nat := s.txq.length + (if s.txState = .none then 0 else 1)

/-- `enqueue_frame(opc, d)` (42_tx_queue.md R221). -/
def enqueueFrame (opc : Byte) (d : List Byte) (s : State) : Outcome :=
  withFrame opc d fun f =>
    if s.params.txqCap ≤ framesHeld s then .fault .txqOverflow
    else .next { s with txq := s.txq ++ [f] }

/-- `long_ack(opc, code)` (42_tx_queue.md R240, 30_encoding.md R103). -/
def longAck (opc code : Byte) (s : State) : Outcome :=
  enqueueFrame s.params.opcLongAck [clearMsb opc, code] s

/-- `ENQUEUE` (42_tx_queue.md R221). -/
def execEnqueue (opc : Byte) (d : List Byte) (s : State) : Outcome := whenUp s (enqueueFrame opc d)

/-- `LONG_ACK` (42_tx_queue.md R240). -/
def execLongAck (opc code : Byte) (s : State) : Outcome := whenUp s (longAck opc code)

/-- `SVC_CHECK` (42_tx_queue.md R232). -/
def execSvcCheck (s : State) : Outcome :=
  whenUp s fun s =>
    .next { s with svcLatch := decide (s.txState = .none) && decide (s.txq ≠ []) && !s.busy }

/-- The transmission start (42_tx_queue.md R233). With the latch set the queue is never empty in a run
(R233); the arm for the empty queue only clears the latch (log entry 13). -/
def startTransmission (s : State) : State :=
  match s.txq with
  | f :: q =>
    State.emit
      { s.markSending with svcLatch := false, txq := q, txState := .sending f 0, lastSent := none }
      .chanStart
  | [] => { s with svcLatch := false }

/-- `SVC_ACT` (42_tx_queue.md R233). -/
def execSvcAct (s : State) : Outcome :=
  whenUp s fun s => .next (if s.svcLatch then startTransmission s else s)

/-- `EV_TX_READY`: `supply` while bytes are left (42_tx_queue.md R235), `complete` after the last (R236),
nothing with no frame being sent (R234). -/
def txReady (s : State) : State :=
  match s.txState with
  | .sending f c =>
    match f[c]? with
    | some b =>
      { s.emit (.chanTx b) with lastSent := some b, txState := .sending f (c + 1) }
    | none => State.emit { s.markSent with txState := .draining f } .txDone
  | .none       => s
  | .draining _ => s

/-- `EV_TX_READY` (42_tx_queue.md R234). -/
def execEvTxReady (s : State) : Outcome := whenUp s fun s => .next (txReady s)

/-- The release of the in-flight frame (42_tx_queue.md R237). -/
def txComplete (s : State) : State :=
  match s.txState with
  | .draining _  => State.emit { s with txState := .none } .txReleased
  | .none        => s
  | .sending _ _ => s

/-- `EV_TX_COMPLETE` (42_tx_queue.md R237). -/
def execEvTxComplete (s : State) : Outcome := whenUp s fun s => .next (txComplete s)

end Sys2Proof.Machine
end

