-- ==== Sys2Proof/Machine/Cv.lean ====
section
/-! DEFINITION. The CV unit (43_cv_handler.md): request selection, programming mode, write, read,
slave-data messages. -/

namespace Sys2Proof.Machine

/-- The response message (43_cv_handler.md R278). `msbBits` is computed by packing. -/
def responseMessage (p : Params) (m : CvMessage) (n v : Word) : CvMessage where
  source      := p.respSrc
  destination := m.destination
  requestId   := m.requestId
  msbBits     := 0
  deviceClass := m.deviceClass
  lncvNumber  := n
  lncvValue   := v
  flags       := 0

/-- `respond(m, n, v)` (43_cv_handler.md R278). -/
def respond (m : CvMessage) (n v : Word) (s : State) : Outcome :=
  enqueueFrame opcPeerXfer (0x0F :: (responseMessage s.params m n v).pack) s

/-- A programming-on request is accepted: slot 0 with 0xFFFF or the device address (43_cv_handler.md
R268). -/
def progOnAccepted (m : CvMessage) (s : State) : Bool :=
  m.lncvNumber == 0 && (m.lncvValue == 0xFFFF || m.lncvValue == s.address.setWidth 16)

/-- `prog_on(m)` (43_cv_handler.md R268). -/
def progOn (m : CvMessage) (s : State) : Outcome :=
  if progOnAccepted m s then respond m 0 (cvLookup s 0) { s with progMode := true } else .next s

/-- `prog_off()` (43_cv_handler.md R269). -/
def progOff (s : State) : Outcome := .next (State.emit { s with progMode := false } .hookProgEnded)

/-- `persist(n, v)` (43_cv_handler.md R275). -/
def persist (n : Nat) (v : Word) (s : State) : State :=
  let s := storeWrite n v s
  let s := if n = 0 then { storeWrite 1 s.params.deviceClass s with address := v.setWidth 10 } else s
  let s := if n = 2 then { s with priority := v.setWidth 4 } else s
  s.emit (.hookValueWritten n v)

/-- The device's own verdict on a write of slot 0 or 2 (43_cv_handler.md R273). -/
def slotStatus (n : Nat) (v : Word) : Status :=
  if n = 0 then (if v.toNat < 0x3FF then .ok else .invalidValue)
  else if 0 < v.toNat ∧ v.toNat < 0x10 then .ok else .invalidValue

/-- `auth(n, v)` answering `st` (43_cv_handler.md R274): the draw is recorded. -/
def authorize (n : Nat) (v : Word) (st : Status) (s : State) : State :=
  State.emit { s with draws := s.draws + 1 } (.hookAuth n v (s.params.code st))

/-- The end of a write with verdict `st`: persist if ok and different from the lookup value, then the
long-ack (43_cv_handler.md R270, R275, R276). -/
def finishWrite (opc : Byte) (n : Nat) (v : Word) (st : Status) (s : State) : Outcome :=
  longAck opc (s.params.code st) (if st = .ok ∧ v ≠ cvLookup s n then persist n v s else s)

/-- `cv_write(opc, m)`, the hook answering `st` should it be asked (43_cv_handler.md R270 to R276). -/
def cvWriteWith (st : Status) (opc : Byte) (m : CvMessage) (s : State) : Outcome :=
  if s.progMode = false then .next s
  else if s.params.nCv ≤ m.lncvNumber.toNat then longAck opc s.params.stOutOfRange s
  else if m.lncvNumber = 1 then longAck opc s.params.stReadOnly s
  else if m.lncvNumber = 0 ∨ m.lncvNumber = 2 then
    finishWrite opc m.lncvNumber.toNat m.lncvValue (slotStatus m.lncvNumber.toNat m.lncvValue) s
  else
    finishWrite opc m.lncvNumber.toNat m.lncvValue st
      (authorize m.lncvNumber.toNat m.lncvValue st s)

/-- `cv_write(opc, m)`: the hook's answer is the free value of the next draw (43_cv_handler.md R274; log
entry 9). -/
def cvWrite (opc : Byte) (m : CvMessage) (s : State) : Outcome :=
  cvWriteWith (Config.authAnswer s.draws) opc m s

/-- `cv_read(opc, m)` (43_cv_handler.md R277). -/
def cvRead (opc : Byte) (m : CvMessage) (s : State) : Outcome :=
  if s.params.nCv ≤ m.lncvNumber.toNat then longAck opc s.params.stOutOfRange s
  else respond m m.lncvNumber (cvLookup s m.lncvNumber.toNat) s

/-- `slave_write(payload, plen)` (43_cv_handler.md R280). A delivered payload is never empty
(41_rx_framer.md R186). -/
def slaveWrite (payload : List Byte) (s : State) : Outcome :=
  match payload with
  | b :: rest => if b = s.params.slaveSentinel then .next (s.emit (.hookSeqStart rest)) else .next s
  | []        => .next s

/-- `slave_read(payload, plen)` (43_cv_handler.md R281). -/
def slaveRead (payload : List Byte) (s : State) : Outcome :=
  match payload with
  | b :: rest => if b = s.params.slaveSentinel then .next (s.emit (.hookSeqFinal rest)) else .next s
  | []        => .next s

/-- `cv_select(opc, m)` (43_cv_handler.md R265). -/
def cvSelect (opc : Byte) (m : CvMessage) (s : State) : Outcome :=
  if m.flags &&& s.params.flagPron ≠ 0 then progOn m s
  else if m.flags &&& s.params.flagProff ≠ 0 then progOff s
  else if m.requestId = s.params.reqidWrite then cvWrite opc m s
  else cvRead opc m s

/-- `cv_message(opc, payload, plen)` (43_cv_handler.md R263). -/
def cvMessage (opc : Byte) (payload : List Byte) (s : State) : Outcome :=
  if payload.length ≠ 13 then .next s
  else if payload.getD 0 0 ∉ s.params.recognizedSources then .next s
  else cvSelect opc (CvMessage.unpack payload) s

/-- `cv_handle(opc, payload, plen)`: by key only (43_cv_handler.md R261). -/
def cvHandle (opc : Byte) (payload : List Byte) (s : State) : Outcome :=
  if key opc = key opcPeerXfer ∨ key opc = key s.params.opcImmPacket then cvMessage opc payload s
  else if key opc = key s.params.opcWrSlData then slaveWrite payload s
  else if key opc = key s.params.opcSlRdData then slaveRead payload s
  else .next s

/-- `CV_PROG_ON` (43_cv_handler.md R268). -/
def execCvProgOn (m : CvMessage) (s : State) : Outcome := whenUp s (progOn m)

/-- `CV_PROG_OFF` (43_cv_handler.md R269). -/
def execCvProgOff (s : State) : Outcome := whenUp s progOff

/-- `CV_WRITE` (43_cv_handler.md R270). -/
def execCvWrite (opc : Byte) (m : CvMessage) (s : State) : Outcome := whenUp s (cvWrite opc m)

/-- `CV_READ` (43_cv_handler.md R277). -/
def execCvRead (opc : Byte) (m : CvMessage) (s : State) : Outcome := whenUp s (cvRead opc m)

/-- `CV_SLAVE_WRITE` (43_cv_handler.md R280). -/
def execCvSlaveWrite (payload : List Byte) (s : State) : Outcome := whenUp s (slaveWrite payload)

/-- `CV_SLAVE_READ` (43_cv_handler.md R281). -/
def execCvSlaveRead (payload : List Byte) (s : State) : Outcome := whenUp s (slaveRead payload)

end Sys2Proof.Machine
end

