-- ==== Sys2Proof/Machine/Rx.lean ====
section
/-! DEFINITION. The receive unit (41_rx_framer.md): received bytes, framer, dispatcher, registry. -/

namespace Sys2Proof.Machine

/-- `EV_RX_BYTE b` (41_rx_framer.md R172): while transmitting, a byte other than the one just sent is a
collision and is not pushed. -/
def execEvRxByte (b : Byte) (s : State) : Outcome :=
  whenUp s fun s =>
    if s.transmitting ∧ s.lastSent ≠ some b then .next (collide .echoMismatch s) else push b s

/-! ## Dispatch -/

/-- One handler of a dispatch: the CV unit, or the output event of an external handler (41_rx_framer.md
R190, R192). -/
def invoke (opc : Byte) (payload : List Byte) (e : RegEntry) (s : State) : Outcome :=
  if e.hid = 0 then cvHandle opc payload s else .next (s.emit (.dispatch e.hid opc payload))

/-- The handlers of a list of entries, in order (41_rx_framer.md R190). -/
def dispatchTo (opc : Byte) (payload : List Byte) : List RegEntry → State → Outcome
  | [],      s => .next s
  | e :: es, s =>
    if e.key = key opc then thenDo (invoke opc payload e s) (dispatchTo opc payload es)
    else dispatchTo opc payload es s

/-- `dispatch(opc, payload, plen)`: the registry as it stands at the start (41_rx_framer.md R190,
20_memory.md R87). -/
def dispatch (opc : Byte) (payload : List Byte) (s : State) : Outcome :=
  dispatchTo opc payload s.reg s

/-! ## Framer -/

/-- What the framer finds in the readable bytes. -/
inductive Verdict where
  /-- too few bytes: steps 1 and 5 (41_rx_framer.md R180, R183) -/
  | wait
  /-- step 2, a stray data byte (R181) -/
  | stray
  /-- step 4, another opcode at offset `k` (R182) -/
  | rescan (k : Nat)
  /-- step 6, a bad checksum: `len` bytes dropped (R185) -/
  | drop (len : Nat)
  /-- a frame with no room for a checksum (R186) -/
  | short
  /-- step 7, a frame of `len` bytes (R187) -/
  | deliver (len : Nat) (opc : Byte) (payload : List Byte)
  deriving DecidableEq, Repr

/-- The offset of the first byte with bit 7 set. -/
def firstMarked : List Byte → Option Nat
  | []      => none
  | b :: bs => if b.msb then some 0 else (firstMarked bs).map (· + 1)

/-- Steps 1 to 7 of the framer on the readable bytes (41_rx_framer.md R180). The scan of step 4 covers
the offsets `1 .. min(L - 1, av) - 1`. -/
def examine (bs : List Byte) : Verdict :=
  match bs with
  | b0 :: b1 :: _ =>
    if b0.msb = false then .stray
    else
      let len := frameLen b0 b1
      match firstMarked (bs.take (len - 1)).tail with
      | some k => .rescan (k + 1)
      | none =>
        if bs.length < len then .wait
        else if xorAll (bs.take len) ≠ chkTarget then .drop len
        else if len < hdr b0 + 1 then .short
        else .deliver len b0 ((bs.take len).drop (hdr b0))
  | _ => .wait

/-- The effect of a verdict: the reader, the dispatch and the result (41_rx_framer.md R180 to R187). -/
def framerOn (bs : List Byte) (s : State) : Outcome :=
  match examine bs with
  | .wait     => .next (s.answer (.step .none))
  | .stray    => .next ((s.advance 1).answer (.step .none))
  | .rescan k => .next ((s.advance k).answer (.step .rescan))
  | .drop len => .next ((s.advance len).answer (.step .none))
  | .short    => .fault .framerShortFrame
  | .deliver len opc payload =>
    thenDo (dispatch opc payload (s.advance len)) fun t => .next (t.answer (.step .handled))

/-- `STEP` (41_rx_framer.md R180). -/
def execStep (s : State) : Outcome := whenUp s fun s => framerOn (readable s) s

/-! ## Registry -/

/-- `REGISTER` (41_rx_framer.md R195). -/
def execRegister (k hid : Byte) (s : State) : Outcome :=
  whenUp s fun s =>
    withEntry k hid fun e =>
      if s.params.regCap ≤ s.reg.length then .fault .registryFull
      else .next { s with reg := s.reg ++ [e] }

/-- `UNREGISTER`: every copy goes, the order of the rest is kept (41_rx_framer.md R196). -/
def execUnregister (k hid : Byte) (s : State) : Outcome :=
  whenUp s fun s => withEntry k hid fun e => .next { s with reg := s.reg.filter (fun x => x ≠ e) }

end Sys2Proof.Machine
end

