-- ==== Sys2Proof/Machine/Wire.lean ====
section
/-! DEFINITION. The wire frames (30_encoding.md R92, R105): what the framer does with the complete
candidate frame at its reader (41_rx_framer.md R180, steps 4 to 7). -/

namespace Sys2Proof.Machine

/-- The framer on the bytes of one candidate frame. -/
def frameStep (f : Frame) (s : State) : Outcome := whenUp s (framerOn f)

/-- `FRAME_FIXED2` (30_encoding.md R92). -/
def execFrameFixed2 (k : BitVec 5) (chk : Byte) (s : State) : Outcome :=
  frameStep [mkOpc 4 k, chk] s

/-- `FRAME_FIXED4` (30_encoding.md R92). -/
def execFrameFixed4 (k : BitVec 5) (d0 d1 chk : Byte) (s : State) : Outcome :=
  frameStep [mkOpc 5 k, d0, d1, chk] s

/-- `FRAME_FIXED6` (30_encoding.md R92). -/
def execFrameFixed6 (k : BitVec 5) (d0 d1 d2 d3 chk : Byte) (s : State) : Outcome :=
  frameStep [mkOpc 6 k, d0, d1, d2, d3, chk] s

/-- `FRAME_VARIABLE` (30_encoding.md R92, R93). -/
def execFrameVariable (k : BitVec 5) (len : Byte) (body : List Byte) (s : State) : Outcome :=
  frameStep (mkOpc 7 k :: len :: body) s

/-- `OPC_PEER_XFER` (30_encoding.md R105): CV request in. -/
def execOpcPeerXfer (len : Byte) (body : List Byte) (s : State) : Outcome :=
  frameStep (opcPeerXfer :: len :: body) s

/-- `OPC_IMM_PACKET` (30_encoding.md R105): CV request in. -/
def execOpcImmPacket (len : Byte) (body : List Byte) (s : State) : Outcome :=
  frameStep (s.params.opcImmPacket :: len :: body) s

/-- `OPC_WR_SL_DATA` (30_encoding.md R105): sequence start. -/
def execOpcWrSlData (len : Byte) (body : List Byte) (s : State) : Outcome :=
  frameStep (s.params.opcWrSlData :: len :: body) s

/-- `OPC_SL_RD_DATA` (30_encoding.md R105): sequence final. -/
def execOpcSlRdData (len : Byte) (body : List Byte) (s : State) : Outcome :=
  frameStep (s.params.opcSlRdData :: len :: body) s

/-- `OPC_LONG_ACK` received (30_encoding.md R105, 70_reset_and_hazards.md R373). -/
def execOpcLongAck (d0 d1 chk : Byte) (s : State) : Outcome :=
  frameStep [s.params.opcLongAck, d0, d1, chk] s

end Sys2Proof.Machine
end

