-- ==== Sys2Proof/Machine/Dispatch.lean ====
section
/-! DEFINITION. The meaning of every instruction, one arm per row of spec/opcode_table.json. -/

namespace Sys2Proof.Machine

def exec (i : Instr) (s : State) : Host.Outcome State Fault Refusal :=
  match i with
  -- commands
  | .reset => Sys2Proof.Machine.execReset s
  | .evBusFall => Sys2Proof.Machine.execEvBusFall s
  | .evBusRise => Sys2Proof.Machine.execEvBusRise s
  | .evTimerExpiry => Sys2Proof.Machine.execEvTimerExpiry s
  | .evRxByte b => Sys2Proof.Machine.execEvRxByte b s
  | .evRxError => Sys2Proof.Machine.execEvRxError s
  | .evTxReady => Sys2Proof.Machine.execEvTxReady s
  | .evTxComplete => Sys2Proof.Machine.execEvTxComplete s
  | .step => Sys2Proof.Machine.execStep s
  | .svcCheck => Sys2Proof.Machine.execSvcCheck s
  | .svcAct => Sys2Proof.Machine.execSvcAct s
  | .enqueue opc d => Sys2Proof.Machine.execEnqueue opc d s
  | .longAck opc code => Sys2Proof.Machine.execLongAck opc code s
  | .register k hid => Sys2Proof.Machine.execRegister k hid s
  | .unregister k hid => Sys2Proof.Machine.execUnregister k hid s
  | .readReg r => Sys2Proof.Machine.execReadReg r s
  -- wire frame classes
  | .frameFixed2 k chk => Sys2Proof.Machine.execFrameFixed2 k chk s
  | .frameFixed4 k d0 d1 chk => Sys2Proof.Machine.execFrameFixed4 k d0 d1 chk s
  | .frameFixed6 k d0 d1 d2 d3 chk => Sys2Proof.Machine.execFrameFixed6 k d0 d1 d2 d3 chk s
  | .frameVariable k len body => Sys2Proof.Machine.execFrameVariable k len body s
  -- wire messages
  | .opcPeerXfer len body => Sys2Proof.Machine.execOpcPeerXfer len body s
  | .opcImmPacket len body => Sys2Proof.Machine.execOpcImmPacket len body s
  | .opcWrSlData len body => Sys2Proof.Machine.execOpcWrSlData len body s
  | .opcSlRdData len body => Sys2Proof.Machine.execOpcSlRdData len body s
  | .opcLongAck d0 d1 chk => Sys2Proof.Machine.execOpcLongAck d0 d1 chk s
  -- CV requests
  | .cvProgOn _ m => Sys2Proof.Machine.execCvProgOn m s
  | .cvProgOff _ _ => Sys2Proof.Machine.execCvProgOff s
  | .cvWrite opc m => Sys2Proof.Machine.execCvWrite opc m s
  | .cvRead opc m => Sys2Proof.Machine.execCvRead opc m s
  | .cvSlaveWrite _ payload => Sys2Proof.Machine.execCvSlaveWrite payload s
  | .cvSlaveRead _ payload => Sys2Proof.Machine.execCvSlaveRead payload s

end Sys2Proof.Machine
end

