-- ==== Sys2Proof/Machine/Step.lean ====
section
/-! DEFINITION. One step of the CORE: the next operation at its interface (20_memory.md R80). -/

namespace Sys2Proof.Machine

/-- One operation of a run: the next command of `input`, whichever domain it is of (20_memory.md R80,
R82; log entry 1). With no command the CORE waits (70_reset_and_hazards.md R365; log entry 16). -/
def step (s : State) : Host.Outcome State Fault Refusal :=
  gate s fun s =>
    match fetch s with
    | .waiting      => .next s
    | .bad r        => .refused r
    | .instr i rest => exec i { s with input := rest }

/-- The state `s` with the instruction of an opcode-table word next (log entry 12): a command at the
head of `input`; a wire frame, or the frame that carries a CV request, in the ring buffer with a
`STEP` command at the head of `input`. A word that is no instruction stands at the command port. -/
def State.withFetchWord (s : State) (nbits w : Nat) : State :=
  match placeWord s.params nbits w with
  | .command bytes => { s with input := bytes ++ s.input }
  | .wire f        => { s.withReadable f with input := 0x10 :: s.input }
  | .cv f          => { s.withReadable f with input := 0x10 :: s.input }
  | .nothing       => { s with input := wordBytes nbits w ++ s.input }

end Sys2Proof.Machine
end

