-- ==== Sys2Proof/Machine/Pseudo.lean ====
section
/-! DEFINITION. The pseudo-instructions of the command interface (30_encoding.md R115): sequences of
commands, and the loops that run `STEP` until it returns NONE. -/

namespace Sys2Proof.Machine

/-- Instructions one after another, ended by the first fault or refusal (20_memory.md R80, R82). -/
def execAll : List Instr → State → Outcome
  | [],      s => .next s
  | i :: is, s => thenDo (exec i s) (execAll is)

/-- `service` expands to `svc.check`, `svc.act` (30_encoding.md R115). -/
def service : List Instr := [.svcCheck, .svcAct]

/-- `rxf b0, …, bk` expands to `rx b0`, …, `rx bk` (30_encoding.md R115). -/
def rxf (bs : List Byte) : List Instr := bs.map .evRxByte

/-- `drain`: `STEP` until one returns NONE (30_encoding.md R115, 41_rx_framer.md R188), at most `fuel`
of them; `none` when the fuel runs out first. -/
def drain : Nat → State → Option Outcome
  | 0,        _ => none
  | fuel + 1, s =>
    match exec .step s with
    | .next t    => if t.result = .step .none then some (.next t) else drain fuel t
    | .fault f   => some (.fault f)
    | .refused r => some (.refused r)

/-- `poll`: a drain, then a service, with no notification between (30_encoding.md R115). -/
def poll (fuel : Nat) (s : State) : Option Outcome :=
  (drain fuel s).map fun o => thenDo o (execAll service)

end Sys2Proof.Machine
end

