-- ==== Sys2Proof/WellFormed.lean ====
section
/-! DEFINITION. When an instruction is one the spec writes: `Instr.encodable` says its operands fit its
encoding, `Instr.wf` that they also obey the operand rules (30_encoding.md R90 to R95, R111). -/

namespace Sys2Proof

/-- A valid frame: opcode bit 7 set, length as the class says with room for a checksum, bit 7 clear
between opcode and checksum, XOR equal to `CHK_TARGET` (30_encoding.md R90 to R95). -/
def validFrame (f : Frame) : Bool :=
  match f with
  | b0 :: b1 :: tl =>
    b0.msb && f.length == frameLen b0 b1 && decide (hdr b0 + 1 ≤ f.length) &&
      (b1 :: tl).dropLast.all (fun b => !b.msb) && xorAll f == chkTarget
  | _ => false

/-- The body of a variable frame has the length its length byte says. -/
def bodyFits (len : Byte) (body : List Byte) : Bool := body.length == len.toNat - 2

/-- No message of 30_encoding.md R105 has the variable-class opcode of key `k`. -/
def unnamedVariable (p : Params) (k : BitVec 5) : Bool := decide (mkOpc 7 k ∉ p.cvOpcodes)

/-- `m` travels as a CvMessage frame of opcode `opc` that the CV unit accepts and reads back whole: of
the variable class, which alone holds 13 payload bytes (43_cv_handler.md R261, R263, 30_encoding.md
R92, R102). -/
def cvCarried (p : Params) (opc : Byte) (m : CvMessage) : Bool :=
  frameClass opc == 7 && decide (key opc = key opcPeerXfer ∨ key opc = key p.opcImmPacket) &&
    decide (m.source ∈ p.recognizedSources) && m.msbBits == sideChannel m.valueBytes

/-- The operands fit the encoding: decoding the encoded instruction gives it back. -/
def Instr.encodable (p : Params) : Instr → Bool
  | .enqueue _ d               => decide (d.length < 256)
  | .frameFixed4 k _ _ _       => mkOpc 5 k != p.opcLongAck
  | .frameVariable k len body  => unnamedVariable p k && bodyFits len body
  | .opcPeerXfer len body      => bodyFits len body
  | .opcImmPacket len body     => bodyFits len body
  | .opcWrSlData len body      => bodyFits len body
  | .opcSlRdData len body      => bodyFits len body
  | .cvProgOn opc m            => cvCarried p opc m && cvRequest p opc m == .cvProgOn opc m
  | .cvProgOff opc m           => cvCarried p opc m && cvRequest p opc m == .cvProgOff opc m
  | .cvWrite opc m             => cvCarried p opc m && cvRequest p opc m == .cvWrite opc m
  | .cvRead opc m              => cvCarried p opc m && cvRequest p opc m == .cvRead opc m
  | .cvSlaveWrite opc payload  =>
    key opc == key p.opcWrSlData && payload.head? == some p.slaveSentinel
  | .cvSlaveRead opc payload   =>
    key opc == key p.opcSlRdData && payload.head? == some p.slaveSentinel
  | .reset | .evBusFall | .evBusRise | .evTimerExpiry | .evRxByte _ | .evRxError | .evTxReady
  | .evTxComplete | .step | .svcCheck | .svcAct | .longAck _ _ | .register _ _ | .unregister _ _
  | .readReg _ | .frameFixed2 _ _ | .frameFixed6 _ _ _ _ _ _ | .opcLongAck _ _ _ => true

/-- The operands obey the spec's operand rules: those of the command (30_encoding.md R111, R221, R240),
or the carried bytes are a valid frame. -/
def Instr.wf (p : Params) (i : Instr) : Bool :=
  i.encodable p &&
    match i with
    | .reset | .evBusFall | .evBusRise | .evTimerExpiry | .evRxByte _ | .evRxError | .evTxReady
    | .evTxComplete | .step | .svcCheck | .svcAct => true
    | .enqueue opc d       => enqueueOk opc d
    | .longAck _ code      => !code.msb
    | .register k hid      => registerOk k hid
    | .unregister k hid    => registerOk k hid
    | .readReg r           => readRegOk r
    | .frameFixed2 _ _ | .frameFixed4 _ _ _ _ | .frameFixed6 _ _ _ _ _ _ | .frameVariable _ _ _
    | .opcPeerXfer _ _ | .opcImmPacket _ _ | .opcWrSlData _ _ | .opcSlRdData _ _ | .opcLongAck _ _ _
    | .cvProgOn _ _ | .cvProgOff _ _ | .cvWrite _ _ | .cvRead _ _ | .cvSlaveWrite _ _
    | .cvSlaveRead _ _     => validFrame (encode p i)

end Sys2Proof
end

