-- ==== Sys2Proof/Safety.lean ====
section
/-! DEFINITION. The terms claims are stated in: a state that may run an operation, the invariant of the
CORE, and the parts of the state an operation may write. -/

namespace Sys2Proof.Machine

/-- No mark of 10_state.md R45 stands: operations are processed. -/
abbrev State.Live (s : State) : Prop := s.fault = none ∧ s.refused = false ∧ s.hung = none

/-- The state may run every operation: no mark stands and the CORE is up (10_state.md R45, R46). -/
abbrev State.Ready (s : State) : Prop := s.Live ∧ s.up = true

/-- The transmitter is handing over bytes. -/
def TxState.isSending : TxState → Bool
  | .sending _ _ => true
  | .none        => false
  | .draining _  => false

/-- The invariant of the CORE: what 10_state.md, 20_memory.md, 40_arbitration.md R138, 42_tx_queue.md R233
and 43_cv_handler.md R260 say of every state a run reaches. -/
structure State.Inv (s : State) : Prop where
  /-- the parameters meet their constraints (00_scope.md R8) -/
  params   : s.params.WF
  /-- the cursors lie in the buffer (R31) -/
  rd       : s.rd < s.params.cap
  wr       : s.wr < s.params.cap
  /-- the cells are in canonical form and lie in the buffer (20_memory.md R60) -/
  rb       : Memory.wf unlistedCell s.rb
  rbBound  : ∀ c ∈ s.rb, c.1 < s.params.cap
  /-- the store is in canonical form -/
  store    : Memory.wf unlistedSlot s.store
  /-- the registry holds at most `REG_CAP` entries (R32), the CV unit's four first (R260) -/
  regCap   : s.reg.length ≤ s.params.regCap
  regCv    : s.up = true → cvEntries s.params <+: s.reg
  /-- pending and in-flight frames are at most `TXQ_CAP` (R33) -/
  txqCap   : framesHeld s ≤ s.params.txqCap
  /-- every pending frame is valid (42_tx_queue.md R221) -/
  txqValid : ∀ f ∈ s.txq, validFrame f = true
  /-- the frame being sent is valid and its cursor lies in it (R34) -/
  sending  : ∀ f c, s.txState = .sending f c → validFrame f = true ∧ c ≤ f.length
  /-- `transmitting` is true exactly when a frame is being sent (R40) -/
  flag     : s.transmitting = s.txState.isSending
  /-- a delay is armed exactly outside `Idle` (40_arbitration.md R138) -/
  timer    : s.timer = none ↔ s.arbState = .idle
  /-- the latch is set only with a frame pending and none in flight (42_tx_queue.md R233) -/
  latch    : s.svcLatch = true → s.txq ≠ [] ∧ s.txState = .none

/-- Config is the copy of the store that RESET took and the persisted writes refreshed (20_memory.md R88,
10_state.md R22, R24). Priority is left out: 70_reset_and_hazards.md R382. -/
abbrev State.ConfigTracksStore (s : State) : Prop :=
  s.up = true → s.address = (cvLookup s 0).setWidth 10 ∧ s.isMaster = s.params.isMaster

/-! ## Domains and levels of an instruction -/

/-- The notification domain N (30_encoding.md R110). -/
def notification : Instr → Bool
  | .evBusFall | .evBusRise | .evTimerExpiry | .evRxByte _ | .evRxError | .evTxReady
  | .evTxComplete => true
  | .reset | .step | .svcCheck | .svcAct | .enqueue _ _ | .longAck _ _ | .register _ _
  | .unregister _ _ | .readReg _ | .frameFixed2 _ _ | .frameFixed4 _ _ _ _
  | .frameFixed6 _ _ _ _ _ _ | .frameVariable _ _ _ | .opcPeerXfer _ _ | .opcImmPacket _ _
  | .opcWrSlData _ _ | .opcSlRdData _ _ | .opcLongAck _ _ _ | .cvProgOn _ _ | .cvProgOff _ _
  | .cvWrite _ _ | .cvRead _ _ | .cvSlaveWrite _ _ | .cvSlaveRead _ _ => false

/-- The framer at work: `STEP`, or one of the wire frames it finds. -/
def framer : Instr → Bool
  | .step | .frameFixed2 _ _ | .frameFixed4 _ _ _ _ | .frameFixed6 _ _ _ _ _ _
  | .frameVariable _ _ _ | .opcPeerXfer _ _ | .opcImmPacket _ _ | .opcWrSlData _ _
  | .opcSlRdData _ _ | .opcLongAck _ _ _ => true
  | .reset | .evBusFall | .evBusRise | .evTimerExpiry | .evRxByte _ | .evRxError | .evTxReady
  | .evTxComplete | .svcCheck | .svcAct | .enqueue _ _ | .longAck _ _ | .register _ _
  | .unregister _ _ | .readReg _ | .cvProgOn _ _ | .cvProgOff _ _ | .cvWrite _ _ | .cvRead _ _
  | .cvSlaveWrite _ _ | .cvSlaveRead _ _ => false

/-- A CV request, run inside the framer (30_encoding.md R113). -/
def cvRequestInstr : Instr → Bool
  | .cvProgOn _ _ | .cvProgOff _ _ | .cvWrite _ _ | .cvRead _ _ | .cvSlaveWrite _ _
  | .cvSlaveRead _ _ => true
  | .reset | .evBusFall | .evBusRise | .evTimerExpiry | .evRxByte _ | .evRxError | .evTxReady
  | .evTxComplete | .step | .svcCheck | .svcAct | .enqueue _ _ | .longAck _ _ | .register _ _
  | .unregister _ _ | .readReg _ | .frameFixed2 _ _ | .frameFixed4 _ _ _ _
  | .frameFixed6 _ _ _ _ _ _ | .frameVariable _ _ _ | .opcPeerXfer _ _ | .opcImmPacket _ _
  | .opcWrSlData _ _ | .opcSlRdData _ _ | .opcLongAck _ _ _ => false

/-! ## Frames and events that statements name -/

/-- The long-ack frame (42_tx_queue.md R240). -/
def ackFrame (p : Params) (opc code : Byte) : Frame :=
  [p.opcLongAck, opc &&& 0x7F, code, p.opcLongAck ^^^ (opc &&& 0x7F) ^^^ code]

/-- The events of the external handlers among `es` for the key of `opc` (41_rx_framer.md R190, R192). -/
def dispatchEvents (es : List RegEntry) (opc : Byte) (payload : List Byte) : List Event :=
  (es.filter fun e => e.key = key opc).map fun e => .dispatch e.hid opc payload

end Sys2Proof.Machine
end

