-- ==== Sys2Proof/Certificates/Slice0/Obligations.lean ====
section
/-! DEFINITION. The statements for the provers. -/

open Sys2Proof Sys2Proof.Machine

/-! ## Reset, power-up, outcomes -/

/-- 70_reset_and_hazards.md R360 with R363: `RESET` writes exactly these fields, emits nothing, is
accepted up or not, and faults on a store that is not initialized. `cvLookup` is stated by
`CvLookupFallsBackToDefaults`. -/
def Obligations.ResetWritesInitialValues : Prop :=
  ∀ s : State, s.Live →
    exec .reset s =
      if s.storeReady = true then
        .next { s with
          busy := false, transmitting := false, collisionDetected := false
          arbState := .idle, timer := none
          txEn := true, rxEn := true, forceLine := false
          rd := 0, wr := 0
          txq := [], txState := .none, lastSent := none, svcLatch := false
          progMode := false
          reg := [⟨opcPeerXfer.setWidth 5, 0⟩, ⟨s.params.opcImmPacket.setWidth 5, 0⟩,
            ⟨s.params.opcWrSlData.setWidth 5, 0⟩, ⟨s.params.opcSlRdData.setWidth 5, 0⟩]
          address := (cvLookup s 0).setWidth 10
          priority := (cvLookup s 2).setWidth 4
          isMaster := s.params.isMaster
          up := true }
      else .fault .storeNotInitialized

/-- 70_reset_and_hazards.md R364, R366 with 10_state.md R46: power-up is refused to parameters that break
a constraint; otherwise the marks are clear, the trace is empty, the store holds `STORE_INIT` and the
CORE is not up. -/
def Obligations.PowerUpChecksParameters : Prop :=
  ∀ p ready slots,
    (¬ p.WF → State.powerUp p ready slots = none) ∧
    (p.WF → Memory.wf unlistedSlot slots → ∃ s, State.powerUp p ready slots = some s ∧
      s.params = p ∧ s.store = slots ∧ s.storeReady = ready ∧ s.out = [] ∧ s.fault = none ∧
      s.hung = none ∧ s.refused = false ∧ s.up = false)

/-- 10_state.md R46: `up` is false at power-up, true once a reset has completed, and every other
operation is refused before. -/
def Obligations.OnlyResetRunsBeforeUp : Prop :=
  (∀ p ready slots s, State.powerUp p ready slots = some s → s.up = false) ∧
  (∀ s t : State, s.Live → exec .reset s = .next t → t.up = true) ∧
  (∀ (i : Instr) (s : State), s.Live → s.up = false → i ≠ .reset → exec i s = .refused .notUp)

/-- 10_state.md R45 with 60_exceptions.md R330, R333, R334: the marks are none, none, false at first; a
fault, a hold and a refusal leave the state as it stood and record their mark (a hold's command is
taken from `input`, log entries 1, 6); once set no operation clears a mark, not even reset, and a
faulted or refused run goes nowhere (log entry 7). -/
def Obligations.MarksAreNeverCleared : Prop :=
  (∀ p ready slots s, State.powerUp p ready slots = some s →
    s.fault = none ∧ s.hung = none ∧ s.refused = false) ∧
  (∀ (i : Instr) (s : State),
    (s.fault ≠ none → (s.record (exec i s)).fault = s.fault) ∧
    (s.hung ≠ none → (s.record (exec i s)).hung = s.hung) ∧
    (s.refused = true → (s.record (exec i s)).refused = true)) ∧
  (∀ s : State,
    (∀ f, step s = .fault f → s.record (step s) = { s with fault := some f }) ∧
    (∀ r, step s = .refused r → s.record (step s) = { s with refused := true }) ∧
    (∀ t, step s = .next t → t.hung ≠ s.hung →
      s.hung = none ∧ ∃ h, t = { s with input := t.input, hung := some h }) ∧
    (∀ f, s.fault = some f → step s = .fault f ∧ ∀ i, exec i s = .fault f) ∧
    (s.fault = none → s.refused = true →
      step s = .refused .afterRefusal ∧ ∀ i, exec i s = .refused .afterRefusal))

/-- 60_exceptions.md R333, 41_rx_framer.md R175: a push into a full buffer holds the machine with the
state as it stood; nothing else does; a held machine has no further step. That a hold is a next
state which then repeats is the model's choice (log entry 6). -/
def Obligations.HeldMachineNeverMoves : Prop :=
  (∀ (s : State) (b : Byte), s.Ready → (s.transmitting = true → s.lastSent = some b) →
    (s.wr + 1) % s.params.cap = s.rd → exec (.evRxByte b) s = .next { s with hung := some .rbFull }) ∧
  (∀ (i : Instr) (s t : State), exec i s = .next t → t.hung ≠ s.hung →
    t = { s with hung := some .rbFull } ∧ (s.wr + 1) % s.params.cap = s.rd ∧ ∃ b, i = .evRxByte b) ∧
  (∀ (s : State) (h : Hold), s.fault = none → s.refused = false → s.hung = some h →
    step s = .next s ∧ ∀ i, exec i s = .next s)

/-- 60_exceptions.md R331: which operation can raise which fault. -/
def Obligations.FaultsComeOnlyFromTheirOperations : Prop :=
  ∀ (i : Instr) (s : State) (f : Fault), s.Live → exec i s = .fault f →
    (f = .framerShortFrame ∧ framer i = true) ∨
    (f = .txqOverflow ∧ (framer i = true ∨ cvRequestInstr i = true ∨
      (∃ opc d, i = .enqueue opc d) ∨ ∃ opc code, i = .longAck opc code)) ∨
    (f = .registryFull ∧ ∃ k hid, i = .register k hid) ∨
    (f = .storeNotInitialized ∧ i = .reset)

/-- 60_exceptions.md R338, R333: a notification never fails; it answers a next state from every state that
may run one. -/
def Obligations.NotificationsAlwaysComplete : Prop :=
  ∀ (i : Instr) (s : State), notification i = true → s.Ready → ∃ t, exec i s = .next t

/-! ## Fetching and decoding -/

/-- A step runs the decoded command: `step` is `exec` of it with its bytes taken from `input`; with no
command the CORE waits (log entries 1, 16). -/
def Obligations.StepRunsDecodedCommand : Prop :=
  ∀ s : State, s.Live →
    (∀ i rest, decodeCommand s.input = .ok (i, rest) → step s = exec i { s with input := rest }) ∧
    (s.input = [] → step s = .next s)

/-- 30_encoding.md R112 (with 60_exceptions.md R332): command bytes outside the table, and commands that
stop before their operands end, are refused. -/
def Obligations.UnknownAndTruncatedCommandsAreRefused : Prop :=
  ∀ (s : State) (b : Byte) (bs : List Byte), s.Ready → s.input = b :: bs →
    (0x08 ≤ b.toNat → b.toNat ≤ 0x0F → step s = .refused .unknownCommand) ∧
    (0x18 ≤ b.toNat → step s = .refused .unknownCommand) ∧
    (b = 0x04 ∨ b = 0x17 → bs = [] → step s = .refused .truncatedCommand) ∧
    (b = 0x14 ∨ b = 0x15 ∨ b = 0x16 → bs.length < 2 → step s = .refused .truncatedCommand) ∧
    (b = 0x13 → bs.length < 2 → step s = .refused .truncatedCommand) ∧
    (b = 0x13 → ∀ opc n d, bs = opc :: n :: d → d.length < n.toNat →
      step s = .refused .truncatedCommand)

/-- 41_rx_framer.md R180 with 30_encoding.md R108: `STEP` runs the wire frame its decoder reads at the
reader. -/
def Obligations.FramerRunsDecodedFrame : Prop :=
  ∀ (s : State) (i : Instr), s.Ready → decodeWire s.params (readable s) = .ok i →
    exec .step s = exec i s

/-- 43_cv_handler.md R261, R263, R265, R280, R281: the CV unit runs the request its decoder reads in a
payload, and ignores a payload it reads none in. -/
def Obligations.CvUnitRunsDecodedRequest : Prop :=
  ∀ (s : State) (opc : Byte) (payload : List Byte), s.Ready →
    cvHandle opc payload s =
      match decodeCv s.params opc payload with
      | some i => exec i s
      | none   => .next s

/-- Decode and encode agree, with every operand at every value its encoding admits: commands at the
command port, wire frames at the reader (whatever bytes follow), CV requests in the payload of the
frame that carries them. -/
def Obligations.DecodeInvertsEncode : Prop :=
  ∀ (p : Params) (i : Instr) (rest : List Byte), p.WF → i.encodable p = true →
    (framer i = false ∨ i = .step → cvRequestInstr i = false →
      decodeCommand (encode p i ++ rest) = .ok (i, rest)) ∧
    (framer i = true → i ≠ .step → decodeWire p (encode p i ++ rest) = .ok i) ∧
    (cvRequestInstr i = true → ∃ opc payload, (encode p i).head? = some opc ∧
      (encode p i).drop (hdr opc) = payload ∧ decodeCv p opc payload = some i)

/-- Words written out from the encodings of 30_encoding.md R92, R100, R105, R110. -/
def Obligations.SampleWordsDecode : Prop :=
  decodeCommand [0x13, 0xA0, 0x02, 0x01, 0x02] = .ok (.enqueue 0xA0 [0x01, 0x02], []) ∧
  decodeCommand [0x04, 0xA0, 0x10] = .ok (.evRxByte 0xA0, [0x10]) ∧
  decodeCommand [0x15, 0x00, 0x01] = .ok (.register 0x00 0x01, []) ∧
  decodeWire Params.reference [0x80, 0x80] = .ok (.frameFixed2 0 0x80) ∧
  decodeWire Params.reference [0xC5, 1, 2, 3, 4, 0xC1] = .ok (.frameFixed6 5 1 2 3 4 0xC1) ∧
  decodeWire Params.reference [0xB4, 0x65, 0x7F, 0xAE] = .ok (.opcLongAck 0x65 0x7F 0xAE) ∧
  decodeWire Params.reference [0xE7, 0x04, 0x7C, 0x9F] = .ok (.opcSlRdData 0x04 [0x7C, 0x9F]) ∧
  decodeCv Params.reference 0xE7 [0x7C, 0x9F] = some (.cvSlaveRead 0xE7 [0x7C, 0x9F])

/-- 30_encoding.md R101, R102: packing clears bit 7 of the value bytes and keeps it in the side channel;
unpacking undoes it, and packing undoes unpacking apart from bit 7 of the side channel. -/
def Obligations.PackAndUnpackAreInverse : Prop :=
  (∀ m : CvMessage, m.pack.length = 12 ∧ (∀ b ∈ m.pack.drop 4, b.msb = false) ∧
    ∀ chk, CvMessage.unpack (m.pack ++ [chk]) = { m with msbBits := sideChannel m.valueBytes }) ∧
  (∀ p : List Byte, p.length = 12 → (∀ b ∈ p, b.msb = false) → (CvMessage.unpack p).pack = p) ∧
  (∀ p : List Byte, p.length = 12 →
    CvMessage.unpack (p.set 4 (p.getD 4 0 ||| 0x80)) =
      { CvMessage.unpack p with msbBits := p.getD 4 0 ||| 0x80 })

/-- 30_encoding.md R96, R97: the appended checksum makes the XOR `CHK_TARGET`; one flipped bit is always
detected, the same bit flipped in two bytes never; the checksum byte of a valid frame has bit 7
set. -/
def Obligations.ChecksumDetectsOneFlippedBit : Prop :=
  (∀ xs : List Byte, xs ≠ [] → xorAll (xs ++ [chkTarget ^^^ xorAll xs]) = chkTarget) ∧
  (∀ (f : Frame) (k i : Nat) (hk : k < f.length), i < 8 → xorAll f = chkTarget →
    xorAll (f.set k (f[k] ^^^ (1 <<< i))) = xorAll f ^^^ (1 <<< i) ∧
    xorAll (f.set k (f[k] ^^^ (1 <<< i))) ≠ chkTarget) ∧
  (∀ (f : Frame) (j k i : Nat) (hj : j < f.length) (hk : k < f.length), j ≠ k → i < 8 →
    xorAll ((f.set j (f[j] ^^^ (1 <<< i))).set k (f[k] ^^^ (1 <<< i))) = xorAll f) ∧
  (∀ f : Frame, validFrame f = true → ∃ c, f.getLast? = some c ∧ c.msb = true)

/-! ## Arbitration -/

/-- 40_arbitration.md R131, R132: the bus edges, from every state. -/
def Obligations.BusEdgesArmAndSetBusy : Prop :=
  ∀ s : State, s.Ready →
    exec .evBusFall s = .next { s with
      busy := true, timer := some s.params.dLb, arbState := .lineBreakWait
      out := s.out ++ [.timerArm s.params.dLb] } ∧
    exec .evBusRise s = .next { s with
      busy := true, timer := some s.params.dCd, arbState := .carrierDetectWait
      out := s.out ++ [.timerArm s.params.dCd] }

/-- 40_arbitration.md R134 to R137: the expiry of an armed delay, by arbitration state. -/
def Obligations.TimerExpiryByState : Prop :=
  ∀ (s : State) (d : Nat), s.Ready → s.timer = some d →
    (s.arbState = .carrierDetectWait → s.isMaster = true →
      exec .evTimerExpiry s = .next { s with timer := none, busy := false, arbState := .idle }) ∧
    (s.arbState = .carrierDetectWait → s.isMaster = false →
      exec .evTimerExpiry s = .next { s with
        timer := some s.params.dMd, arbState := .masterDelayWait
        out := s.out ++ [.timerArm s.params.dMd] }) ∧
    (s.arbState = .masterDelayWait → s.priority ≠ 0 →
      exec .evTimerExpiry s = .next { s with
        timer := some (s.priority.toNat * s.params.dPrioUnit), arbState := .priorityDelayWait
        out := s.out ++ [.timerArm (s.priority.toNat * s.params.dPrioUnit)] }) ∧
    (s.arbState = .masterDelayWait → s.priority = 0 →
      exec .evTimerExpiry s = .next { s with timer := none, busy := false, arbState := .idle }) ∧
    (s.arbState = .priorityDelayWait →
      exec .evTimerExpiry s = .next { s with timer := none, busy := false, arbState := .idle }) ∧
    (s.arbState = .lineBreakWait →
      exec .evTimerExpiry s = .next { s with
        timer := none, collisionDetected := false, txEn := true, rxEn := true, forceLine := false
        arbState := .idle, out := s.out ++ [.chanEnable true true, .chanForceLine false] })

/-- 40_arbitration.md R144: the time in `PriorityDelayWait` does not decrease with the priority, and grows
with it when the unit is positive. -/
def Obligations.PriorityDelayGrowsWithPriority : Prop :=
  ∀ (s₁ s₂ : State) (d₁ d₂ : Nat), s₁.Ready → s₂.Ready → s₁.params = s₂.params →
    s₁.timer = some d₁ → s₂.timer = some d₂ →
    s₁.arbState = .masterDelayWait → s₂.arbState = .masterDelayWait →
    s₁.priority ≠ 0 → s₂.priority ≠ 0 → s₁.priority.toNat ≤ s₂.priority.toNat →
    ∃ t₁ t₂ e₁ e₂, exec .evTimerExpiry s₁ = .next t₁ ∧ exec .evTimerExpiry s₂ = .next t₂ ∧
      t₁.arbState = .priorityDelayWait ∧ t₂.arbState = .priorityDelayWait ∧
      t₁.timer = some e₁ ∧ t₂.timer = some e₂ ∧
      t₁.out = s₁.out ++ [.timerArm e₁] ∧ t₂.out = s₂.out ++ [.timerArm e₂] ∧
      e₁ ≤ e₂ ∧ (s₁.priority.toNat < s₂.priority.toNat → 0 < s₁.params.dPrioUnit → e₁ < e₂)

/-- 40_arbitration.md R143: a rise from `Idle` and a carrier-detect expiry of a non-master lead to
`MasterDelayWait`, and no instruction but an expiry (and `RESET`) leads from there to `Idle`. -/
def Obligations.MasterDelayIsLeftToIdleOnlyByExpiry : Prop :=
  (∀ s : State, s.Ready → s.arbState = .idle → s.isMaster = false →
    ∃ t u, exec .evBusRise s = .next t ∧ exec .evTimerExpiry t = .next u ∧
      u.arbState = .masterDelayWait ∧ u.timer = some s.params.dMd ∧ u.busy = true) ∧
  (∀ (i : Instr) (s t : State), s.arbState = .masterDelayWait → exec i s = .next t →
    t.arbState = .idle → i = .evTimerExpiry ∨ i = .reset)

/-- 40_arbitration.md R141 with R173 and R172: both causes of a collision, from every state in which the
flag `transmitting` matches the transmitter (the invariant `EveryStepKeepsTheInvariant` states). -/
def Obligations.CollisionEntry : Prop :=
  ∀ (s : State) (cause : Cause) (t : State), s.Ready → s.transmitting = s.txState.isSending →
    t = { s with
      collisionDetected := true, txEn := false, rxEn := false, forceLine := true, busy := true
      timer := some s.params.dLb, arbState := .lineBreakWait, transmitting := false
      txState := (match s.txState with | .sending _ _ => .none | x => x)
      txq := (match s.txState with | .sending f _ => f :: s.txq | _ => s.txq)
      out := s.out ++ [.chanEnable false false, .chanForceLine true, .timerArm s.params.dLb,
        .collision cause] } →
    (cause = .framingError → exec .evRxError s = .next t) ∧
    (∀ b, cause = .echoMismatch → s.transmitting = true → s.lastSent ≠ some b →
      exec (.evRxByte b) s = .next t)

/-- 60_exceptions.md R322: the causes, their codes, and that no other operation raises a collision. -/
def Obligations.NoOtherOperationRaisesACollision : Prop :=
  Cause.code .framingError = 1 ∧ Cause.code .echoMismatch = 2 ∧
  ∀ (i : Instr) (s t : State), exec i s = .next t →
    (s.collisionDetected = false → t.collisionDetected = true →
      i = .evRxError ∨ ∃ b, i = .evRxByte b ∧ s.transmitting = true ∧ s.lastSent ≠ some b) ∧
    (∀ c es, t.out = s.out ++ es → Event.collision c ∈ es →
      (c = .framingError ∧ i = .evRxError) ∨
      (c = .echoMismatch ∧ ∃ b, i = .evRxByte b ∧ s.transmitting = true ∧ s.lastSent ≠ some b))

/-- 20_memory.md R81 (with 10_state.md R31): each domain writes only its own state. -/
def Obligations.DomainsWriteOnlyTheirState : Prop :=
  ∀ (i : Instr) (s t : State), exec i s = .next t → i ≠ .reset →
    (notification i = true →
      t.rd = s.rd ∧ t.reg = s.reg ∧ t.progMode = s.progMode ∧ t.store = s.store) ∧
    (notification i = false →
      t.wr = s.wr ∧ t.rb = s.rb ∧ t.arbState = s.arbState ∧ t.timer = s.timer ∧ t.txEn = s.txEn ∧
      t.rxEn = s.rxEn ∧ t.forceLine = s.forceLine)

/-- 10_state.md R39: "transmitting implies busy" is not kept: an expiry can clear `busy` while a frame is
being sent. -/
def Obligations.TransmittingDoesNotKeepBusy : Prop :=
  ∃ (s t : State), s.Inv ∧ s.Ready ∧ s.transmitting = true ∧ s.busy = true ∧
    exec .evTimerExpiry s = .next t ∧ t.transmitting = true ∧ t.busy = false

/-! ## Receive path -/

/-- 41_rx_framer.md R172, R174, 20_memory.md R62: a byte that is no mismatch is stored at the writer and
the writer moves, all other cells and state unchanged; a mismatch pushes nothing (`CollisionEntry`),
a full buffer holds (`HeldMachineNeverMoves`); nothing else writes the ring buffer, and no operation
is ever refused as a host push. -/
def Obligations.ReceivedByteIsStoredAtTheWriter : Prop :=
  (∀ (s : State) (b : Byte), s.Ready → Memory.wf unlistedCell s.rb →
    (s.transmitting = true → s.lastSent = some b) → (s.wr + 1) % s.params.cap ≠ s.rd →
    ∃ t, exec (.evRxByte b) s = .next t ∧
      t = { s with rb := t.rb, wr := (s.wr + 1) % s.params.cap } ∧
      ∀ a, Memory.read unlistedCell t.rb a =
        if a = s.wr then b else Memory.read unlistedCell s.rb a) ∧
  (∀ (i : Instr) (s : State),
    exec i s ≠ .refused .hostPush ∧
    ∀ t, exec i s = .next t → t.rb ≠ s.rb →
      ∃ b, i = .evRxByte b ∧ t = { s with rb := t.rb, wr := t.wr })

/-- 41_rx_framer.md R174 to R177 with 20_memory.md R61, R83: the available byte count is modular; the
ring buffer is a queue: a push appends to the readable bytes, a move of the reader drops from them,
and it is full with `CAP - 1` bytes. -/
def Obligations.RingBufferIsAQueue : Prop :=
  ∀ s : State, s.rd < s.params.cap → s.wr < s.params.cap → Memory.wf unlistedCell s.rb →
    (avail s : ℤ) = ((s.wr : ℤ) - (s.rd : ℤ)) % (s.params.cap : ℤ) ∧
    (readable s).length = avail s ∧
    (s.rd = s.wr ↔ readable s = []) ∧
    ((s.wr + 1) % s.params.cap = s.rd ↔ avail s = s.params.cap - 1) ∧
    (∀ b t, push b s = .next t → (s.wr + 1) % s.params.cap ≠ s.rd →
      readable t = readable s ++ [b]) ∧
    (∀ k, k ≤ avail s → readable (s.advance k) = (readable s).drop k)

/-- 41_rx_framer.md R180: the framer step, its seven steps spelled out over the bytes after the reader. -/
def Obligations.FramerStepFollowsItsSevenSteps : Prop :=
  ∀ (s : State) (len : Nat) (w : List Byte), s.Ready → len = frameLen (cellAt s 0) (cellAt s 1) →
    w = (List.range len).map (cellAt s) →
    (avail s < 2 → exec .step s = .next { s with result := .step .none }) ∧
    (2 ≤ avail s → (cellAt s 0).msb = false →
      exec .step s = .next { s with rd := (s.rd + 1) % s.params.cap, result := .step .none }) ∧
    (2 ≤ avail s → (cellAt s 0).msb = true →
      (∀ k, 1 ≤ k → k < min (len - 1) (avail s) → (cellAt s k).msb = true →
        (∀ j, 1 ≤ j → j < k → (cellAt s j).msb = false) →
        exec .step s = .next { s with rd := (s.rd + k) % s.params.cap, result := .step .rescan }) ∧
      ((∀ k, 1 ≤ k → k < min (len - 1) (avail s) → (cellAt s k).msb = false) →
        (avail s < len → exec .step s = .next { s with result := .step .none }) ∧
        (len ≤ avail s → xorAll w ≠ chkTarget →
          exec .step s =
            .next { s with rd := (s.rd + len) % s.params.cap, result := .step .none }) ∧
        (len ≤ avail s → xorAll w = chkTarget → len < hdr (cellAt s 0) + 1 →
          exec .step s = .fault .framerShortFrame) ∧
        (len ≤ avail s → xorAll w = chkTarget → hdr (cellAt s 0) + 1 ≤ len →
          exec .step s =
            thenDo (dispatch (cellAt s 0) (w.drop (hdr (cellAt s 0)))
                { s with rd := (s.rd + len) % s.params.cap })
              fun t => .next { t with result := .step .handled })))

/-- 41_rx_framer.md R200, R201: two valid frames with no gap are delivered whole by two successive steps;
a stray byte before a valid frame costs exactly one byte and one step. -/
def Obligations.FramesAreDeliveredStepByStep : Prop :=
  ∀ (s : State) (f : Frame) (o : Byte), s.Ready → s.rd < s.params.cap → s.wr < s.params.cap →
    validFrame f = true → f.head? = some o →
    (∀ (t : State) (f₂ : Frame) (o₂ : Byte), validFrame f₂ = true → f₂.head? = some o₂ →
      readable s = f ++ f₂ →
      exec .step s =
        thenDo (dispatch o (f.drop (hdr o)) (s.advance f.length))
          (fun u => .next (u.answer (.step .handled))) ∧
      (exec .step s = .next t →
        t.result = .step .handled ∧ t.rd = (s.rd + f.length) % s.params.cap ∧ readable t = f₂ ∧
        exec .step t =
          thenDo (dispatch o₂ (f₂.drop (hdr o₂)) (t.advance f₂.length))
            (fun u => .next (u.answer (.step .handled))) ∧
        ∀ u, exec .step t = .next u → u.result = .step .handled ∧ readable u = [])) ∧
    (∀ b : Byte, b.msb = false → readable s = b :: f →
      ∃ t, exec .step s = .next t ∧
        t = { s with rd := (s.rd + 1) % s.params.cap, result := .step .none } ∧ readable t = f ∧
        exec .step t =
          thenDo (dispatch o (f.drop (hdr o)) (t.advance f.length))
            (fun u => .next (u.answer (.step .handled))))

/-- 41_rx_framer.md R202, 30_encoding.md R115: a step that does not return NONE moves the reader forward
within the readable bytes, and a drain ends after at most `avail(s) + 1` steps. -/
def Obligations.DrainEnds : Prop :=
  (∀ s t : State, s.Ready → exec .step s = .next t → t.result ≠ .step .none →
    ∃ k, 1 ≤ k ∧ k ≤ avail s ∧ t.rd = (s.rd + k) % s.params.cap ∧ t.wr = s.wr) ∧
  (∀ s : State, s.Ready → s.rd < s.params.cap → s.wr < s.params.cap →
    ∃ o, drain (avail s + 1) s = some o)

/-- 41_rx_framer.md R190, R192: a dispatch invokes the handlers of the frame's key in registration order,
the external ones by their events, the CV unit in its place. -/
def Obligations.DispatchInvokesHandlersInOrder : Prop :=
  ∀ (s : State) (opc : Byte) (payload : List Byte),
    ((∀ e ∈ s.reg, e.key = key opc → e.hid ≠ 0) →
      dispatch opc payload s =
        .next { s with out := s.out ++ dispatchEvents s.reg opc payload }) ∧
    (∀ before after, s.reg = before ++ ⟨key opc, 0⟩ :: after →
      (∀ e ∈ before ++ after, e.key = key opc → e.hid ≠ 0) →
      dispatch opc payload s =
        thenDo (cvHandle opc payload { s with out := s.out ++ dispatchEvents before opc payload })
          fun t => .next { t with out := t.out ++ dispatchEvents after opc payload })

/-- 41_rx_framer.md R185, R187 with 30_encoding.md R92, R105: a valid wire frame whose handlers are all
external is delivered whole. A wire instruction run by itself takes its own bytes, whatever the ring
buffer holds: the model's choice (log entries 11, 21). In a run the four CV opcodes always have the
CV unit's entry; `CvFramesRunTheirRequest` is about them. -/
def Obligations.WireFramesReachExternalHandlers : Prop :=
  ∀ (s : State) (i : Instr) (f : Frame) (opc : Byte), s.Ready → framer i = true → i ≠ .step →
    i.wf s.params = true → f = encode s.params i → f.head? = some opc →
    (∀ e ∈ s.reg, e.key = key opc → e.hid ≠ 0) →
    exec i s = .next { s with
      rd := (s.rd + f.length) % s.params.cap
      out := s.out ++ dispatchEvents s.reg opc (f.drop (hdr opc))
      result := .step .handled }

/-- 41_rx_framer.md R185, R186: a wire frame with a bad checksum over its length and no opcode byte
inside is dropped with no event, whatever handlers are registered; a length byte of 1 drops one
byte, one of 0 never comes here. A wire instruction run by itself takes its own bytes, whatever the
ring buffer holds: the model's choice (log entries 11, 21). -/
def Obligations.BadChecksumDropsTheFrame : Prop :=
  ∀ (s : State) (i : Instr) (f : Frame) (b0 b1 : Byte) (tl : List Byte), s.Ready →
    framer i = true → i ≠ .step → i.encodable s.params = true → s.params.WF →
    f = encode s.params i → f = b0 :: b1 :: tl → (∀ b ∈ (f.drop 1).dropLast, b.msb = false) →
    xorAll (f.take (frameLen b0 b1)) ≠ chkTarget →
    exec i s = .next { s with
      rd := (s.rd + frameLen b0 b1) % s.params.cap, result := .step .none }

/-- 41_rx_framer.md R195: `REGISTER`. -/
def Obligations.RegisterAppends : Prop :=
  ∀ (s : State) (k hid : Byte), s.Ready →
    (32 ≤ k.toNat ∨ hid = 0 → exec (.register k hid) s = .refused .badOperand) ∧
    (k.toNat < 32 → hid ≠ 0 →
      (s.params.regCap ≤ s.reg.length → exec (.register k hid) s = .fault .registryFull) ∧
      (s.reg.length < s.params.regCap →
        exec (.register k hid) s =
          .next { s with reg := s.reg ++ [⟨BitVec.ofNat 5 k.toNat, hid⟩] }))

/-- 41_rx_framer.md R196: `UNREGISTER` removes every copy, keeps the order of the rest, and cannot remove
an entry of the CV unit. -/
def Obligations.UnregisterRemovesEveryCopy : Prop :=
  ∀ (s : State) (k hid : Byte), s.Ready →
    (32 ≤ k.toNat ∨ hid = 0 → exec (.unregister k hid) s = .refused .badOperand) ∧
    (k.toNat < 32 → hid ≠ 0 →
      ∃ t, exec (.unregister k hid) s = .next t ∧ t = { s with reg := t.reg } ∧
        t.reg.Sublist s.reg ∧
        (∀ e, e ∈ t.reg ↔ e ∈ s.reg ∧ e ≠ ⟨BitVec.ofNat 5 k.toNat, hid⟩) ∧
        (∀ e, e ≠ ⟨BitVec.ofNat 5 k.toNat, hid⟩ → t.reg.count e = s.reg.count e) ∧
        t.reg.filter (fun e => e.hid = 0) = s.reg.filter (fun e => e.hid = 0))

/-- 10_state.md R48 with R28: the state codes and the register view, field by field; a register above 3
is refused; reading changes nothing of the CORE but the model's record of the result (log entry
10). -/
def Obligations.RegisterViewLayout : Prop :=
  (ArbState.code .idle = 0 ∧ ArbState.code .carrierDetectWait = 1 ∧
    ArbState.code .masterDelayWait = 2 ∧ ArbState.code .priorityDelayWait = 3 ∧
    ArbState.code .lineBreakWait = 4) ∧
  (TxState.code .none = 0 ∧ (∀ f c, TxState.code (.sending f c) = 1) ∧
    ∀ f, TxState.code (.draining f) = 2) ∧
  ∀ (s : State) (r : Byte), s.Ready →
    (3 < r.toNat → exec (.readReg r) s = .refused .badOperand) ∧
    (r.toNat ≤ 3 → ∃ w : Word, exec (.readReg r) s = .next { s with result := .word w } ∧
      (r = 0 → w.extractLsb' 0 10 = s.address ∧ w.extractLsb' 10 4 = s.priority ∧
        w.getLsbD 14 = s.isMaster ∧ w.getLsbD 15 = false) ∧
      (r = 1 → w.getLsbD 0 = s.busy ∧ w.getLsbD 1 = s.transmitting ∧
        w.getLsbD 2 = s.collisionDetected ∧ w.extractLsb' 3 13 = 0) ∧
      (r = 2 → w.extractLsb' 0 3 = s.arbState.code ∧ w.getLsbD 3 = s.timer.isSome ∧
        w.getLsbD 4 = s.txEn ∧ w.getLsbD 5 = s.rxEn ∧ w.getLsbD 6 = s.forceLine ∧
        w.extractLsb' 7 9 = 0) ∧
      (r = 3 → w.getLsbD 0 = s.progMode ∧ w.extractLsb' 1 2 = s.txState.code ∧
        w.extractLsb' 3 13 = 0))

/-! ## Transmit path -/

/-- 42_tx_queue.md R221: `ENQUEUE`: the malformed forms, the overflow, and the frame appended. -/
def Obligations.EnqueueBuildsAndAppendsAFrame : Prop :=
  ∀ (s : State) (opc : Byte) (d : List Byte), s.Ready →
    (opc.msb = false ∨ (∃ b ∈ d, b.msb = true) ∨
        (frameClass opc = 7 ∧ ∀ l tl, d = l :: tl → l.toNat ≠ d.length + 2) ∨
        (frameClass opc ≠ 7 ∧ d.length + 2 ≠ frameLen opc 0) →
      exec (.enqueue opc d) s = .refused .malformedEnqueue) ∧
    (opc.msb = true → (∀ b ∈ d, b.msb = false) →
      (frameClass opc = 7 → ∃ l tl, d = l :: tl ∧ l.toNat = d.length + 2) →
      (frameClass opc ≠ 7 → d.length + 2 = frameLen opc 0) →
      (s.params.txqCap ≤ s.txq.length + (if s.txState = .none then 0 else 1) →
        exec (.enqueue opc d) s = .fault .txqOverflow) ∧
      (s.txq.length + (if s.txState = .none then 0 else 1) < s.params.txqCap →
        exec (.enqueue opc d) s =
          .next { s with txq := s.txq ++ [opc :: d ++ [chkTarget ^^^ xorAll (opc :: d)]] }))

/-- 42_tx_queue.md R240: `LONG_ACK`. -/
def Obligations.LongAckAppendsItsFrame : Prop :=
  ∀ (s : State) (opc code : Byte), s.Ready → s.params.WF →
    (code.msb = true → exec (.longAck opc code) s = .refused .malformedEnqueue) ∧
    (code.msb = false → s.params.txqCap ≤ framesHeld s →
      exec (.longAck opc code) s = .fault .txqOverflow) ∧
    (code.msb = false → framesHeld s < s.params.txqCap →
      exec (.longAck opc code) s = .next { s with txq := s.txq ++ [ackFrame s.params opc code] })

/-- What TX builds, RX delivers: the frame an `ENQUEUE` appends is valid, and a framer that finds it
readable, whatever follows it, dispatches exactly its opcode and payload (42_tx_queue.md R221,
41_rx_framer.md R187). -/
def Obligations.EnqueuedFramesAreDeliverable : Prop :=
  ∀ (s t : State) (opc : Byte) (d : List Byte), s.Ready → exec (.enqueue opc d) s = .next t →
    ∃ f, t = { s with txq := s.txq ++ [f] } ∧ validFrame f = true ∧ f.head? = some opc ∧
      f.length = d.length + 2 ∧
      ∀ (r : State) (rest : List Byte), r.Ready → readable r = f ++ rest →
        exec .step r =
          thenDo (dispatch opc (f.drop (hdr opc)) (r.advance f.length))
            fun u => .next (u.answer (.step .handled))

/-- 42_tx_queue.md R232, R233: the two phases of the polling service. -/
def Obligations.ServiceChecksThenStarts : Prop :=
  ∀ s : State, s.Ready →
    (∃ t, exec .svcCheck s = .next t ∧ t = { s with svcLatch := t.svcLatch } ∧
      (t.svcLatch = true ↔ s.txState = .none ∧ s.txq ≠ [] ∧ s.busy = false)) ∧
    (s.svcLatch = false → exec .svcAct s = .next s) ∧
    (∀ f q, s.svcLatch = true → s.txq = f :: q →
      exec .svcAct s = .next { s with
        svcLatch := false, txq := q, txState := .sending f 0, transmitting := true, busy := true
        lastSent := none, out := s.out ++ [.chanStart] })

/-- 42_tx_queue.md R234 to R237: byte supply, completion and release. -/
def Obligations.TransmitterSuppliesCompletesReleases : Prop :=
  ∀ s : State, s.Ready →
    (∀ (f : Frame) (c : Nat) (h : c < f.length), s.txState = .sending f c →
      exec .evTxReady s = .next { s with
        txState := .sending f (c + 1), lastSent := some f[c], out := s.out ++ [.chanTx f[c]] }) ∧
    (∀ f, s.txState = .sending f f.length →
      exec .evTxReady s = .next { s with
        transmitting := false, txState := .draining f, out := s.out ++ [.txDone] }) ∧
    (s.txState.isSending = false → exec .evTxReady s = .next s) ∧
    (∀ f, s.txState = .draining f →
      exec .evTxComplete s = .next { s with txState := .none, out := s.out ++ [.txReleased] }) ∧
    ((∀ f, s.txState ≠ .draining f) → exec .evTxComplete s = .next s)

/-- 42_tx_queue.md R243: from its start to its completion, with no collision between, a frame of `L` bytes
is handed to the channel byte by byte, each once and in order, by `L + 1` ready notifications. -/
def Obligations.TransmissionSendsEachByteOnce : Prop :=
  ∀ (s : State) (f : Frame), s.Ready → s.txState = .sending f 0 → f ≠ [] →
    execAll (List.replicate (f.length + 1) .evTxReady) s = .next { s with
      transmitting := false, txState := .draining f, lastSent := f.getLast?
      out := s.out ++ f.map .chanTx ++ [.txDone] }

/-- 40_arbitration.md R142, 42_tx_queue.md R243: after a collision of either cause the frame being sent is
the head of the queue with nothing in flight; it stays so whatever runs until the next start, which
sends it from byte 0. -/
def Obligations.RetriedFrameIsTheNextSent : Prop :=
  (∀ (i : Instr) (s : State) (f : Frame) (c : Nat), s.Ready → s.transmitting = true →
    s.txState = .sending f c → (i = .evRxError ∨ ∃ b, i = .evRxByte b ∧ s.lastSent ≠ some b) →
    ∃ t, exec i s = .next t ∧ t.transmitting = false ∧ t.txState = .none ∧ t.txq = f :: s.txq) ∧
  (∀ (i : Instr) (s t : State) (f : Frame) (q : List Frame),
    s.transmitting = false → s.txState = .none → s.txq = f :: q → exec i s = .next t →
    i ≠ .reset → i ≠ .svcAct →
    t.transmitting = false ∧ t.txState = .none ∧ ∃ q', t.txq = f :: q') ∧
  (∀ (s : State) (f : Frame) (q : List Frame), s.Ready → s.txq = f :: q → s.svcLatch = true →
    ∃ t, exec .svcAct s = .next t ∧ t.txState = .sending f 0 ∧ t.txq = q)

/-- 42_tx_queue.md R223: frames leave the queue from the head in order, a frame returned by a collision
(a receive error or a mismatched echo, 60_exceptions.md R322) goes to the head, and nothing else
reorders, removes or merges them. -/
def Obligations.QueueOrderIsKept : Prop :=
  ∀ (i : Instr) (s t : State), exec i s = .next t → i ≠ .reset →
    (∃ fs, t.txq = s.txq ++ fs) ∨
    (i = .svcAct ∧ ∃ f, s.txq = f :: t.txq ∧ t.txState = .sending f 0) ∨
    ((i = .evRxError ∨ ∃ b, i = .evRxByte b ∧ s.transmitting = true ∧ s.lastSent ≠ some b) ∧
      ∃ f c, s.txState = .sending f c ∧ t.txq = f :: s.txq ∧ t.txState = .none)

/-- 10_state.md R44: every emit appends to the trace and nothing removes from it; reset does not clear
it. -/
def Obligations.OutputTraceOnlyGrows : Prop :=
  (∀ (i : Instr) (s t : State), exec i s = .next t → s.out <+: t.out) ∧
  (∀ s t : State, step s = .next t → s.out <+: t.out) ∧
  (∀ s t : State, exec .reset s = .next t → t.out = s.out)

/-! ## CV unit -/

/-- 43_cv_handler.md R262: the value lookup with its fallback. -/
def Obligations.CvLookupFallsBackToDefaults : Prop :=
  ∀ (s : State) (n : Nat),
    (storeRead s 1 ≠ s.params.deviceClass → cvLookup s 0 = s.params.defaultAddress ∧
      cvLookup s 2 = s.params.defaultPriority) ∧
    (storeRead s 1 = s.params.deviceClass → cvLookup s n = storeRead s n) ∧
    (n ≠ 0 → n ≠ 2 → cvLookup s n = storeRead s n)

/-- 43_cv_handler.md R277, R278 with 30_encoding.md R102: a read of slot `n` in range queues the response
frame with the lookup value; out of range, the long-ack. The request is one a frame can carry. -/
def Obligations.CvReadAnswersTheLookupValue : Prop :=
  ∀ (s : State) (opc : Byte) (m : CvMessage), s.Ready → s.params.WF → framesHeld s < s.params.txqCap →
    Instr.wf s.params (.cvRead opc m) = true →
    (s.params.nCv ≤ m.lncvNumber.toNat →
      exec (.cvRead opc m) s =
        .next { s with txq := s.txq ++ [ackFrame s.params opc s.params.stOutOfRange] }) ∧
    (m.lncvNumber.toNat < s.params.nCv → ∃ f body,
      exec (.cvRead opc m) s = .next { s with txq := s.txq ++ [f] } ∧
      f = opcPeerXfer :: 0x0F :: body ∧ f.length = 15 ∧ validFrame f = true ∧
      CvMessage.unpack body =
        { source := s.params.respSrc, destination := m.destination, requestId := m.requestId
          msbBits := body.getD 4 0, deviceClass := m.deviceClass, lncvNumber := m.lncvNumber
          lncvValue := cvLookup s m.lncvNumber.toNat, flags := 0 })

/-- 43_cv_handler.md R268, R269: programming on, accepted and not, and programming off. -/
def Obligations.ProgrammingModeIsEnteredAndLeft : Prop :=
  ∀ (s : State) (opc : Byte) (m : CvMessage), s.Ready →
    (s.params.WF → framesHeld s < s.params.txqCap → Instr.wf s.params (.cvProgOn opc m) = true →
      m.lncvNumber = 0 → m.lncvValue = 0xFFFF ∨ m.lncvValue = s.address.setWidth 16 → ∃ f body,
      exec (.cvProgOn opc m) s = .next { s with progMode := true, txq := s.txq ++ [f] } ∧
      f = opcPeerXfer :: 0x0F :: body ∧ f.length = 15 ∧ validFrame f = true ∧
      CvMessage.unpack body =
        { source := s.params.respSrc, destination := m.destination, requestId := m.requestId
          msbBits := body.getD 4 0, deviceClass := m.deviceClass, lncvNumber := 0
          lncvValue := cvLookup s 0, flags := 0 }) ∧
    (m.lncvNumber ≠ 0 ∨ (m.lncvValue ≠ 0xFFFF ∧ m.lncvValue ≠ s.address.setWidth 16) →
      exec (.cvProgOn opc m) s = .next s) ∧
    exec (.cvProgOff opc m) s =
      .next { s with progMode := false, out := s.out ++ [.hookProgEnded] }

/-- 43_cv_handler.md R271, R272, R273: outside programming mode a write is dropped, whatever its slot; in
programming mode, the writes answered with a status other than ok, and the ones that change nothing
because the lookup value is already there (R275). -/
def Obligations.WritesThatChangeNoSlot : Prop :=
  ∀ (s : State) (opc : Byte) (m : CvMessage), s.Ready →
    (s.progMode = false → exec (.cvWrite opc m) s = .next s) ∧
    (s.progMode = true → s.params.WF → framesHeld s < s.params.txqCap →
      (s.params.nCv ≤ m.lncvNumber.toNat →
        exec (.cvWrite opc m) s =
          .next { s with txq := s.txq ++ [ackFrame s.params opc s.params.stOutOfRange] }) ∧
      (m.lncvNumber = 1 →
        exec (.cvWrite opc m) s =
          .next { s with txq := s.txq ++ [ackFrame s.params opc s.params.stReadOnly] }) ∧
      (m.lncvNumber = 0 → 0x3FF ≤ m.lncvValue.toNat →
        exec (.cvWrite opc m) s =
          .next { s with txq := s.txq ++ [ackFrame s.params opc s.params.stInvalidValue] }) ∧
      (m.lncvNumber = 2 → m.lncvValue = 0 ∨ 0x10 ≤ m.lncvValue.toNat →
        exec (.cvWrite opc m) s =
          .next { s with txq := s.txq ++ [ackFrame s.params opc s.params.stInvalidValue] }) ∧
      (m.lncvNumber = 0 ∧ m.lncvValue.toNat < 0x3FF ∨
          m.lncvNumber = 2 ∧ m.lncvValue ≠ 0 ∧ m.lncvValue.toNat < 0x10 →
        m.lncvValue = cvLookup s m.lncvNumber.toNat →
        exec (.cvWrite opc m) s =
          .next { s with txq := s.txq ++ [ackFrame s.params opc s.params.stOk] }))

/-- 43_cv_handler.md R275 with R273 and R276: the persisted writes of slots 0 and 2: every slot's new
value, Config, the page commits (20_memory.md R68), the hook and the long-ack. Values of a committed
page past the CV space are what the store holds (log entry 14). -/
def Obligations.PersistedWritesOfConfigSlots : Prop :=
  ∀ (s : State) (opc : Byte) (m : CvMessage), s.Ready → s.params.WF → s.progMode = true →
    framesHeld s < s.params.txqCap → Memory.wf unlistedSlot s.store →
    m.lncvValue ≠ cvLookup s m.lncvNumber.toNat →
    (m.lncvNumber = 0 → m.lncvValue.toNat < 0x3FF → ∃ t page₀ page₁,
      exec (.cvWrite opc m) s = .next t ∧
      t = { s with
        store := t.store, address := BitVec.ofNat 10 m.lncvValue.toNat
        txq := s.txq ++ [ackFrame s.params opc s.params.stOk]
        out := s.out ++ [.storeCommit 0 page₀, .storeCommit (1 / s.params.pageSize) page₁,
          .hookValueWritten 0 m.lncvValue] } ∧
      (∀ k, storeRead t k =
        if k = 0 then m.lncvValue else if k = 1 then s.params.deviceClass else storeRead s k) ∧
      page₀ = (List.range s.params.pageSize).map
        (fun k => if k = 0 then m.lncvValue else storeRead s k) ∧
      page₁ = (List.range s.params.pageSize).map
        (fun k => storeRead t (1 / s.params.pageSize * s.params.pageSize + k))) ∧
    (m.lncvNumber = 2 → 0 < m.lncvValue.toNat → m.lncvValue.toNat < 0x10 → ∃ t page,
      exec (.cvWrite opc m) s = .next t ∧
      t = { s with
        store := t.store, priority := BitVec.ofNat 4 m.lncvValue.toNat
        txq := s.txq ++ [ackFrame s.params opc s.params.stOk]
        out := s.out ++ [.storeCommit (2 / s.params.pageSize) page,
          .hookValueWritten 2 m.lncvValue] } ∧
      (∀ k, storeRead t k = if k = 2 then m.lncvValue else storeRead s k) ∧
      page = (List.range s.params.pageSize).map
        (fun k => storeRead t (2 / s.params.pageSize * s.params.pageSize + k)))

/-- 43_cv_handler.md R274 to R276: a write of a device-specific slot asks the hook once, records its
answer, persists only on ok with a differing value, and answers with the hook's code. The hook's
answer is the free value `Config.authAnswer s.draws` (log entry 9); the clauses hold for every
answer. Values of a committed page past the CV space are what the store holds (log entry 14). -/
def Obligations.HookDecidesDeviceSpecificWrites : Prop :=
  ∀ (s : State) (opc : Byte) (m : CvMessage) (n : Nat), s.Ready → s.params.WF →
    s.progMode = true → framesHeld s < s.params.txqCap → Memory.wf unlistedSlot s.store →
    n = m.lncvNumber.toNat → 3 ≤ n → n < s.params.nCv →
    exec (.cvWrite opc m) s = cvWriteWith (Config.authAnswer s.draws) opc m s ∧
    ∀ st : Status,
      (st ≠ .ok ∨ m.lncvValue = storeRead s n →
        cvWriteWith st opc m s = .next { s with
          draws := s.draws + 1
          out := s.out ++ [.hookAuth n m.lncvValue (s.params.code st)]
          txq := s.txq ++ [ackFrame s.params opc (s.params.code st)] }) ∧
      (st = .ok → m.lncvValue ≠ storeRead s n → ∃ t page,
        cvWriteWith st opc m s = .next t ∧
        t = { s with
          draws := s.draws + 1, store := t.store
          out := s.out ++ [.hookAuth n m.lncvValue s.params.stOk,
            .storeCommit (n / s.params.pageSize) page, .hookValueWritten n m.lncvValue]
          txq := s.txq ++ [ackFrame s.params opc s.params.stOk] } ∧
        (∀ k, storeRead t k = if k = n then m.lncvValue else storeRead s k) ∧
        page = (List.range s.params.pageSize).map
          (fun k => storeRead t (n / s.params.pageSize * s.params.pageSize + k)))

/-- 70_reset_and_hazards.md R385, 43_cv_handler.md R270: with no room in the queue an answered request
faults and nothing of it is kept. -/
def Obligations.AnswersNeedQueueRoom : Prop :=
  ∀ (s : State) (opc : Byte) (m : CvMessage), s.Ready → s.params.WF → s.params.txqCap ≤ framesHeld s →
    (s.progMode = true → exec (.cvWrite opc m) s = .fault .txqOverflow) ∧
    (Instr.wf s.params (.cvRead opc m) = true → exec (.cvRead opc m) s = .fault .txqOverflow) ∧
    (Instr.wf s.params (.cvProgOn opc m) = true → progOnAccepted m s = true →
      exec (.cvProgOn opc m) s = .fault .txqOverflow)

/-- 43_cv_handler.md R280, R281: the slave-data messages. -/
def Obligations.SlaveDataIsForwardedToHooks : Prop :=
  ∀ (s : State) (opc b : Byte) (rest : List Byte), s.Ready →
    (b = s.params.slaveSentinel →
      exec (.cvSlaveWrite opc (b :: rest)) s = .next { s with out := s.out ++ [.hookSeqStart rest] } ∧
      exec (.cvSlaveRead opc (b :: rest)) s = .next { s with out := s.out ++ [.hookSeqFinal rest] }) ∧
    (b ≠ s.params.slaveSentinel →
      exec (.cvSlaveWrite opc (b :: rest)) s = .next s ∧
      exec (.cvSlaveRead opc (b :: rest)) s = .next s)

/-- 41_rx_framer.md R187, R190 with 43_cv_handler.md R263, R280, R281: the CV messages of 30_encoding.md
R105 on the wire, the CV unit being the first handler of their key and `ext` the external ones after
it: a request runs, a slave-data frame reaches its hook, a frame the CV unit reads no request in has
no effect there; then the external handlers get their events and the frame is consumed. A wire
instruction run by itself takes its own bytes, whatever the ring buffer holds: the model's choice
(log entries 11, 21). -/
def Obligations.CvFramesRunTheirRequest : Prop :=
  ∀ (s : State) (i : Instr) (f : Frame) (opc : Byte) (ext : List RegEntry) (es : List Event),
    s.Ready → framer i = true → i ≠ .step → i.wf s.params = true → f = encode s.params i →
    f.head? = some opc → s.reg.filter (fun e => e.key = key opc) = ⟨key opc, 0⟩ :: ext →
    (∀ e ∈ ext, e.hid ≠ 0) → es = ext.map (fun e => .dispatch e.hid opc (f.drop (hdr opc))) →
    (∀ r t, decodeCv s.params opc (f.drop (hdr opc)) = some r →
      exec r (s.advance f.length) = .next t →
      exec i s = .next { t with out := t.out ++ es, result := .step .handled }) ∧
    (∀ b rest, i = .opcWrSlData b (s.params.slaveSentinel :: rest) → s.params.WF →
      exec i s = .next { s with
        rd := (s.rd + f.length) % s.params.cap, out := s.out ++ [.hookSeqStart rest] ++ es
        result := .step .handled }) ∧
    (∀ b rest, i = .opcSlRdData b (s.params.slaveSentinel :: rest) → s.params.WF →
      exec i s = .next { s with
        rd := (s.rd + f.length) % s.params.cap, out := s.out ++ [.hookSeqFinal rest] ++ es
        result := .step .handled }) ∧
    (decodeCv s.params opc (f.drop (hdr opc)) = none →
      exec i s = .next { s with
        rd := (s.rd + f.length) % s.params.cap, out := s.out ++ es, result := .step .handled })

/-- 43_cv_handler.md R287: a valid read of slot 0 from a recognized source, as `OPC_PEER_XFER` or
`OPC_IMM_PACKET`, on a device whose marker does not match queues a response carrying the compiled-in
default address; external handlers `ext` of the key get their events after it. A wire instruction
run by itself takes its own bytes, whatever the ring buffer holds: the model's choice (log entries
11, 21). -/
def Obligations.FactoryFreshReadAnswersDefaultAddress : Prop :=
  ∀ (s : State) (i : Instr) (body : List Byte) (opc : Byte) (ext : List RegEntry),
    s.Ready → s.params.WF →
    (i = .opcPeerXfer 0x0F body ∧ opc = opcPeerXfer ∨
      i = .opcImmPacket 0x0F body ∧ opc = s.params.opcImmPacket) →
    i.wf s.params = true → body.getD 0 0 ∈ s.params.recognizedSources →
    (CvMessage.unpack body).lncvNumber = 0 →
    cvRequest s.params opc (CvMessage.unpack body) = .cvRead opc (CvMessage.unpack body) →
    s.reg.filter (fun e => e.key = key opc) = ⟨key opc, 0⟩ :: ext → (∀ e ∈ ext, e.hid ≠ 0) →
    framesHeld s < s.params.txqCap → storeRead s 1 ≠ s.params.deviceClass →
    ∃ answer, exec i s = .next { s with
        rd := (s.rd + 15) % s.params.cap
        txq := s.txq ++ [opcPeerXfer :: 0x0F :: answer]
        out := s.out ++ ext.map (fun e => .dispatch e.hid opc body)
        result := .step .handled } ∧
      (CvMessage.unpack answer).lncvNumber = 0 ∧
      (CvMessage.unpack answer).lncvValue = s.params.defaultAddress

/-- 43_cv_handler.md R285: in programming mode a write then a read returns the written value, for slot 0
below 0x3FF, slot 2 on a configured device, and slots 3 and up when the hook answers ok (else the
value that was there); outside programming mode the store stays. -/
def Obligations.CvRoundTrip : Prop :=
  ∀ (s t : State) (opc : Byte) (m : CvMessage), s.Ready → s.params.WF → Memory.wf unlistedSlot s.store →
    m.lncvNumber.toNat < s.params.nCv → exec (.cvWrite opc m) s = .next t →
    (s.progMode = true →
      (m.lncvNumber = 0 ∧ m.lncvValue.toNat < 0x3FF) ∨
      (m.lncvNumber = 2 ∧ 0 < m.lncvValue.toNat ∧ m.lncvValue.toNat < 0x10 ∧
        storeRead s 1 = s.params.deviceClass) ∨
      3 ≤ m.lncvNumber.toNat →
      ∀ (opc' : Byte) (m' : CvMessage), m'.lncvNumber = m.lncvNumber →
        Instr.wf s.params (.cvRead opc' m') = true → framesHeld t < t.params.txqCap →
        ∃ body, exec (.cvRead opc' m') t =
            .next { t with txq := t.txq ++ [opcPeerXfer :: 0x0F :: body] } ∧
          (CvMessage.unpack body).lncvNumber = m.lncvNumber ∧
          (CvMessage.unpack body).lncvValue =
            if 3 ≤ m.lncvNumber.toNat ∧ Config.authAnswer s.draws ≠ .ok then
              storeRead s m.lncvNumber.toNat
            else m.lncvValue) ∧
    (s.progMode = false → t.store = s.store)

/-- 70_reset_and_hazards.md R382 (with 90_conflicts.md C9): on an unconfigured device a persisted write of
slot 2 changes Config.priority, but the lookup and the next reset still answer the default. -/
def Obligations.UnconfiguredPriorityIsNotKept : Prop :=
  ∀ (s t : State) (opc : Byte) (m : CvMessage), s.Ready → s.params.WF → s.progMode = true →
    Memory.wf unlistedSlot s.store → storeRead s 1 ≠ s.params.deviceClass → m.lncvNumber = 2 →
    0 < m.lncvValue.toNat → m.lncvValue.toNat < 0x10 → m.lncvValue ≠ s.params.defaultPriority →
    exec (.cvWrite opc m) s = .next t →
    storeRead t 2 = m.lncvValue ∧ t.priority.toNat = m.lncvValue.toNat ∧
    cvLookup t 2 = s.params.defaultPriority ∧
    (t.storeReady = true → ∃ u, exec .reset t = .next u ∧
      u.priority = s.params.defaultPriority.setWidth 4)

/-- 60_exceptions.md R339, 43_cv_handler.md R271, 10_state.md R22 to R24, R38: the store is written only
by the CV unit (inside the framer or as a write request), and not at all with programming mode off,
in which none but `RESET` changes the address or the priority either; Config is written only by the
CV unit and at reset, `is_master` only at reset, the parameters never. -/
def Obligations.StoreAndConfigHaveTheirWriters : Prop :=
  ∀ (i : Instr) (s t : State), exec i s = .next t →
    t.params = s.params ∧
    (t.isMaster ≠ s.isMaster → i = .reset) ∧
    (t.address ≠ s.address ∨ t.priority ≠ s.priority →
      i = .reset ∨ framer i = true ∨ ∃ opc m, i = .cvWrite opc m) ∧
    (t.store ≠ s.store → framer i = true ∨ ∃ opc m, i = .cvWrite opc m) ∧
    (s.progMode = false →
      t.store = s.store ∧ (i ≠ .reset → t.address = s.address ∧ t.priority = s.priority))

/-! ## Invariants -/

/-- 20_memory.md R88 with 10_state.md R22, R24: the store in canonical form, Config.address the copy of
the lookup value of slot 0 and `is_master` the parameter: every step keeps the three together. -/
def Obligations.EveryStepKeepsConfigInStep : Prop :=
  ∀ s t : State, Memory.wf unlistedSlot s.store → s.ConfigTracksStore → step s = .next t →
    Memory.wf unlistedSlot t.store ∧ t.ConfigTracksStore

/-- The invariant of the CORE (`State.Inv`: 10_state.md R31 to R34, R40, 20_memory.md R60,
40_arbitration.md R138, 42_tx_queue.md R221, R233, 43_cv_handler.md R260) is kept by every step. -/
def Obligations.EveryStepKeepsTheInvariant : Prop :=
  ∀ s t : State, s.Inv → step s = .next t → t.Inv

/-- The invariants hold right after reset, and `State.reset` is what `RESET` makes of power-up on the
factory store under the reference profile, which are the model's choice (log entries 2, 3, 5). -/
def Obligations.ResetStateMeetsTheInvariants : Prop :=
  State.reset.Inv ∧ State.reset.ConfigTracksStore ∧ State.reset.Ready ∧
  (State.powerUp Params.reference true []).map (exec .reset) = some (.next State.reset)
end

