-- ==== Sys2Proof/Laws/Encoding.lean ====
section
/-! SUPPORT. The checksum, the lengths, the CvMessage layout and the decoders. -/

namespace Sys2Proof

/-! ## Checksum -/

@[simp] theorem xorAll_append (xs ys : List Byte) : xorAll (xs ++ ys) = xorAll xs ^^^ xorAll ys := by
  induction xs with
  | nil => simp [xorAll]
  | cons x xs ih => simp [xorAll, ih, BitVec.xor_assoc]

theorem xorAll_withChecksum (bs : List Byte) : xorAll (withChecksum bs) = chkTarget := by
  simp [withChecksum, checksum, xorAll, ← BitVec.xor_assoc, BitVec.xor_comm]

@[simp] theorem length_withChecksum (bs : List Byte) : (withChecksum bs).length = bs.length + 1 := by
  simp [withChecksum]

/-- One byte changed changes the XOR by the change. -/
theorem xorAll_set (f : List Byte) (k : Nat) (hk : k < f.length) (d : Byte) :
    xorAll (f.set k (f[k] ^^^ d)) = xorAll f ^^^ d := by
  induction f generalizing k with
  | nil => simp at hk
  | cons b f ih =>
    cases k with
    | zero =>
      simp only [List.set_cons_zero, List.getElem_cons_zero, xorAll]
      rw [BitVec.xor_assoc, BitVec.xor_comm d, BitVec.xor_assoc]
    | succ k =>
      simp only [List.length_cons, Nat.add_lt_add_iff_right] at hk
      simp only [List.set_cons_succ, List.getElem_cons_succ, xorAll, ih k hk, BitVec.xor_assoc]

/-- Bit 7 of an XOR of bytes with bit 7 clear is clear. -/
theorem xorAll_msb {bs : List Byte} (h : ∀ b ∈ bs, b.msb = false) : (xorAll bs).msb = false := by
  induction bs with
  | nil => rfl
  | cons b bs ih =>
    simp only [xorAll, BitVec.msb_xor, h b (by simp), ih fun c hc => h c (by simp [hc])]
    rfl

/-! ## Frames -/

/-- The bits of an opcode: its key below its class. -/
theorem getLsbD_mkOpc (c : BitVec 3) (k : BitVec 5) (i : Nat) :
    (mkOpc c k).getLsbD i = if i < 5 then k.getLsbD i else c.getLsbD (i - 5) :=
  BitVec.getLsbD_append

@[simp] theorem frameClass_mkOpc (c : BitVec 3) (k : BitVec 5) : frameClass (mkOpc c k) = c := by
  apply BitVec.eq_of_getLsbD_eq
  intro i hi
  rw [frameClass, BitVec.getLsbD_extractLsb', getLsbD_mkOpc]
  simp [hi]

@[simp] theorem key_mkOpc (c : BitVec 3) (k : BitVec 5) : key (mkOpc c k) = k := by
  apply BitVec.eq_of_getLsbD_eq
  intro i hi
  rw [key, BitVec.getLsbD_setWidth, getLsbD_mkOpc]
  simp [hi]

/-- Bit 7 of an opcode is the top bit of its class. -/
theorem msb_frameClass (b : Byte) : b.msb = (frameClass b).msb := by
  simp [frameClass, BitVec.msb, BitVec.getMsbD]

@[simp] theorem msb_mkOpc (c : BitVec 3) (k : BitVec 5) : (mkOpc c k).msb = c.msb := by
  rw [msb_frameClass, frameClass_mkOpc]

theorem msb_of_class {b : Byte} {c : BitVec 3} (h : frameClass b = c) : b.msb = c.msb := by
  rw [msb_frameClass, h]

/-- An opcode is its class and its key. -/
theorem mkOpc_class_key (b : Byte) : mkOpc (frameClass b) (key b) = b := by
  apply BitVec.eq_of_getLsbD_eq
  intro i hi
  rw [getLsbD_mkOpc, frameClass, key, BitVec.getLsbD_extractLsb', BitVec.getLsbD_setWidth]
  by_cases h : i < 5
  · simp [h]
  · simp [h, show i - 5 < 3 by omega, show 5 + (i - 5) = i by omega]

/-- A byte with bit 7 set has one of the four classes. -/
theorem class_of_msb {b : Byte} (h : b.msb = true) :
    frameClass b = 4 ∨ frameClass b = 5 ∨ frameClass b = 6 ∨ frameClass b = 7 := by
  rw [msb_frameClass] at h
  revert h
  generalize frameClass b = c
  revert c
  decide

/-- Outside the variable class the length does not depend on the second byte. -/
theorem frameLen_fixed {opc : Byte} (hm : opc.msb = true) (hc : frameClass opc ≠ 7) (x y : Byte) :
    frameLen opc x = frameLen opc y := by
  rcases class_of_msb hm with h | h | h | h
  · simp [frameLen, h]
  · simp [frameLen, h]
  · simp [frameLen, h]
  · exact absurd h hc

/-- In the variable class the second byte is the length. -/
theorem frameLen_variable {opc : Byte} (hc : frameClass opc = 7) (x : Byte) :
    frameLen opc x = x.toNat := by simp [frameLen, hc]

theorem hdr_variable {opc : Byte} (hc : frameClass opc = 7) : hdr opc = 2 := if_pos hc

theorem hdr_fixed {opc : Byte} (hc : frameClass opc ≠ 7) : hdr opc = 1 := if_neg hc

/-- What `validFrame` says. -/
theorem validFrame_cons {b0 b1 : Byte} {tl : List Byte} :
    validFrame (b0 :: b1 :: tl) = true ↔
      b0.msb = true ∧ tl.length + 2 = frameLen b0 b1 ∧ hdr b0 + 1 ≤ tl.length + 2 ∧
        (∀ b ∈ (b1 :: tl).dropLast, b.msb = false) ∧ xorAll (b0 :: b1 :: tl) = chkTarget := by
  simp [validFrame, and_assoc]

/-- A valid frame has at least two bytes. -/
theorem validFrame_shape {f : Frame} (h : validFrame f = true) : ∃ b0 b1 tl, f = b0 :: b1 :: tl := by
  match f, h with
  | b0 :: b1 :: tl, _ => exact ⟨b0, b1, tl, rfl⟩

/-- What `enqueueOk` says. -/
theorem enqueueOk_iff {opc : Byte} {d : List Byte} :
    enqueueOk opc d = true ↔ opc.msb = true ∧ (∀ b ∈ d, b.msb = false) ∧
      (frameClass opc = 7 → ∃ l tl, d = l :: tl ∧ l.toNat = d.length + 2) ∧
      (frameClass opc ≠ 7 → d.length + 2 = frameLen opc 0) := by
  unfold enqueueOk
  by_cases hc : frameClass opc = 7#3
  · cases d <;> simp [hc, and_assoc]
  · simp [hc, and_assoc]

/-- A frame that can be framed is valid once its checksum stands behind it. -/
theorem validFrame_of_enqueueOk {opc : Byte} {d : List Byte} (h : enqueueOk opc d = true) :
    validFrame (withChecksum (opc :: d)) = true := by
  obtain ⟨hm, hd, hv, hf⟩ := enqueueOk_iff.1 h
  have hx := xorAll_withChecksum (opc :: d)
  by_cases hc : frameClass opc = 7
  · obtain ⟨l, tl, rfl, hl⟩ := hv hc
    simp only [withChecksum, List.cons_append] at hx ⊢
    refine validFrame_cons.2 ⟨hm, ?_, ?_, ?_, hx⟩
    · simpa [frameLen_variable hc] using hl.symm
    · simp [hdr_variable hc]
    · rw [← List.cons_append, List.dropLast_concat]; exact hd
  · cases d with
    | nil =>
      refine validFrame_cons.2 ⟨hm, ?_, ?_, by simp, hx⟩
      · rw [frameLen_fixed hm hc _ 0, ← hf hc]
      · simp [hdr_fixed hc]
    | cons b tl =>
      simp only [withChecksum, List.cons_append] at hx ⊢
      refine validFrame_cons.2 ⟨hm, ?_, ?_, ?_, hx⟩
      · rw [frameLen_fixed hm hc _ 0, ← hf hc]; simp
      · simp [hdr_fixed hc]
      · rw [← List.cons_append, List.dropLast_concat]; exact hd

/-- The CV opcodes of well-formed parameters are of the variable class. -/
theorem Params.WF.classes {p : Params} (h : p.WF) :
    frameClass p.opcImmPacket = 7 ∧ frameClass p.opcWrSlData = 7 ∧ frameClass p.opcSlRdData = 7 ∧
      frameClass p.opcLongAck = 5 := by
  obtain ⟨-, -, -, -, -, -, -, hc, -, hl, -⟩ := h
  exact ⟨hc _ (by simp [Params.cvOpcodes]), hc _ (by simp [Params.cvOpcodes]),
    hc _ (by simp [Params.cvOpcodes]), hl⟩

/-- The CV opcodes of well-formed parameters have distinct keys. -/
theorem Params.WF.keys {p : Params} (h : p.WF) :
    key p.opcImmPacket ≠ key opcPeerXfer ∧ key p.opcWrSlData ≠ key opcPeerXfer ∧
      key p.opcSlRdData ≠ key opcPeerXfer ∧ key p.opcWrSlData ≠ key p.opcImmPacket ∧
      key p.opcSlRdData ≠ key p.opcImmPacket ∧ key p.opcSlRdData ≠ key p.opcWrSlData := by
  obtain ⟨-, -, -, -, -, -, -, -, hk, -⟩ := h
  simp only [Params.cvOpcodes, List.map_cons, List.map_nil, List.nodup_cons, List.mem_cons,
    List.not_mem_nil, or_false, not_or, List.nodup_nil, and_true] at hk
  obtain ⟨⟨h1, h2, h3⟩, ⟨h4, h5⟩, h6, -⟩ := hk
  exact ⟨Ne.symm h1, Ne.symm h2, Ne.symm h3, Ne.symm h4, Ne.symm h5, Ne.symm h6⟩

/-- The CV opcodes of well-formed parameters are distinct. -/
theorem Params.WF.opcodes {p : Params} (h : p.WF) :
    p.opcImmPacket ≠ opcPeerXfer ∧ p.opcWrSlData ≠ opcPeerXfer ∧ p.opcSlRdData ≠ opcPeerXfer ∧
      p.opcWrSlData ≠ p.opcImmPacket ∧ p.opcSlRdData ≠ p.opcImmPacket ∧
      p.opcSlRdData ≠ p.opcWrSlData := by
  obtain ⟨h1, h2, h3, h4, h5, h6⟩ := h.keys
  exact ⟨fun e => h1 (by rw [e]), fun e => h2 (by rw [e]), fun e => h3 (by rw [e]),
    fun e => h4 (by rw [e]), fun e => h5 (by rw [e]), fun e => h6 (by rw [e])⟩

/-- The status codes of well-formed parameters have bit 7 clear. -/
theorem Params.WF.code_msb {p : Params} (h : p.WF) (st : Status) : (p.code st).msb = false := by
  obtain ⟨-, -, -, -, -, -, -, -, -, -, -, -, -, -, -, hc, -⟩ := h
  cases st <;> exact hc _ (by simp [Params.code])

theorem Params.WF.respSrc_msb {p : Params} (h : p.WF) : p.respSrc.msb = false := by
  obtain ⟨-, -, -, -, -, -, -, -, -, -, -, -, -, -, -, -, -, -, h, -⟩ := h
  exact h

/-- What `registerOk` says. -/
theorem registerOk_iff {k hid : Byte} : registerOk k hid = true ↔ k.toNat < 32 ∧ hid ≠ 0 := by
  have h5 : k.extractLsb' 5 3 = 0 ↔ k.toNat < 32 := by
    rw [← BitVec.toNat_inj]
    simp [BitVec.extractLsb'_toNat, Nat.shiftRight_eq_div_pow]
    omega
  simp only [registerOk, Bool.and_eq_true, beq_iff_eq, bne_iff_ne, h5]

/-! ## The CvMessage layout -/

theorem getLsbD_7 (b : Byte) : b.getLsbD 7 = b.msb := by simp [BitVec.msb, BitVec.getMsbD]

theorem clearMsb_msb (b : Byte) : (clearMsb b).msb = false := by
  have : (127#8).msb = false := by decide
  simp [clearMsb, BitVec.msb_and, this]

/-- A 16-bit field is put together again from its two bytes. -/
theorem mkWord_lo_hi (w : Word) : mkWord (loByte w) (hiByte w) = w := by
  apply BitVec.eq_of_getLsbD_eq
  intro i hi
  simp only [mkWord, loByte, hiByte, BitVec.getLsbD_or, BitVec.getLsbD_setWidth, BitVec.getLsbD_extractLsb', BitVec.getLsbD_shiftLeft]
  by_cases h : i < 8 
  · simp [h,hi]
  · simp [h,hi, show 8 + (i - 8) = i by omega, show i - 8 < 8 by omega]; intro; omega

theorem lo_mkWord (a b : Byte) : loByte (mkWord a b) = a := by
  apply BitVec.eq_of_getLsbD_eq
  intro i hi
  simp [mkWord, loByte, hi]
  omega

theorem hi_mkWord (a b : Byte) : hiByte (mkWord a b) = b := by
  apply BitVec.eq_of_getLsbD_eq
  intro i hi
  simp [mkWord, hiByte, hi, show 8 + i < 16 by omega]

/-- Bit 7 taken from the side channel restores a value byte. -/
theorem or_restore (d : Byte) : clearMsb d ||| (if d.msb then 0x80 else 0) = d := by
  apply BitVec.eq_of_getLsbD_eq
  intro i hi
  have h7 : d.msb = d.getLsbD 7 := by simp [BitVec.msb, BitVec.getMsbD]
  simp only [clearMsb, BitVec.getLsbD_or, BitVec.getLsbD_and, h7]
  cases h : d.getLsbD 7 <;> interval_cases i <;> simp_all

theorem clearMsb_or (d : Byte) (c : Bool) (h : d.msb = false) : clearMsb (d ||| (if c then 0x80 else 0)) = d ∧ (d ||| (if c then 0x80 else 0)).msb = c := by
  have h7 : d.msb = d.getLsbD 7 := by simp [BitVec.msb, BitVec.getMsbD]
  refine ⟨?_, by cases c <;> simp [h]; decide⟩
  apply BitVec.eq_of_getLsbD_eq
  intro i hi
  rw [h7] at h
  cases c <;> interval_cases i <;> simp_all [clearMsb]

/-- Bit `i` of the side channel is bit 7 of byte `i`. -/
theorem sideChannel_bits (ds : List Byte) (h : ds.length ≤ 8) (i : Nat) (hi : i < 8) :
    (sideChannel ds).getLsbD i = (ds.getD i 0).msb := by
  induction ds generalizing i with
  | nil => simp [sideChannel]
  | cons d ds ih =>
    simp only [List.length_cons] at h
    cases i with
    | zero => cases hd : d.msb <;> simp [sideChannel, hd]
    | succ i =>
      have := ih (by omega) i (by omega)
      rw [sideChannel, BitVec.getLsbD_or, BitVec.getLsbD_shiftLeft]
      cases d.msb <;> simpa [hi] using this

theorem sideChannel_msb (ds : List Byte) (h : ds.length ≤ 7) : (sideChannel ds).msb = false := by
  rw [← getLsbD_7, sideChannel_bits ds (by omega) 7 (by omega), List.getD_eq_default _ _ (by omega)]; rfl

theorem valueByte_pack (m : CvMessage) (chk : List Byte) (i : Nat) (hi : i < 7) :
    valueByte (m.pack ++ chk) i = m.valueBytes.getD i 0 := by
  have h4 : (m.pack ++ chk).getD 4 0 = sideChannel m.valueBytes := rfl
  have hv : (m.pack ++ chk).getD (5 + i) 0 = clearMsb (m.valueBytes.getD i 0) := by
    interval_cases i <;> rfl
  rw [valueByte, h4, hv, sideChannel_bits _ (by simp [CvMessage.valueBytes]) i (by omega), or_restore]

/-- Unpacking undoes packing, whatever follows the twelve bytes. -/
theorem unpack_pack (m : CvMessage) (chk : List Byte) :
    CvMessage.unpack (m.pack ++ chk) = { m with msbBits := sideChannel m.valueBytes } := by
  simp only [CvMessage.unpack, valueByte_pack m chk _ (by decide : 0 < 7), valueByte_pack m chk _ (by decide : 1 < 7), valueByte_pack m chk _ (by decide : 2 < 7), valueByte_pack m chk _ (by decide : 3 < 7),valueByte_pack m chk _ (by decide : 4 < 7),valueByte_pack m chk _ (by decide : 5 < 7),valueByte_pack m chk _ (by decide : 6 < 7)]
  simp [CvMessage.valueBytes, CvMessage.pack, mkWord_lo_hi]

end Sys2Proof
end

