-- ==== Sys2Proof/Laws/Memory.lean ====
section
/-! SUPPORT. What a read sees of a write, and that a write keeps the canonical form. -/

namespace Sys2Proof.Machine

variable {w : Nat} {d : BitVec w}

@[simp] theorem Memory.read_nil (a : Nat) : Memory.read d [] a = d := rfl

theorem Memory.read_cons (k : Nat) (x : BitVec w) (m : Memory w) (a : Nat) :
    Memory.read d ((k, x) :: m) a = if a = k then x else Memory.read d m a := rfl

/-- Below every listed address a canonical memory reads as unlisted. -/
theorem Memory.read_below {m : Memory w} {a : Nat} (h : ∀ c ∈ m, a < c.1) :
    Memory.read d m a = d := by
  induction m with
  | nil => rfl
  | cons c m ih =>
    have hc : a < c.1 := h c (by simp)
    rw [show (c :: m) = (c.1, c.2) :: m from rfl, Memory.read_cons, if_neg (by omega)]
    exact ih fun c' hc' => h c' (by simp [hc'])

/-- What every address reads after a write. -/
theorem Memory.read_write {m : Memory w} (hm : m.Pairwise (fun x y => x.1 < y.1)) (a b : Nat)
    (v : BitVec w) :
    Memory.read d (Memory.write d m a v) b = if b = a then v else Memory.read d m b := by
  induction m with
  | nil => by_cases hv : v = d <;> by_cases hb : b = a <;> simp [Memory.write, Memory.read, hv, hb]
  | cons c m ih =>
    obtain ⟨k, x⟩ := c
    obtain ⟨hk, hm⟩ := List.pairwise_cons.1 hm
    have hbelow : ∀ e, e ≤ k → Memory.read d m e = d := fun e he =>
      Memory.read_below fun c hc => by have := hk c hc; simp at this; omega
    simp only [Memory.write]
    split
    · split
      · by_cases hb : b = a
        · subst hb; simp [Memory.read_cons, hbelow b (by omega), *]; omega
        · simp [hb]
      · by_cases hb : b = a <;> simp [Memory.read_cons, hb]
    · split
      · subst a
        split
        · by_cases hb : b = k
          · subst hb; simp [hbelow b (by omega), *]
          · simp [Memory.read_cons, hb]
        · by_cases hb : b = k <;> simp [Memory.read_cons, hb]
      · rw [Memory.read_cons, Memory.read_cons, ih hm]
        by_cases hb : b = k
        · subst hb; simp; omega
        · simp [hb]

/-- The addresses a write can list. -/
theorem Memory.mem_write {m : Memory w} {a : Nat} {v : BitVec w} {c : Nat × BitVec w}
    (h : c ∈ Memory.write d m a v) : c ∈ m ∨ (c = (a, v) ∧ v ≠ d) := by
  induction m with
  | nil =>
    simp only [Memory.write] at h
    split at h <;> simp_all
  | cons e m ih =>
    obtain ⟨k, x⟩ := e
    simp only [Memory.write] at h
    split at h
    · split at h <;> simp_all
      rcases h with h | h <;> simp [h]
    · split at h
      · split at h <;> simp_all
        · rcases h with h | h <;> simp [h]
      · rcases List.mem_cons.1 h with h | h
        · simp [h]
        · rcases ih h with h | h <;> simp [h]

/-- A write keeps the canonical form. -/
theorem Memory.write_wf {m : Memory w} (hm : Memory.wf d m) (a : Nat) (v : BitVec w) :
    Memory.wf d (Memory.write d m a v) := by
  refine ⟨?_, fun c hc => ?_⟩
  · obtain ⟨hm, -⟩ := hm
    induction m with
    | nil => simp only [Memory.write]; split <;> simp
    | cons e m ih =>
      obtain ⟨k, x⟩ := e
      obtain ⟨hk, hm'⟩ := List.pairwise_cons.1 hm
      simp only [Memory.write]
      split
      · split
        · exact hm
        · refine List.pairwise_cons.2 ⟨fun c hc => ?_, hm⟩
          rcases List.mem_cons.1 hc with rfl | hc
          · assumption
          · have := hk c hc; simp at this ⊢; omega
      · split
        · subst a; split
          · exact hm'
          · exact List.pairwise_cons.2 ⟨hk, hm'⟩
        · refine List.pairwise_cons.2 ⟨fun c hc => ?_, ih hm'⟩
          rcases Memory.mem_write hc with hc | ⟨rfl, -⟩
          · exact hk c hc
          · simp; omega
  · rcases Memory.mem_write hc with hc | ⟨rfl, hv⟩
    · exact hm.2 c hc
    · exact hv

/-- A write below a bound lists no address at or above it. -/
theorem Memory.write_bound {m : Memory w} {n : Nat} (hm : ∀ c ∈ m, c.1 < n) {a : Nat} (ha : a < n)
    (v : BitVec w) : ∀ c ∈ Memory.write d m a v, c.1 < n := by
  intro c hc
  rcases Memory.mem_write hc with hc | ⟨rfl, -⟩
  · exact hm c hc
  · exact ha

/-- Filling the ring buffer keeps the canonical form. -/
theorem fillCells_wf (cap : Nat) (bs : List Byte) {m : Memory 8} (hm : Memory.wf unlistedCell m)
    (a : Nat) : Memory.wf unlistedCell (fillCells cap bs a m) := by
  induction bs generalizing a m with
  | nil => exact hm
  | cons b bs ih => exact ih (Memory.write_wf hm _ _) _

end Sys2Proof.Machine
end

