-- ==== Sys2Proof/Laws/State.lean ====
section
/-! SUPPORT. One lemma per field per named update of the state, each true by unfolding the update. -/

namespace Sys2Proof.Machine

variable (s : State)

/-! ### `State.emit` -/

@[simp] theorem State.emit_params (e : Event) : (s.emit e).params = s.params := rfl
@[simp] theorem State.emit_address (e : Event) : (s.emit e).address = s.address := rfl
@[simp] theorem State.emit_priority (e : Event) : (s.emit e).priority = s.priority := rfl
@[simp] theorem State.emit_isMaster (e : Event) : (s.emit e).isMaster = s.isMaster := rfl
@[simp] theorem State.emit_busy (e : Event) : (s.emit e).busy = s.busy := rfl
@[simp] theorem State.emit_transmitting (e : Event) : (s.emit e).transmitting = s.transmitting := rfl
@[simp] theorem State.emit_collisionDetected (e : Event) : (s.emit e).collisionDetected = s.collisionDetected := rfl
@[simp] theorem State.emit_arbState (e : Event) : (s.emit e).arbState = s.arbState := rfl
@[simp] theorem State.emit_timer (e : Event) : (s.emit e).timer = s.timer := rfl
@[simp] theorem State.emit_txEn (e : Event) : (s.emit e).txEn = s.txEn := rfl
@[simp] theorem State.emit_rxEn (e : Event) : (s.emit e).rxEn = s.rxEn := rfl
@[simp] theorem State.emit_forceLine (e : Event) : (s.emit e).forceLine = s.forceLine := rfl
@[simp] theorem State.emit_wr (e : Event) : (s.emit e).wr = s.wr := rfl
@[simp] theorem State.emit_rd (e : Event) : (s.emit e).rd = s.rd := rfl
@[simp] theorem State.emit_rb (e : Event) : (s.emit e).rb = s.rb := rfl
@[simp] theorem State.emit_reg (e : Event) : (s.emit e).reg = s.reg := rfl
@[simp] theorem State.emit_txq (e : Event) : (s.emit e).txq = s.txq := rfl
@[simp] theorem State.emit_txState (e : Event) : (s.emit e).txState = s.txState := rfl
@[simp] theorem State.emit_lastSent (e : Event) : (s.emit e).lastSent = s.lastSent := rfl
@[simp] theorem State.emit_svcLatch (e : Event) : (s.emit e).svcLatch = s.svcLatch := rfl
@[simp] theorem State.emit_progMode (e : Event) : (s.emit e).progMode = s.progMode := rfl
@[simp] theorem State.emit_store (e : Event) : (s.emit e).store = s.store := rfl
@[simp] theorem State.emit_storeReady (e : Event) : (s.emit e).storeReady = s.storeReady := rfl
@[simp] theorem State.emit_out (e : Event) : (s.emit e).out = s.out ++ [e] := rfl
@[simp] theorem State.emit_fault (e : Event) : (s.emit e).fault = s.fault := rfl
@[simp] theorem State.emit_hung (e : Event) : (s.emit e).hung = s.hung := rfl
@[simp] theorem State.emit_refused (e : Event) : (s.emit e).refused = s.refused := rfl
@[simp] theorem State.emit_up (e : Event) : (s.emit e).up = s.up := rfl
@[simp] theorem State.emit_input (e : Event) : (s.emit e).input = s.input := rfl
@[simp] theorem State.emit_result (e : Event) : (s.emit e).result = s.result := rfl
@[simp] theorem State.emit_draws (e : Event) : (s.emit e).draws = s.draws := rfl

/-! ### `State.arm` -/

@[simp] theorem State.arm_params (d : Nat) : (s.arm d).params = s.params := rfl
@[simp] theorem State.arm_address (d : Nat) : (s.arm d).address = s.address := rfl
@[simp] theorem State.arm_priority (d : Nat) : (s.arm d).priority = s.priority := rfl
@[simp] theorem State.arm_isMaster (d : Nat) : (s.arm d).isMaster = s.isMaster := rfl
@[simp] theorem State.arm_busy (d : Nat) : (s.arm d).busy = s.busy := rfl
@[simp] theorem State.arm_transmitting (d : Nat) : (s.arm d).transmitting = s.transmitting := rfl
@[simp] theorem State.arm_collisionDetected (d : Nat) : (s.arm d).collisionDetected = s.collisionDetected := rfl
@[simp] theorem State.arm_arbState (d : Nat) : (s.arm d).arbState = s.arbState := rfl
@[simp] theorem State.arm_timer (d : Nat) : (s.arm d).timer = some d := rfl
@[simp] theorem State.arm_txEn (d : Nat) : (s.arm d).txEn = s.txEn := rfl
@[simp] theorem State.arm_rxEn (d : Nat) : (s.arm d).rxEn = s.rxEn := rfl
@[simp] theorem State.arm_forceLine (d : Nat) : (s.arm d).forceLine = s.forceLine := rfl
@[simp] theorem State.arm_wr (d : Nat) : (s.arm d).wr = s.wr := rfl
@[simp] theorem State.arm_rd (d : Nat) : (s.arm d).rd = s.rd := rfl
@[simp] theorem State.arm_rb (d : Nat) : (s.arm d).rb = s.rb := rfl
@[simp] theorem State.arm_reg (d : Nat) : (s.arm d).reg = s.reg := rfl
@[simp] theorem State.arm_txq (d : Nat) : (s.arm d).txq = s.txq := rfl
@[simp] theorem State.arm_txState (d : Nat) : (s.arm d).txState = s.txState := rfl
@[simp] theorem State.arm_lastSent (d : Nat) : (s.arm d).lastSent = s.lastSent := rfl
@[simp] theorem State.arm_svcLatch (d : Nat) : (s.arm d).svcLatch = s.svcLatch := rfl
@[simp] theorem State.arm_progMode (d : Nat) : (s.arm d).progMode = s.progMode := rfl
@[simp] theorem State.arm_store (d : Nat) : (s.arm d).store = s.store := rfl
@[simp] theorem State.arm_storeReady (d : Nat) : (s.arm d).storeReady = s.storeReady := rfl
@[simp] theorem State.arm_out (d : Nat) : (s.arm d).out = s.out ++ [.timerArm d] := rfl
@[simp] theorem State.arm_fault (d : Nat) : (s.arm d).fault = s.fault := rfl
@[simp] theorem State.arm_hung (d : Nat) : (s.arm d).hung = s.hung := rfl
@[simp] theorem State.arm_refused (d : Nat) : (s.arm d).refused = s.refused := rfl
@[simp] theorem State.arm_up (d : Nat) : (s.arm d).up = s.up := rfl
@[simp] theorem State.arm_input (d : Nat) : (s.arm d).input = s.input := rfl
@[simp] theorem State.arm_result (d : Nat) : (s.arm d).result = s.result := rfl
@[simp] theorem State.arm_draws (d : Nat) : (s.arm d).draws = s.draws := rfl

/-! ### `State.answer` -/

@[simp] theorem State.answer_params (r : Result) : (s.answer r).params = s.params := rfl
@[simp] theorem State.answer_address (r : Result) : (s.answer r).address = s.address := rfl
@[simp] theorem State.answer_priority (r : Result) : (s.answer r).priority = s.priority := rfl
@[simp] theorem State.answer_isMaster (r : Result) : (s.answer r).isMaster = s.isMaster := rfl
@[simp] theorem State.answer_busy (r : Result) : (s.answer r).busy = s.busy := rfl
@[simp] theorem State.answer_transmitting (r : Result) : (s.answer r).transmitting = s.transmitting := rfl
@[simp] theorem State.answer_collisionDetected (r : Result) : (s.answer r).collisionDetected = s.collisionDetected := rfl
@[simp] theorem State.answer_arbState (r : Result) : (s.answer r).arbState = s.arbState := rfl
@[simp] theorem State.answer_timer (r : Result) : (s.answer r).timer = s.timer := rfl
@[simp] theorem State.answer_txEn (r : Result) : (s.answer r).txEn = s.txEn := rfl
@[simp] theorem State.answer_rxEn (r : Result) : (s.answer r).rxEn = s.rxEn := rfl
@[simp] theorem State.answer_forceLine (r : Result) : (s.answer r).forceLine = s.forceLine := rfl
@[simp] theorem State.answer_wr (r : Result) : (s.answer r).wr = s.wr := rfl
@[simp] theorem State.answer_rd (r : Result) : (s.answer r).rd = s.rd := rfl
@[simp] theorem State.answer_rb (r : Result) : (s.answer r).rb = s.rb := rfl
@[simp] theorem State.answer_reg (r : Result) : (s.answer r).reg = s.reg := rfl
@[simp] theorem State.answer_txq (r : Result) : (s.answer r).txq = s.txq := rfl
@[simp] theorem State.answer_txState (r : Result) : (s.answer r).txState = s.txState := rfl
@[simp] theorem State.answer_lastSent (r : Result) : (s.answer r).lastSent = s.lastSent := rfl
@[simp] theorem State.answer_svcLatch (r : Result) : (s.answer r).svcLatch = s.svcLatch := rfl
@[simp] theorem State.answer_progMode (r : Result) : (s.answer r).progMode = s.progMode := rfl
@[simp] theorem State.answer_store (r : Result) : (s.answer r).store = s.store := rfl
@[simp] theorem State.answer_storeReady (r : Result) : (s.answer r).storeReady = s.storeReady := rfl
@[simp] theorem State.answer_out (r : Result) : (s.answer r).out = s.out := rfl
@[simp] theorem State.answer_fault (r : Result) : (s.answer r).fault = s.fault := rfl
@[simp] theorem State.answer_hung (r : Result) : (s.answer r).hung = s.hung := rfl
@[simp] theorem State.answer_refused (r : Result) : (s.answer r).refused = s.refused := rfl
@[simp] theorem State.answer_up (r : Result) : (s.answer r).up = s.up := rfl
@[simp] theorem State.answer_input (r : Result) : (s.answer r).input = s.input := rfl
@[simp] theorem State.answer_result (r : Result) : (s.answer r).result = r := rfl
@[simp] theorem State.answer_draws (r : Result) : (s.answer r).draws = s.draws := rfl

/-! ### `State.advance` -/

@[simp] theorem State.advance_params (k : Nat) : (s.advance k).params = s.params := rfl
@[simp] theorem State.advance_address (k : Nat) : (s.advance k).address = s.address := rfl
@[simp] theorem State.advance_priority (k : Nat) : (s.advance k).priority = s.priority := rfl
@[simp] theorem State.advance_isMaster (k : Nat) : (s.advance k).isMaster = s.isMaster := rfl
@[simp] theorem State.advance_busy (k : Nat) : (s.advance k).busy = s.busy := rfl
@[simp] theorem State.advance_transmitting (k : Nat) : (s.advance k).transmitting = s.transmitting := rfl
@[simp] theorem State.advance_collisionDetected (k : Nat) : (s.advance k).collisionDetected = s.collisionDetected := rfl
@[simp] theorem State.advance_arbState (k : Nat) : (s.advance k).arbState = s.arbState := rfl
@[simp] theorem State.advance_timer (k : Nat) : (s.advance k).timer = s.timer := rfl
@[simp] theorem State.advance_txEn (k : Nat) : (s.advance k).txEn = s.txEn := rfl
@[simp] theorem State.advance_rxEn (k : Nat) : (s.advance k).rxEn = s.rxEn := rfl
@[simp] theorem State.advance_forceLine (k : Nat) : (s.advance k).forceLine = s.forceLine := rfl
@[simp] theorem State.advance_wr (k : Nat) : (s.advance k).wr = s.wr := rfl
@[simp] theorem State.advance_rd (k : Nat) : (s.advance k).rd = (s.rd + k) % s.params.cap := rfl
@[simp] theorem State.advance_rb (k : Nat) : (s.advance k).rb = s.rb := rfl
@[simp] theorem State.advance_reg (k : Nat) : (s.advance k).reg = s.reg := rfl
@[simp] theorem State.advance_txq (k : Nat) : (s.advance k).txq = s.txq := rfl
@[simp] theorem State.advance_txState (k : Nat) : (s.advance k).txState = s.txState := rfl
@[simp] theorem State.advance_lastSent (k : Nat) : (s.advance k).lastSent = s.lastSent := rfl
@[simp] theorem State.advance_svcLatch (k : Nat) : (s.advance k).svcLatch = s.svcLatch := rfl
@[simp] theorem State.advance_progMode (k : Nat) : (s.advance k).progMode = s.progMode := rfl
@[simp] theorem State.advance_store (k : Nat) : (s.advance k).store = s.store := rfl
@[simp] theorem State.advance_storeReady (k : Nat) : (s.advance k).storeReady = s.storeReady := rfl
@[simp] theorem State.advance_out (k : Nat) : (s.advance k).out = s.out := rfl
@[simp] theorem State.advance_fault (k : Nat) : (s.advance k).fault = s.fault := rfl
@[simp] theorem State.advance_hung (k : Nat) : (s.advance k).hung = s.hung := rfl
@[simp] theorem State.advance_refused (k : Nat) : (s.advance k).refused = s.refused := rfl
@[simp] theorem State.advance_up (k : Nat) : (s.advance k).up = s.up := rfl
@[simp] theorem State.advance_input (k : Nat) : (s.advance k).input = s.input := rfl
@[simp] theorem State.advance_result (k : Nat) : (s.advance k).result = s.result := rfl
@[simp] theorem State.advance_draws (k : Nat) : (s.advance k).draws = s.draws := rfl

/-! ### `State.markSending` -/

@[simp] theorem State.markSending_params : (s.markSending).params = s.params := rfl
@[simp] theorem State.markSending_address : (s.markSending).address = s.address := rfl
@[simp] theorem State.markSending_priority : (s.markSending).priority = s.priority := rfl
@[simp] theorem State.markSending_isMaster : (s.markSending).isMaster = s.isMaster := rfl
@[simp] theorem State.markSending_busy : (s.markSending).busy = true := rfl
@[simp] theorem State.markSending_transmitting : (s.markSending).transmitting = true := rfl
@[simp] theorem State.markSending_collisionDetected : (s.markSending).collisionDetected = s.collisionDetected := rfl
@[simp] theorem State.markSending_arbState : (s.markSending).arbState = s.arbState := rfl
@[simp] theorem State.markSending_timer : (s.markSending).timer = s.timer := rfl
@[simp] theorem State.markSending_txEn : (s.markSending).txEn = s.txEn := rfl
@[simp] theorem State.markSending_rxEn : (s.markSending).rxEn = s.rxEn := rfl
@[simp] theorem State.markSending_forceLine : (s.markSending).forceLine = s.forceLine := rfl
@[simp] theorem State.markSending_wr : (s.markSending).wr = s.wr := rfl
@[simp] theorem State.markSending_rd : (s.markSending).rd = s.rd := rfl
@[simp] theorem State.markSending_rb : (s.markSending).rb = s.rb := rfl
@[simp] theorem State.markSending_reg : (s.markSending).reg = s.reg := rfl
@[simp] theorem State.markSending_txq : (s.markSending).txq = s.txq := rfl
@[simp] theorem State.markSending_txState : (s.markSending).txState = s.txState := rfl
@[simp] theorem State.markSending_lastSent : (s.markSending).lastSent = s.lastSent := rfl
@[simp] theorem State.markSending_svcLatch : (s.markSending).svcLatch = s.svcLatch := rfl
@[simp] theorem State.markSending_progMode : (s.markSending).progMode = s.progMode := rfl
@[simp] theorem State.markSending_store : (s.markSending).store = s.store := rfl
@[simp] theorem State.markSending_storeReady : (s.markSending).storeReady = s.storeReady := rfl
@[simp] theorem State.markSending_out : (s.markSending).out = s.out := rfl
@[simp] theorem State.markSending_fault : (s.markSending).fault = s.fault := rfl
@[simp] theorem State.markSending_hung : (s.markSending).hung = s.hung := rfl
@[simp] theorem State.markSending_refused : (s.markSending).refused = s.refused := rfl
@[simp] theorem State.markSending_up : (s.markSending).up = s.up := rfl
@[simp] theorem State.markSending_input : (s.markSending).input = s.input := rfl
@[simp] theorem State.markSending_result : (s.markSending).result = s.result := rfl
@[simp] theorem State.markSending_draws : (s.markSending).draws = s.draws := rfl

/-! ### `State.markSent` -/

@[simp] theorem State.markSent_params : (s.markSent).params = s.params := rfl
@[simp] theorem State.markSent_address : (s.markSent).address = s.address := rfl
@[simp] theorem State.markSent_priority : (s.markSent).priority = s.priority := rfl
@[simp] theorem State.markSent_isMaster : (s.markSent).isMaster = s.isMaster := rfl
@[simp] theorem State.markSent_busy : (s.markSent).busy = s.busy := rfl
@[simp] theorem State.markSent_transmitting : (s.markSent).transmitting = false := rfl
@[simp] theorem State.markSent_collisionDetected : (s.markSent).collisionDetected = s.collisionDetected := rfl
@[simp] theorem State.markSent_arbState : (s.markSent).arbState = s.arbState := rfl
@[simp] theorem State.markSent_timer : (s.markSent).timer = s.timer := rfl
@[simp] theorem State.markSent_txEn : (s.markSent).txEn = s.txEn := rfl
@[simp] theorem State.markSent_rxEn : (s.markSent).rxEn = s.rxEn := rfl
@[simp] theorem State.markSent_forceLine : (s.markSent).forceLine = s.forceLine := rfl
@[simp] theorem State.markSent_wr : (s.markSent).wr = s.wr := rfl
@[simp] theorem State.markSent_rd : (s.markSent).rd = s.rd := rfl
@[simp] theorem State.markSent_rb : (s.markSent).rb = s.rb := rfl
@[simp] theorem State.markSent_reg : (s.markSent).reg = s.reg := rfl
@[simp] theorem State.markSent_txq : (s.markSent).txq = s.txq := rfl
@[simp] theorem State.markSent_txState : (s.markSent).txState = s.txState := rfl
@[simp] theorem State.markSent_lastSent : (s.markSent).lastSent = s.lastSent := rfl
@[simp] theorem State.markSent_svcLatch : (s.markSent).svcLatch = s.svcLatch := rfl
@[simp] theorem State.markSent_progMode : (s.markSent).progMode = s.progMode := rfl
@[simp] theorem State.markSent_store : (s.markSent).store = s.store := rfl
@[simp] theorem State.markSent_storeReady : (s.markSent).storeReady = s.storeReady := rfl
@[simp] theorem State.markSent_out : (s.markSent).out = s.out := rfl
@[simp] theorem State.markSent_fault : (s.markSent).fault = s.fault := rfl
@[simp] theorem State.markSent_hung : (s.markSent).hung = s.hung := rfl
@[simp] theorem State.markSent_refused : (s.markSent).refused = s.refused := rfl
@[simp] theorem State.markSent_up : (s.markSent).up = s.up := rfl
@[simp] theorem State.markSent_input : (s.markSent).input = s.input := rfl
@[simp] theorem State.markSent_result : (s.markSent).result = s.result := rfl
@[simp] theorem State.markSent_draws : (s.markSent).draws = s.draws := rfl

end Sys2Proof.Machine
end

