-- ==== Sys2Proof/Laws/Ops.lean ====
section
/-! SUPPORT. What the shared operations can do: outcomes, gates, the collision entry and return. -/

namespace Sys2Proof.Machine

variable {s t : State} {o : Outcome} {op k : State → Outcome}

@[simp] theorem thenDo_next (s : State) (k : State → Outcome) : thenDo (.next s) k = k s := rfl
@[simp] theorem thenDo_fault (f : Fault) (k : State → Outcome) : thenDo (.fault f) k = .fault f := rfl
@[simp] theorem thenDo_refused (r : Refusal) (k : State → Outcome) :
    thenDo (.refused r) k = .refused r := rfl

/-- A sequence answers a next state only through one of the first part. -/
theorem thenDo_eq_next : thenDo o k = .next t ↔ ∃ u, o = .next u ∧ k u = .next t := by
  cases o <;> simp [thenDo]

/-- A sequence faults in its first or in its second part. -/
theorem thenDo_eq_fault {f : Fault} :
    thenDo o k = .fault f ↔ o = .fault f ∨ ∃ u, o = .next u ∧ k u = .fault f := by
  cases o <;> simp [thenDo]

/-- A sequence is refused in its first or in its second part. -/
theorem thenDo_eq_refused {r : Refusal} :
    thenDo o k = .refused r ↔ o = .refused r ∨ ∃ u, o = .next u ∧ k u = .refused r := by
  cases o <;> simp [thenDo]

theorem thenDo_assoc (o : Outcome) (k k' : State → Outcome) :
    thenDo (thenDo o k) k' = thenDo o fun u => thenDo (k u) k' := by cases o <;> rfl

/-! ## Gates -/

theorem gate_live (h : s.Live) : gate s op = op s := by
  obtain ⟨h1, h2, h3⟩ := h
  simp [gate, h1, h2, h3]

theorem whenUp_ready (h : s.Ready) : whenUp s op = op s := by
  simp [whenUp, gate_live h.1, h.2]

theorem whenUp_notUp (h : s.Live) (hu : s.up = false) : whenUp s op = .refused .notUp := by
  simp [whenUp, gate_live h, hu]

/-- A held machine repeats itself. -/
theorem gate_hung {h : Hold} (hf : s.fault = none) (hr : s.refused = false) (hh : s.hung = some h) :
    gate s op = .next s := by simp [gate, hf, hr, hh]

theorem gate_faulted {f : Fault} (hf : s.fault = some f) : gate s op = .fault f := by
  simp [gate, hf]

theorem gate_refused (hf : s.fault = none) (hr : s.refused = true) :
    gate s op = .refused .afterRefusal := by simp [gate, hf, hr]

/-- A gated operation answers a next state only by itself or by standing still. -/
theorem gate_eq_next (h : gate s op = .next t) :
    (s.Live ∧ op s = .next t) ∨ (t = s ∧ s.hung ≠ none) := by
  unfold gate at h
  split at h
  · cases h
  · split at h
    · cases h
    · split at h
      · rename_i hh; cases h; exact .inr ⟨rfl, by simp [hh]⟩
      · exact .inl ⟨⟨‹_›, by simpa using ‹¬ s.refused = true›, ‹_›⟩, h⟩

theorem whenUp_eq_next (h : whenUp s op = .next t) :
    (s.Ready ∧ op s = .next t) ∨ (t = s ∧ s.hung ≠ none) := by
  rcases gate_eq_next h with ⟨hl, h⟩ | h
  · split at h
    · exact .inl ⟨⟨hl, ‹_›⟩, h⟩
    · cases h
  · exact .inr h

/-- A gated operation of a live state faults only by itself. -/
theorem whenUp_eq_fault {f : Fault} (hl : s.Live) (h : whenUp s op = .fault f) : op s = .fault f := by
  rw [whenUp, gate_live hl] at h
  split at h
  · exact h
  · cases h

/-- A gated operation is refused by itself, by the marks, or because the CORE is not up. -/
theorem whenUp_eq_refused {r : Refusal} (h : whenUp s op = .refused r) :
    op s = .refused r ∨ r = .notUp ∨ r = .afterRefusal := by
  unfold whenUp gate at h
  split at h
  · cases h
  split at h
  · cases h; exact .inr (.inr rfl)
  split at h
  · cases h
  dsimp only at h
  split at h
  · exact .inl h
  · cases h; exact .inr (.inl rfl)

/-! ## The collision -/

/-- The in-flight frame goes back whole, where the flag matches the transmitter. -/
theorem requeue_eq (h : s.transmitting = s.txState.isSending) :
    s.requeue = { s with
      transmitting := false
      txState := (match s.txState with | .sending _ _ => .none | x => x)
      txq := (match s.txState with | .sending f _ => f :: s.txq | _ => s.txq) } := by
  unfold State.requeue
  cases hx : s.txState <;> simp [hx, TxState.isSending] at h <;> simp [h] <;>
    (cases s; simp_all)

/-- The two cases of `requeue`: a frame goes back, or only the flag is cleared. -/
theorem requeue_cases (s : State) :
    (∃ f c, s.transmitting = true ∧ s.txState = .sending f c ∧
      s.requeue = { s with txq := f :: s.txq, txState := .none, transmitting := false }) ∨
    ((s.transmitting = true → s.txState.isSending = false) ∧
      s.requeue = { s with transmitting := false }) := by
  unfold State.requeue
  split
  · split
    · exact .inl ⟨_, _, ‹_›, ‹_›, rfl⟩
    · exact .inr ⟨fun _ => by simp [*, TxState.isSending], rfl⟩
    · exact .inr ⟨fun _ => by simp [*, TxState.isSending], rfl⟩
  · refine .inr ⟨fun h => absurd h ‹_›, ?_⟩
    cases s; simp_all

/-- What `collide` writes beside what `requeue` writes. -/
theorem collide_eq (cause : Cause) (s : State) :
    collide cause s = { s with
      collisionDetected := true, txEn := false, rxEn := false, forceLine := true, busy := true
      timer := some s.params.dLb, arbState := .lineBreakWait
      transmitting := s.requeue.transmitting, txState := s.requeue.txState, txq := s.requeue.txq
      out := s.out ++ [.chanEnable false false, .chanForceLine true, .timerArm s.params.dLb,
        .collision cause] } := by
  obtain ⟨f, c, ht, hx, -⟩ | ⟨h, -⟩ := requeue_cases s
  · simp [collide, State.requeue, State.emit, State.arm, ht, hx]
  · cases ht : s.transmitting
    · simp [collide, State.requeue, State.emit, State.arm, ht]
    · cases hx : s.txState <;> simp [ht, hx, TxState.isSending] at h <;>
        simp [collide, State.requeue, State.emit, State.arm, ht, hx]

/-- The queue and the transmitter after a collision: the frame goes back, or nothing moves. -/
theorem collide_queue (cause : Cause) (s : State) :
    (s.transmitting = true ∧ ∃ f c, s.txState = .sending f c ∧ (collide cause s).txq = f :: s.txq ∧
      (collide cause s).txState = .none ∧ (collide cause s).transmitting = false) ∨
    ((collide cause s).txq = s.txq ∧ (collide cause s).txState = s.txState ∧
      (collide cause s).transmitting = false) := by
  rw [collide_eq]
  obtain ⟨f, c, ht, hx, he⟩ | ⟨-, he⟩ := requeue_cases s
  · exact .inl ⟨ht, f, c, hx, by rw [he], by rw [he], by rw [he]⟩
  · exact .inr ⟨by rw [he], by rw [he], by rw [he]⟩

theorem lbExpired_eq (s : State) :
    lbExpired s = { s with
      collisionDetected := false, txEn := true, rxEn := true, forceLine := false
      arbState := .idle, out := s.out ++ [.chanEnable true true, .chanForceLine false] } := by
  simp [lbExpired, State.emit]

theorem push_room {b : Byte} (h : (s.wr + 1) % s.params.cap ≠ s.rd) :
    push b s = .next
      { s with rb := Memory.write unlistedCell s.rb s.wr b, wr := (s.wr + 1) % s.params.cap } := by
  simp [push, h]

theorem push_full {b : Byte} (h : (s.wr + 1) % s.params.cap = s.rd) :
    push b s = .next { s with hung := some .rbFull } := by
  simp [push, hold, h]

/-- A push stores the byte and moves the writer, or holds. -/
theorem push_eq_next {b : Byte} (h : push b s = .next t) :
    ((s.wr + 1) % s.params.cap ≠ s.rd ∧
      t = { s with rb := Memory.write unlistedCell s.rb s.wr b, wr := (s.wr + 1) % s.params.cap }) ∨
    ((s.wr + 1) % s.params.cap = s.rd ∧ t = { s with hung := some .rbFull }) := by
  by_cases hr : (s.wr + 1) % s.params.cap = s.rd
  · rw [push_full hr] at h; cases h; exact .inr ⟨hr, rfl⟩
  · rw [push_room hr] at h; cases h; exact .inl ⟨hr, rfl⟩

end Sys2Proof.Machine
end

