-- ==== Sys2Proof/Laws/Cv.lean ====
section
/-! SUPPORT. What the transmit queue's and the CV unit's operations can do, and the one relation that
bounds what a dispatch writes. -/

namespace Sys2Proof.Machine

variable {s t u : State}

/-! ## The transmit queue -/

/-- A frame is queued only if it is valid and there is room. -/
theorem enqueueFrame_eq_next {opc : Byte} {d : List Byte} (h : enqueueFrame opc d s = .next t) :
    enqueueOk opc d = true ∧ framesHeld s < s.params.txqCap ∧
      t = { s with txq := s.txq ++ [withChecksum (opc :: d)] } := by
  unfold enqueueFrame withFrame at h
  split at h
  · split at h
    · cases h
    · cases h; exact ⟨‹_›, by omega, rfl⟩
  · cases h

theorem enqueueFrame_room {opc : Byte} {d : List Byte} (hk : enqueueOk opc d = true)
    (hr : framesHeld s < s.params.txqCap) :
    enqueueFrame opc d s = .next { s with txq := s.txq ++ [withChecksum (opc :: d)] } := by
  simp [enqueueFrame, withFrame, hk, show ¬ s.params.txqCap ≤ framesHeld s by omega]

theorem enqueueFrame_full {opc : Byte} {d : List Byte} (hk : enqueueOk opc d = true)
    (hr : s.params.txqCap ≤ framesHeld s) : enqueueFrame opc d s = .fault .txqOverflow := by
  simp [enqueueFrame, withFrame, hk, hr]

theorem enqueueFrame_malformed {opc : Byte} {d : List Byte} (hk : enqueueOk opc d = false) :
    enqueueFrame opc d s = .refused .malformedEnqueue := by
  simp [enqueueFrame, withFrame, hk]

theorem framesHeld_append (s : State) (fs : List Frame) :
    framesHeld { s with txq := s.txq ++ fs } = framesHeld s + fs.length := by
  simp [framesHeld]; omega

/-! ## The long-ack and the response -/

/-- The long-ack of a 7-bit code can be framed. -/
theorem enqueueOk_longAck {p : Params} (hp : p.WF) (opc : Byte) {code : Byte}
    (hc : code.msb = false) : enqueueOk p.opcLongAck [clearMsb opc, code] = true := by
  have h5 := hp.classes.2.2.2
  rw [enqueueOk_iff]
  refine ⟨by rw [msb_of_class h5]; rfl, by simp [clearMsb_msb, hc], fun h => ?_,
    fun _ => by simp [frameLen, h5]⟩
  rw [h5] at h; cases h

theorem longAck_frame (p : Params) (opc code : Byte) :
    withChecksum [p.opcLongAck, clearMsb opc, code] = ackFrame p opc code := by
  simp [withChecksum, ackFrame, clearMsb, checksum, xorAll, chkTarget, BitVec.xor_assoc]

theorem longAck_room (hp : s.params.WF) (opc : Byte) {code : Byte} (hc : code.msb = false)
    (h : framesHeld s < s.params.txqCap) :
    longAck opc code s = .next { s with txq := s.txq ++ [ackFrame s.params opc code] } := by
  rw [longAck, enqueueFrame_room (enqueueOk_longAck hp opc hc) h, longAck_frame]

theorem longAck_full (hp : s.params.WF) (opc : Byte) {code : Byte} (hc : code.msb = false)
    (h : s.params.txqCap ≤ framesHeld s) : longAck opc code s = .fault .txqOverflow := by
  rw [longAck, enqueueFrame_full (enqueueOk_longAck hp opc hc) h]

/-- The bytes a carried message keeps have bit 7 clear. -/
theorem carried_msb {opc : Byte} {m : CvMessage} (h : validFrame (cvFrame opc m) = true) :
    (loByte m.destination).msb = false ∧ (hiByte m.destination).msb = false ∧
      m.requestId.msb = false := by
  have e : cvFrame opc m = opc :: 0x0F :: (m.pack ++ [checksum (opc :: 0x0F :: m.pack)]) := rfl
  rw [e] at h
  obtain ⟨-, -, -, hd, -⟩ := validFrame_cons.1 h
  rw [← List.cons_append, List.dropLast_concat] at hd
  exact ⟨hd _ (by simp [CvMessage.pack]), hd _ (by simp [CvMessage.pack]),
    hd _ (by simp [CvMessage.pack])⟩

/-- A packed message whose kept bytes have bit 7 clear can be framed. -/
theorem enqueueOk_pack {m : CvMessage} (h0 : m.source.msb = false)
    (h1 : (loByte m.destination).msb = false) (h2 : (hiByte m.destination).msb = false)
    (h3 : m.requestId.msb = false) : enqueueOk opcPeerXfer (0x0F :: m.pack) = true := by
  have hs : (sideChannel m.valueBytes).msb = false := sideChannel_msb _ (by simp [CvMessage.valueBytes])
  rw [enqueueOk_iff]
  refine ⟨rfl, fun b hb => ?_, fun _ => ⟨_, _, rfl, by simp [CvMessage.pack, CvMessage.valueBytes]⟩,
    fun h => absurd rfl h⟩
  rcases List.mem_cons.1 hb with rfl | hb
  · rfl
  rw [CvMessage.pack] at hb
  rcases List.mem_append.1 hb with hb | hb
  · simp only [List.mem_cons, List.not_mem_nil, or_false] at hb
    rcases hb with rfl | rfl | rfl | rfl | rfl <;> assumption
  · obtain ⟨d, -, rfl⟩ := List.mem_map.1 hb
    exact clearMsb_msb d

/-- The response to a carried request can be framed. -/
theorem enqueueOk_response (hp : s.params.WF) {opc : Byte} {m : CvMessage}
    (h : validFrame (cvFrame opc m) = true) (n v : Word) :
    enqueueOk opcPeerXfer (0x0F :: (responseMessage s.params m n v).pack) = true := by
  obtain ⟨h1, h2, h3⟩ := carried_msb h
  exact enqueueOk_pack hp.respSrc_msb h1 h2 h3

/-! ## The bound -/

/-- What an operation inside the framer may write: the queue by valid frames behind it, the trace behind
it but no collision, the CV store, Config and programming mode, and the draws. -/
structure Effect (s t : State) : Prop where
  frame  : t = { s with
    txq := t.txq, out := t.out, store := t.store, address := t.address, priority := t.priority
    progMode := t.progMode, draws := t.draws }
  queue  : ∃ fs, t.txq = s.txq ++ fs ∧ ∀ f ∈ fs, validFrame f = true
  room   : framesHeld s ≤ s.params.txqCap → framesHeld t ≤ s.params.txqCap
  trace  : ∃ es, t.out = s.out ++ es ∧ ∀ c, Event.collision c ∉ es
  wf     : Memory.wf unlistedSlot s.store → Memory.wf unlistedSlot t.store
  config : Memory.wf unlistedSlot s.store → s.address = (cvLookup s 0).setWidth 10 →
    t.address = (cvLookup t 0).setWidth 10

theorem Effect.refl (s : State) : Effect s s :=
  ⟨rfl, ⟨[], by simp⟩, id, ⟨[], by simp⟩, id, fun _ h => h⟩

theorem Effect.params (h : Effect s t) : t.params = s.params := by rw [h.frame]

theorem Effect.trans (h : Effect s t) (h' : Effect t u) : Effect s u where
  frame  := h'.frame.trans (by rw [h.frame])
  queue  := by
    obtain ⟨fs, h1, h2⟩ := h.queue
    obtain ⟨fs', h1', h2'⟩ := h'.queue
    refine ⟨fs ++ fs', by rw [h1', h1, List.append_assoc], fun f hf => ?_⟩
    rcases List.mem_append.1 hf with hf | hf
    · exact h2 f hf
    · exact h2' f hf
  room   := fun hs => by have := h'.room; rw [h.params] at this; exact this (h.room hs)
  trace  := by
    obtain ⟨es, h1, h2⟩ := h.trace
    obtain ⟨es', h1', h2'⟩ := h'.trace
    refine ⟨es ++ es', by rw [h1', h1, List.append_assoc], fun c hc => ?_⟩
    rcases List.mem_append.1 hc with hc | hc
    · exact h2 c hc
    · exact h2' c hc
  wf     := fun hs => h'.wf (h.wf hs)
  config := fun hw hs => h'.config (h.wf hw) (h.config hw hs)

/-- An operation that only emits events other than collisions. -/
theorem Effect.emit (s : State) {e : Event} (he : ∀ c, e ≠ .collision c) : Effect s (s.emit e) where
  frame  := rfl
  queue  := ⟨[], by simp⟩
  room   := id
  trace  := ⟨[e], rfl, fun c hc => he c (List.mem_singleton.1 hc).symm⟩
  wf     := id
  config := fun _ h => h

theorem enqueueFrame_effect {opc : Byte} {d : List Byte} (h : enqueueFrame opc d s = .next t) :
    Effect s t := by
  obtain ⟨hk, hr, rfl⟩ := enqueueFrame_eq_next h
  refine ⟨rfl, ⟨_, rfl, ?_⟩, fun _ => ?_, ⟨[], by simp⟩, id, fun _ h => h⟩
  · simpa using validFrame_of_enqueueOk hk
  · rw [framesHeld_append]; simpa using hr

/-- The slots after a commit. -/
theorem storeRead_storeWrite (hw : Memory.wf unlistedSlot s.store) (n : Nat) (v : Word) (k : Nat) :
    storeRead (storeWrite n v s) k = if k = n then v else storeRead s k :=
  Memory.read_write hw.1 n k v

theorem storeWrite_wf (hw : Memory.wf unlistedSlot s.store) (n : Nat) (v : Word) :
    Memory.wf unlistedSlot (storeWrite n v s).store := Memory.write_wf hw n v

/-- Slots 0 and 2 apart, a lookup is the stored value. -/
theorem cvLookup_other {n : Nat} (h0 : n ≠ 0) (h2 : n ≠ 2) : cvLookup s n = storeRead s n := by
  simp [cvLookup, h0, h2]

/-- A persisted write of slot 0. -/
theorem persist_zero (v : Word) (s : State) :
    persist 0 v s = { s with
      store := Memory.write unlistedSlot (Memory.write unlistedSlot s.store 0 v) 1 s.params.deviceClass
      address := v.setWidth 10
      out := s.out ++ [
        .storeCommit 0 (pageValues (storeWrite 0 v s) 0),
        .storeCommit (1 / s.params.pageSize) (pageValues (persist 0 v s) (1 / s.params.pageSize)),
        .hookValueWritten 0 v] } := by
  simp only [persist, storeWrite, State.emit, if_true, if_neg (show ¬ (0 : Nat) = 2 by omega),
    Nat.zero_div, List.append_assoc]
  rfl

/-- A persisted write of slot 2. -/
theorem persist_two (v : Word) (s : State) :
    persist 2 v s = { s with
      store := Memory.write unlistedSlot s.store 2 v, priority := v.setWidth 4
      out := s.out ++ [
        .storeCommit (2 / s.params.pageSize) (pageValues (persist 2 v s) (2 / s.params.pageSize)),
        .hookValueWritten 2 v] } := by
  simp only [persist, storeWrite, State.emit, if_true, if_neg (show ¬ (2 : Nat) = 0 by omega),
    List.append_assoc]
  rfl

/-- A persisted write of a device-specific slot. -/
theorem persist_other {n : Nat} (h0 : n ≠ 0) (h2 : n ≠ 2) (v : Word) (s : State) :
    persist n v s = { s with
      store := Memory.write unlistedSlot s.store n v
      out := s.out ++ [
        .storeCommit (n / s.params.pageSize) (pageValues (persist n v s) (n / s.params.pageSize)),
        .hookValueWritten n v] } := by
  simp only [persist, storeWrite, State.emit, if_neg h0, if_neg h2, List.append_assoc]
  rfl

/-- The slots after a persisted write of slot 0. -/
theorem storeRead_persist_zero (hw : Memory.wf unlistedSlot s.store) (v : Word) (k : Nat) :
    storeRead (persist 0 v s) k =
      if k = 0 then v else if k = 1 then s.params.deviceClass else storeRead s k := by
  have h1 := storeRead_storeWrite (storeWrite_wf hw 0 v) 1 s.params.deviceClass k
  rw [storeRead_storeWrite hw 0 v] at h1
  have e : storeRead (persist 0 v s) k =
      storeRead (storeWrite 1 s.params.deviceClass (storeWrite 0 v s)) k := rfl
  rw [e, h1]
  by_cases hk : k = 0 <;> simp [hk]

/-- The slots after a persisted write of another slot. -/
theorem storeRead_persist {n : Nat} (h0 : n ≠ 0) (hw : Memory.wf unlistedSlot s.store) (v : Word)
    (k : Nat) : storeRead (persist n v s) k = if k = n then v else storeRead s k := by
  have h := storeRead_storeWrite hw n v k
  have e : storeRead (persist n v s) k = storeRead (storeWrite n v s) k := by
    by_cases h2 : n = 2 <;> simp [persist, h0, h2, storeRead]
  rw [e, h]

/-- A persisted write leaves the parameters and the queue. -/
theorem persist_params (n : Nat) (v : Word) (s : State) : (persist n v s).params = s.params := by
  by_cases h0 : n = 0 <;> by_cases h2 : n = 2 <;> simp [persist, h0, h2, storeWrite]

theorem persist_framesHeld (n : Nat) (v : Word) (s : State) :
    framesHeld (persist n v s) = framesHeld s := by
  by_cases h0 : n = 0 <;> by_cases h2 : n = 2 <;> simp [persist, h0, h2, storeWrite, framesHeld]

/-- A persisted write of a slot other than the marker. -/
theorem persist_effect {n : Nat} (hn : n ≠ 1) (v : Word) : Effect s (persist n v s) := by
  by_cases h0 : n = 0
  · subst h0
    refine ⟨?_, ⟨[], ?_⟩, ?_, ?_, fun hw => ?_, fun hw _ => ?_⟩
    · simp [persist, storeWrite, State.emit]
    · simp [persist, storeWrite, State.emit]
    · simp [persist, storeWrite, State.emit, framesHeld]
    · refine ⟨_, by simp [persist, storeWrite, State.emit]; rfl, by simp⟩
    · exact storeWrite_wf (storeWrite_wf hw _ _) _ _
    · have h1 := storeRead_storeWrite (storeWrite_wf hw 0 v) 1 s.params.deviceClass
      have h0 := storeRead_storeWrite hw 0 v
      have e : ∀ k, storeRead (persist 0 v s) k =
          storeRead (storeWrite 1 s.params.deviceClass (storeWrite 0 v s)) k := fun k => rfl
      have hp : (persist 0 v s).params = s.params := rfl
      have ha : (persist 0 v s).address = v.setWidth 10 := rfl
      simp [cvLookup, e, h1, h0, hp, ha]
  · refine ⟨?_, ⟨[], ?_⟩, ?_, ?_, fun hw => ?_, fun hw ha => ?_⟩
    · by_cases h2 : n = 2 <;> simp [persist, storeWrite, State.emit, h0, h2]
    · by_cases h2 : n = 2 <;> simp [persist, storeWrite, State.emit, h0, h2]
    · by_cases h2 : n = 2 <;> simp [persist, storeWrite, State.emit, framesHeld, h0, h2]
    · by_cases h2 : n = 2 <;>
        refine ⟨_, by simp [persist, storeWrite, State.emit, h0, h2]; rfl, by simp⟩
    · have : (persist n v s).store = (storeWrite n v s).store := by
        by_cases h2 : n = 2 <;> simp [persist, h0, h2]
      rw [this]; exact storeWrite_wf hw _ _
    · have e : ∀ k, storeRead (persist n v s) k = storeRead (storeWrite n v s) k := by
        intro k; by_cases h2 : n = 2 <;> simp [persist, h0, h2, storeRead]
      have hp : (persist n v s).params = s.params := by
        by_cases h2 : n = 2 <;> simp [persist, h0, h2, storeWrite]
      have hA : (persist n v s).address = s.address := by
        by_cases h2 : n = 2 <;> simp [persist, h0, h2, storeWrite]
      have hr := storeRead_storeWrite hw n v
      rw [hA, ha]
      simp only [cvLookup, e, hr, hp, if_neg (Ne.symm h0), if_neg (Ne.symm hn)]

/-- A lookup reads the store and the parameters only. -/
theorem cvLookup_congr (hs : t.store = s.store) (hp : t.params = s.params) (n : Nat) :
    cvLookup t n = cvLookup s n := by
  have : storeRead t = storeRead s := by funext k; unfold storeRead; rw [hs]
  unfold cvLookup; rw [this, hp]

/-- A persisted value is the one a lookup answers, slot 2 needing the marker. -/
theorem cvLookup_persist {n : Nat} {v : Word} (hw : Memory.wf unlistedSlot s.store) (h1 : n ≠ 1)
    (h2 : n = 2 → storeRead s 1 = s.params.deviceClass) : cvLookup (persist n v s) n = v := by
  by_cases h0 : n = 0
  · subst h0
    have hr := fun k => storeRead_persist_zero (k := k) hw v
    simp [cvLookup, hr, persist_params]
  · have hr := fun k => storeRead_persist (k := k) h0 hw v
    simp only [cvLookup, h0, hr, persist_params, false_and, if_false, if_neg (Ne.symm h1)]
    rw [if_neg (by rintro ⟨a, b⟩; exact b (h2 a))]; simp

/-! ## The CV unit -/

theorem longAck_effect {opc code : Byte} (h : longAck opc code s = .next t) : Effect s t :=
  enqueueFrame_effect h

theorem finishWrite_effect {opc : Byte} {n : Nat} {v : Word} {st : Status} (hn : n ≠ 1)
    (h : finishWrite opc n v st s = .next t) : Effect s t := by
  unfold finishWrite at h
  split at h
  · exact (persist_effect hn v).trans (longAck_effect h)
  · exact longAck_effect h

theorem authorize_effect (n : Nat) (v : Word) (st : Status) : Effect s (authorize n v st s) where
  frame  := rfl
  queue  := ⟨[], by simp [authorize]⟩
  room   := id
  trace  := ⟨[.hookAuth n v (s.params.code st)], rfl, by simp⟩
  wf     := id
  config := fun _ h => h

theorem cvWriteWith_effect {st : Status} {opc : Byte} {m : CvMessage}
    (h : cvWriteWith st opc m s = .next t) : Effect s t := by
  unfold cvWriteWith at h
  split at h
  · cases h; exact .refl s
  split at h
  · exact longAck_effect h
  split at h
  · exact longAck_effect h
  have h1 : m.lncvNumber.toNat ≠ 1 := fun hn => ‹¬ m.lncvNumber = 1› (BitVec.eq_of_toNat_eq hn)
  split at h
  · exact finishWrite_effect h1 h
  · exact (authorize_effect _ _ _).trans (finishWrite_effect h1 h)

theorem respond_effect {m : CvMessage} {n v : Word} (h : respond m n v s = .next t) : Effect s t :=
  enqueueFrame_effect h

theorem cvRead_effect {opc : Byte} {m : CvMessage} (h : cvRead opc m s = .next t) : Effect s t := by
  unfold cvRead at h
  split at h
  · exact longAck_effect h
  · exact respond_effect h

/-- Entering or leaving programming mode. -/
theorem progMode_effect (b : Bool) : Effect s { s with progMode := b } where
  frame  := rfl
  queue  := ⟨[], by simp⟩
  room   := id
  trace  := ⟨[], by simp⟩
  wf     := id
  config := fun _ h => h

theorem progOn_effect {m : CvMessage} (h : progOn m s = .next t) : Effect s t := by
  unfold progOn at h
  split at h
  · exact (progMode_effect true).trans (respond_effect h)
  · cases h; exact .refl s

theorem progOff_effect (h : progOff s = .next t) : Effect s t := by
  cases h; exact (progMode_effect false).trans (.emit _ (by simp))

theorem slaveWrite_effect {payload : List Byte} (h : slaveWrite payload s = .next t) :
    Effect s t := by
  unfold slaveWrite at h
  split at h
  · split at h <;> cases h
    · exact .emit _ (by simp)
    · exact .refl s
  · cases h; exact .refl s

theorem slaveRead_effect {payload : List Byte} (h : slaveRead payload s = .next t) :
    Effect s t := by
  unfold slaveRead at h
  split at h
  · split at h <;> cases h
    · exact .emit _ (by simp)
    · exact .refl s
  · cases h; exact .refl s

theorem cvSelect_effect {opc : Byte} {m : CvMessage} (h : cvSelect opc m s = .next t) :
    Effect s t := by
  unfold cvSelect at h
  split at h
  · exact progOn_effect h
  split at h
  · exact progOff_effect h
  split at h
  · exact cvWriteWith_effect h
  · exact cvRead_effect h

theorem cvHandle_effect {opc : Byte} {payload : List Byte} (h : cvHandle opc payload s = .next t) :
    Effect s t := by
  unfold cvHandle at h
  split at h
  · unfold cvMessage at h
    split at h
    · cases h; exact .refl s
    split at h
    · cases h; exact .refl s
    · exact cvSelect_effect h
  split at h
  · exact slaveWrite_effect h
  split at h
  · exact slaveRead_effect h
  · cases h; exact .refl s

/-! ## Dispatch -/

theorem invoke_effect {opc : Byte} {payload : List Byte} {e : RegEntry}
    (h : invoke opc payload e s = .next t) : Effect s t := by
  unfold invoke at h
  split at h
  · exact cvHandle_effect h
  · cases h; exact .emit _ (by simp)

theorem dispatchTo_effect {opc : Byte} {payload : List Byte} {es : List RegEntry}
    (h : dispatchTo opc payload es s = .next t) : Effect s t := by
  induction es generalizing s with
  | nil => cases h; exact .refl _
  | cons e es ih =>
    unfold dispatchTo at h
    split at h
    · obtain ⟨u, h1, h2⟩ := thenDo_eq_next.1 h
      exact (invoke_effect h1).trans (ih h2)
    · exact ih h

/-- A dispatch to external handlers emits their events. -/
theorem dispatchTo_external {opc : Byte} {payload : List Byte} {es : List RegEntry} (s : State)
    (h : ∀ e ∈ es, e.key = key opc → e.hid ≠ 0) :
    dispatchTo opc payload es s =
      .next { s with out := s.out ++ dispatchEvents es opc payload } := by
  induction es generalizing s with
  | nil => simp [dispatchTo, dispatchEvents]
  | cons e es ih =>
    have ih := fun s => ih s fun e he => h e (by simp [he])
    unfold dispatchTo
    by_cases hk : e.key = key opc
    · rw [if_pos hk, invoke, if_neg (h e (by simp) hk), thenDo_next, ih]
      simp [dispatchEvents, hk]
    · rw [if_neg hk, ih]
      simp [dispatchEvents, hk]

theorem dispatchTo_append (opc : Byte) (payload : List Byte) (es es' : List RegEntry) (s : State) :
    dispatchTo opc payload (es ++ es') s =
      thenDo (dispatchTo opc payload es s) (dispatchTo opc payload es') := by
  induction es generalizing s with
  | nil => rfl
  | cons e es ih =>
    simp only [List.cons_append, dispatchTo]
    split
    · rw [thenDo_assoc]; congr 1; funext u; exact ih u
    · exact ih s

/-- A dispatch whose handlers are the CV unit and then external ones. -/
theorem dispatchTo_cv {opc : Byte} {payload : List Byte} {es ext : List RegEntry} (s : State)
    (h : es.filter (fun e => e.key = key opc) = ⟨key opc, 0⟩ :: ext) (hx : ∀ e ∈ ext, e.hid ≠ 0) :
    dispatchTo opc payload es s =
      thenDo (cvHandle opc payload s) fun t =>
        .next { t with out := t.out ++ ext.map fun e => .dispatch e.hid opc payload } := by
  induction es generalizing s with
  | nil => cases h
  | cons e es ih =>
    unfold dispatchTo
    by_cases hk : e.key = key opc
    · rw [List.filter_cons_of_pos (by simpa using hk)] at h
      obtain ⟨he, hes⟩ := List.cons.inj h
      rw [if_pos hk, he, invoke, if_pos rfl]
      refine congrArg _ (funext fun t => ?_)
      rw [dispatchTo_external t fun e hm hk => hx e (by rw [← hes]; simp [hm, hk]), dispatchEvents, hes]
    · rw [List.filter_cons_of_neg (by simpa using hk)] at h
      rw [if_neg hk, ih s h]

/-! ## How the CV unit and a dispatch stop -/

/-- The one fault and the one refusal of an operation that queues frames. -/
def QueueStops (o : Outcome) : Prop :=
  match o with
  | .next _    => True
  | .fault f   => f = .txqOverflow
  | .refused r => r = .malformedEnqueue

theorem enqueueFrame_stops (opc : Byte) (d : List Byte) (s : State) :
    QueueStops (enqueueFrame opc d s) := by
  unfold enqueueFrame withFrame
  split
  · split
    · rfl
    · trivial
  · rfl

theorem finishWrite_stops (opc : Byte) (n : Nat) (v : Word) (st : Status) (s : State) :
    QueueStops (finishWrite opc n v st s) := enqueueFrame_stops _ _ _

theorem progOn_stops (m : CvMessage) (s : State) : QueueStops (progOn m s) := by
  unfold progOn
  split
  · exact enqueueFrame_stops _ _ _
  · trivial

theorem cvWriteWith_stops (st : Status) (opc : Byte) (m : CvMessage) (s : State) :
    QueueStops (cvWriteWith st opc m s) := by
  unfold cvWriteWith
  split
  · trivial
  split
  · exact enqueueFrame_stops _ _ _
  split
  · exact enqueueFrame_stops _ _ _
  split <;> exact finishWrite_stops _ _ _ _ _

theorem cvRead_stops (opc : Byte) (m : CvMessage) (s : State) : QueueStops (cvRead opc m s) := by
  unfold cvRead
  split <;> exact enqueueFrame_stops _ _ _

theorem slaveWrite_stops (payload : List Byte) (s : State) : QueueStops (slaveWrite payload s) := by
  unfold slaveWrite
  repeat' split
  all_goals trivial

theorem slaveRead_stops (payload : List Byte) (s : State) : QueueStops (slaveRead payload s) := by
  unfold slaveRead
  repeat' split
  all_goals trivial

theorem cvHandle_stops (opc : Byte) (payload : List Byte) (s : State) :
    QueueStops (cvHandle opc payload s) := by
  unfold cvHandle cvMessage cvSelect
  repeat' split
  all_goals first
    | exact progOn_stops _ _
    | exact cvWriteWith_stops _ _ _ _
    | exact cvRead_stops _ _ _
    | exact slaveWrite_stops _ _
    | exact slaveRead_stops _ _
    | trivial

theorem QueueStops.fault {o : Outcome} {f : Fault} (h : QueueStops o) (e : o = .fault f) :
    f = .txqOverflow := by rw [e] at h; exact h

theorem QueueStops.refused {o : Outcome} {r : Refusal} (h : QueueStops o) (e : o = .refused r) :
    r = .malformedEnqueue := by rw [e] at h; exact h

theorem dispatchTo_stops (opc : Byte) (payload : List Byte) (es : List RegEntry) (s : State) :
    QueueStops (dispatchTo opc payload es s) := by
  induction es generalizing s with
  | nil => trivial
  | cons e es ih =>
    unfold dispatchTo
    split
    · unfold invoke
      split
      · have := cvHandle_stops opc payload s
        cases h : cvHandle opc payload s <;> rw [h] at this
        · exact ih _
        · exact this
        · exact this
      · exact ih _
    · exact ih s

/-- A framer step stops by a short frame, or as a dispatch does. -/
theorem framerOn_stops (bs : List Byte) (s : State) :
    QueueStops (framerOn bs s) ∨ framerOn bs s = .fault .framerShortFrame := by
  unfold framerOn
  split
  all_goals try exact .inl trivial
  · exact .inr rfl
  · refine .inl ?_
    rename_i len opc payload _
    have := dispatchTo_stops opc payload (s.advance len).reg (s.advance len)
    rw [dispatch]
    cases h : dispatchTo opc payload (s.advance len).reg (s.advance len) <;> rw [h] at this
    · trivial
    · exact this
    · exact this

/-- A framer step moves the reader, dispatches, and answers. -/
theorem framerOn_eq_next {bs : List Byte} (h : framerOn bs s = .next t) :
    ∃ rd r u, Effect { s with rd := rd } u ∧ t = { u with result := .step r } ∧
      (s.rd < s.params.cap → rd < s.params.cap) := by
  have hm : ∀ k, s.rd < s.params.cap → (s.rd + k) % s.params.cap < s.params.cap :=
    fun k hs => Nat.mod_lt _ (by omega)
  unfold framerOn at h
  split at h
  · cases h; exact ⟨_, _, _, .refl s, rfl, id⟩
  · cases h; exact ⟨_, _, _, .refl _, rfl, hm _⟩
  · cases h; exact ⟨_, _, _, .refl _, rfl, hm _⟩
  · cases h; exact ⟨_, _, _, .refl _, rfl, hm _⟩
  · cases h
  · obtain ⟨u, h1, h2⟩ := thenDo_eq_next.1 h
    cases h2
    exact ⟨_, _, u, dispatchTo_effect h1, rfl, hm _⟩

end Sys2Proof.Machine
end

