-- ==== Sys2Proof/Laws/Framer.lean ====
section
/-! SUPPORT. The ring buffer as a queue, and what the framer finds in its readable bytes. -/

namespace Sys2Proof.Machine

/-! ## The ring buffer -/

variable {s t : State}

/-- A remainder below twice the modulus. -/
theorem mod_wrap {a c : Nat} (h : a < 2 * c) : a % c = if a < c then a else a - c := by
  split
  · exact Nat.mod_eq_of_lt ‹_›
  · rw [Nat.mod_eq_sub_mod (by omega), Nat.mod_eq_of_lt (by omega)]

@[simp] theorem length_readable (s : State) : (readable s).length = avail s := by simp [readable]

theorem getD_readable {k : Nat} (h : k < avail s) : (readable s).getD k 0 = cellAt s k := by
  simp [readable, List.getD_eq_getElem?_getD, h]

theorem getElem_readable {k : Nat} (h : k < (readable s).length) :
    (readable s)[k] = cellAt s k := by simp [readable]

theorem avail_lt (hr : s.rd < s.params.cap) (hw : s.wr < s.params.cap) : avail s < s.params.cap := by
  unfold avail; split <;> omega

/-- A move of the reader within the available bytes. -/
theorem avail_advance (hr : s.rd < s.params.cap) (hw : s.wr < s.params.cap) {k : Nat}
    (hk : k ≤ avail s) : avail (s.advance k) = avail s - k := by
  have := avail_lt hr hw
  have hb := mod_wrap (a := s.rd + k) (c := s.params.cap) (by omega)
  unfold avail at *
  change (if (s.rd + k) % s.params.cap ≤ s.wr then s.wr - (s.rd + k) % s.params.cap
    else s.wr + s.params.cap - (s.rd + k) % s.params.cap) = _
  generalize (s.rd + k) % s.params.cap = r at hb ⊢
  split at hb <;> split at hk <;> split <;> omega

theorem cellAt_advance (k j : Nat) : cellAt (s.advance k) j = cellAt s (k + j) := by
  simp [cellAt, Nat.add_assoc]

theorem readable_advance (hr : s.rd < s.params.cap) (hw : s.wr < s.params.cap) {k : Nat}
    (hk : k ≤ avail s) : readable (s.advance k) = (readable s).drop k := by
  apply List.ext_getElem
  · simp [avail_advance hr hw hk]
  · intro j h1 h2
    rw [getElem_readable, List.getElem_drop, getElem_readable, cellAt_advance]

theorem advance_rd_lt (hr : s.rd < s.params.cap) (k : Nat) : (s.advance k).rd < s.params.cap :=
  Nat.mod_lt _ (by omega)

/-- A push with room appends to the readable bytes. -/
theorem readable_push (hr : s.rd < s.params.cap) (hw : s.wr < s.params.cap)
    (hm : Memory.wf unlistedCell s.rb) (hn : (s.wr + 1) % s.params.cap ≠ s.rd) (b : Byte) :
    readable { s with
      rb := Memory.write unlistedCell s.rb s.wr b, wr := (s.wr + 1) % s.params.cap } =
      readable s ++ [b] := by
  have hc : ∀ j, cellAt { s with
      rb := Memory.write unlistedCell s.rb s.wr b, wr := (s.wr + 1) % s.params.cap } j =
      if (s.rd + j) % s.params.cap = s.wr then b else cellAt s j := by
    intro j; simp only [cellAt, Memory.read_write hm.1]
  have ha : avail { s with
      rb := Memory.write unlistedCell s.rb s.wr b, wr := (s.wr + 1) % s.params.cap } =
      avail s + 1 := by
    rw [mod_wrap (by omega)] at hn
    unfold avail
    simp only [mod_wrap (show s.wr + 1 < 2 * s.params.cap by omega)]
    split <;> split <;> split <;> split at hn <;> omega
  apply List.ext_getElem
  · simp [ha]
  · intro j h1 h2
    simp only [length_readable, ha] at h1
    have hlt := avail_lt hr hw
    rw [getElem_readable, hc, mod_wrap (by omega), List.getElem_append]
    by_cases hj : j < avail s
    · rw [dif_pos (by simpa using hj), getElem_readable, if_neg]
      unfold avail at hj
      split at hj <;> split <;> omega
    · rw [dif_neg (by simpa using hj), List.getElem_singleton, if_pos]
      unfold avail at h1 hj
      split at h1 <;> split <;> split at hj <;> omega

/-! ## The first marked byte -/

theorem firstMarked_none {bs : List Byte} : firstMarked bs = none ↔ ∀ b ∈ bs, b.msb = false := by
  induction bs with
  | nil => simp [firstMarked]
  | cons b bs ih => cases hb : b.msb <;> simp [firstMarked, hb, ih]

theorem firstMarked_some {bs : List Byte} {k : Nat} :
    firstMarked bs = some k ↔
      k < bs.length ∧ (bs.getD k 0).msb = true ∧ ∀ j < k, (bs.getD j 0).msb = false := by
  induction bs generalizing k with
  | nil => simp [firstMarked]
  | cons b bs ih =>
    cases hb : b.msb
    · cases k with
      | zero => simp [firstMarked, hb]
      | succ k =>
        simp only [firstMarked, hb, Bool.false_eq_true, if_false, Option.map_eq_some_iff,
          Nat.add_right_cancel_iff, exists_eq_right, ih, List.length_cons, List.getD_cons_succ,
          Nat.add_lt_add_iff_right]
        refine and_congr_right fun _ => and_congr_right fun _ => ⟨fun h j hj => ?_, fun h j hj => ?_⟩
        · cases j with
          | zero => simpa using hb
          | succ j => simpa using h j (by omega)
        · simpa using h (j + 1) (by omega)
    · constructor
      · intro h
        simp only [firstMarked, hb, if_true, Option.some.injEq] at h
        subst h; simp [hb]
      · rintro ⟨-, -, h⟩
        cases k with
        | zero => simp [firstMarked, hb]
        | succ k => have := h 0 (by omega); simp [hb] at this

/-! ## The verdict -/

/-- The framer finds a valid frame whole, whatever follows it. -/
theorem examine_valid {f : Frame} {o : Byte} (h : validFrame f = true) (ho : f.head? = some o)
    (rest : List Byte) :
    examine (f ++ rest) = .deliver f.length o (f.drop (hdr o)) := by
  obtain ⟨b0, b1, tl, rfl⟩ := validFrame_shape h
  obtain ⟨hm, hl, hh, hd, hx⟩ := validFrame_cons.1 h
  simp only [List.head?_cons, Option.some.injEq] at ho
  subst ho
  have ht : (b0 :: b1 :: tl ++ rest).take (frameLen b0 b1) = b0 :: b1 :: tl := by
    rw [← hl]; exact List.take_left' (by simp)
  have hs : firstMarked ((b0 :: b1 :: tl ++ rest).take (frameLen b0 b1 - 1)).tail = none := by
    rw [firstMarked_none, ← hl]
    intro b hb
    refine hd b ?_
    have e : (b0 :: b1 :: tl ++ rest).take (tl.length + 2 - 1) = b0 :: (b1 :: tl).dropLast := by
      rw [List.dropLast_eq_take]
      simp only [Nat.add_sub_cancel, List.cons_append, List.take_succ_cons, List.length_cons,
        show tl.length + 2 - 1 = tl.length + 1 from rfl, List.cons.injEq, true_and]
      rw [← List.cons_append, List.take_append_of_le_length (by simp)]
    rwa [e] at hb
  simp only [List.cons_append] at ht hs ⊢
  rw [examine]
  simp only [hm, Bool.true_eq_false, if_false, hs, ht, hx, ne_eq, not_true]
  rw [if_neg (by simp; omega), if_neg (by simp; omega)]
  simp only [List.length_cons, Verdict.deliver.injEq, and_true]
  exact hl.symm

/-- Of a complete candidate the framer looks only at its own bytes. -/
theorem examine_take {b0 b1 : Byte} {tl : List Byte}
    (hl : frameLen b0 b1 ≤ tl.length + 2) :
    examine (b0 :: b1 :: tl.take (frameLen b0 b1 - 2)) = examine (b0 :: b1 :: tl) := by
  have ht : ∀ k, k ≤ frameLen b0 b1 →
      (b0 :: b1 :: tl.take (frameLen b0 b1 - 2)).take k = (b0 :: b1 :: tl).take k := by
    intro k hk
    match k with
    | 0     => rfl
    | 1     => rfl
    | k + 2 =>
      simp only [List.take_succ_cons, List.take_take]
      rw [Nat.min_eq_left (by omega)]
  simp only [examine, ht _ (Nat.le_refl _), ht _ (Nat.sub_le _ _)]
  rw [if_neg (c := (b0 :: b1 :: tl.take _).length < _) (by simp; omega),
    if_neg (c := (b0 :: b1 :: tl).length < _) (by simp; omega)]

/-- A rescan and a delivery move the reader forward within the bytes. -/
theorem examine_bounds (bs : List Byte) :
    (∀ k, examine bs = .rescan k → 1 ≤ k ∧ k < bs.length) ∧
      (∀ n o p, examine bs = .deliver n o p → 2 ≤ n ∧ n ≤ bs.length) := by
  match bs with
  | [] => simp [examine]
  | [_] => simp [examine]
  | b0 :: b1 :: tl =>
    simp only [examine]
    split
    · simp
    split
    · rename_i k hk
      have := (firstMarked_some.1 hk).1
      refine ⟨fun j hj => ?_, by simp⟩
      cases hj
      simp at this ⊢; omega
    split
    · simp
    split
    · simp
    split
    · simp
    · refine ⟨by simp, fun n o p h => ?_⟩
      cases h
      rename_i h1 h2 h3
      have : 1 ≤ hdr b0 := by unfold hdr; split <;> omega
      simp at h1 ⊢; omega

end Sys2Proof.Machine
end

