-- ==== Sys2Proof/Laws/Step.lean ====
section
/-! SUPPORT. What an instruction can do, said once: every next state of `exec`, and of `step`. -/

namespace Sys2Proof.Machine

variable {s t : State} {i : Instr}

/-- The effect of an instruction from a state that may run it. -/
def Did (i : Instr) (s t : State) : Prop :=
  match i with
  | .reset => s.storeReady = true ∧ t = resetFields s
  | .evBusFall => t = { { s with busy := true }.arm s.params.dLb with arbState := .lineBreakWait }
  | .evBusRise => t = { { s with busy := true }.arm s.params.dCd with arbState := .carrierDetectWait }
  | .evTimerExpiry => t = if s.timer.isSome then timerExpired s else s
  | .evRxByte b =>
    (s.transmitting = true ∧ s.lastSent ≠ some b ∧ t = collide .echoMismatch s) ∨
      (¬ (s.transmitting = true ∧ s.lastSent ≠ some b) ∧ push b s = .next t)
  | .evRxError => t = collide .framingError s
  | .evTxReady => t = txReady s
  | .evTxComplete => t = txComplete s
  | .svcCheck =>
    t = { s with svcLatch := decide (s.txState = .none) && decide (s.txq ≠ []) && !s.busy }
  | .svcAct => t = if s.svcLatch then startTransmission s else s
  | .enqueue opc d => enqueueFrame opc d s = .next t
  | .longAck opc code => longAck opc code s = .next t
  | .register k hid =>
    registerOk k hid = true ∧ s.reg.length < s.params.regCap ∧
      t = { s with reg := s.reg ++ [⟨k.setWidth 5, hid⟩] }
  | .unregister k hid =>
    registerOk k hid = true ∧ t = { s with reg := s.reg.filter (fun x => x ≠ ⟨k.setWidth 5, hid⟩) }
  | .readReg r => readRegOk r = true ∧ t = s.answer (.word (regWord s r))
  | .step | .frameFixed2 _ _ | .frameFixed4 _ _ _ _ | .frameFixed6 _ _ _ _ _ _
  | .frameVariable _ _ _ | .opcPeerXfer _ _ | .opcImmPacket _ _ | .opcWrSlData _ _
  | .opcSlRdData _ _ | .opcLongAck _ _ _ => ∃ bs, framerOn bs s = .next t
  | .cvProgOn _ m => progOn m s = .next t
  | .cvProgOff _ _ => progOff s = .next t
  | .cvWrite opc m => cvWrite opc m s = .next t
  | .cvRead opc m => cvRead opc m s = .next t
  | .cvSlaveWrite _ payload => slaveWrite payload s = .next t
  | .cvSlaveRead _ payload => slaveRead payload s = .next t

/-- Every instruction but `RESET` runs only when the CORE is up. -/
theorem exec_whenUp (i : Instr) (s : State) (hi : i ≠ .reset) : ∃ op, exec i s = whenUp s op := by
  cases i
  case reset => exact absurd rfl hi
  all_goals
    simp only [exec, execEvBusFall, execEvBusRise, execEvTimerExpiry, execEvRxByte, execEvRxError,
      execEvTxReady, execEvTxComplete, execStep, execSvcCheck, execSvcAct, execEnqueue,
      execLongAck, execRegister, execUnregister, execReadReg, execFrameFixed2, execFrameFixed4,
      execFrameFixed6, execFrameVariable, execOpcPeerXfer, execOpcImmPacket, execOpcWrSlData,
      execOpcSlRdData, execOpcLongAck, execCvProgOn, execCvProgOff, execCvWrite, execCvRead,
      execCvSlaveWrite, execCvSlaveRead, frameStep]
    exact ⟨_, rfl⟩

/-- Every instruction runs only from a state no mark stands in. -/
theorem exec_gate (i : Instr) (s : State) : ∃ op, exec i s = gate s op := by
  by_cases hi : i = .reset
  · subst hi; simp only [exec, execReset]; exact ⟨_, rfl⟩
  · obtain ⟨op, h⟩ := exec_whenUp i s hi; exact ⟨_, h⟩

theorem exec_notUp (hl : s.Live) (hu : s.up = false) (hi : i ≠ .reset) :
    exec i s = .refused .notUp := by
  obtain ⟨op, h⟩ := exec_whenUp i s hi
  rw [h, whenUp_notUp hl hu]

theorem exec_hung {h : Hold} (hf : s.fault = none) (hr : s.refused = false) (hh : s.hung = some h)
    (i : Instr) : exec i s = .next s := by
  obtain ⟨op, e⟩ := exec_gate i s
  rw [e, gate_hung hf hr hh]

theorem exec_faulted {f : Fault} (hf : s.fault = some f) (i : Instr) : exec i s = .fault f := by
  obtain ⟨op, e⟩ := exec_gate i s
  rw [e, gate_faulted hf]

theorem exec_refused (hf : s.fault = none) (hr : s.refused = true) (i : Instr) :
    exec i s = .refused .afterRefusal := by
  obtain ⟨op, e⟩ := exec_gate i s
  rw [e, gate_refused hf hr]

/-- A gated operation, with what it did. -/
theorem whenUp_did {op : State → Outcome} {P : Prop} (h : whenUp s op = .next t)
    (hp : op s = .next t → P) : (t = s ∧ s.hung ≠ none) ∨ (s.Live ∧ P) := by
  rcases whenUp_eq_next h with ⟨hr, h⟩ | h
  · exact .inr ⟨hr.1, hp h⟩
  · exact .inl h

/-- An instruction answers a next state by its effect, or because the machine is held. -/
theorem exec_eq_next (h : exec i s = .next t) : (t = s ∧ s.hung ≠ none) ∨ (s.Live ∧ Did i s t) := by
  have hn : ∀ {a b : State}, (Host.Outcome.next a : Outcome) = .next b → b = a := fun h => by
    cases h; rfl
  cases i <;> simp only [exec, execReset, execEvBusFall, execEvBusRise, execEvTimerExpiry,
    execEvRxByte, execEvRxError, execEvTxReady, execEvTxComplete, execStep, execSvcCheck,
    execSvcAct, execEnqueue, execLongAck, execRegister, execUnregister, execReadReg,
    execFrameFixed2, execFrameFixed4, execFrameFixed6, execFrameVariable, execOpcPeerXfer,
    execOpcImmPacket, execOpcWrSlData, execOpcSlRdData, execOpcLongAck, execCvProgOn,
    execCvProgOff, execCvWrite, execCvRead, execCvSlaveWrite, execCvSlaveRead, frameStep] at h
  case reset =>
    rcases gate_eq_next h with ⟨hl, h⟩ | h
    · split at h
      · exact .inr ⟨hl, ‹_›, hn h⟩
      · cases h
    · exact .inl h
  case evRxByte b =>
    refine whenUp_did h fun h => ?_
    split at h
    · exact .inl ⟨(‹_ ∧ _›).1, (‹_ ∧ _›).2, hn h⟩
    · exact .inr ⟨‹_›, h⟩
  case evBusFall => exact whenUp_did h hn
  case evBusRise => exact whenUp_did h hn
  case evTimerExpiry => exact whenUp_did h hn
  case evRxError => exact whenUp_did h hn
  case evTxReady => exact whenUp_did h hn
  case evTxComplete => exact whenUp_did h hn
  case svcCheck => exact whenUp_did h hn
  case svcAct => exact whenUp_did h hn
  case step => exact whenUp_did h fun h => ⟨_, h⟩
  case frameFixed2 _ _ => exact whenUp_did h fun h => ⟨_, h⟩
  case frameFixed4 _ _ _ _ => exact whenUp_did h fun h => ⟨_, h⟩
  case frameFixed6 _ _ _ _ _ _ => exact whenUp_did h fun h => ⟨_, h⟩
  case frameVariable _ _ _ => exact whenUp_did h fun h => ⟨_, h⟩
  case opcPeerXfer _ _ => exact whenUp_did h fun h => ⟨_, h⟩
  case opcImmPacket _ _ => exact whenUp_did h fun h => ⟨_, h⟩
  case opcWrSlData _ _ => exact whenUp_did h fun h => ⟨_, h⟩
  case opcSlRdData _ _ => exact whenUp_did h fun h => ⟨_, h⟩
  case opcLongAck _ _ _ => exact whenUp_did h fun h => ⟨_, h⟩
  case register k hid =>
    refine whenUp_did h fun h => ?_
    simp only [withEntry] at h
    split at h
    · split at h
      · cases h
      · exact ⟨‹_›, by omega, hn h⟩
    · cases h
  case unregister k hid =>
    refine whenUp_did h fun h => ?_
    simp only [withEntry] at h
    split at h
    · exact ⟨‹_›, hn h⟩
    · cases h
  case readReg r =>
    refine whenUp_did h fun h => ?_
    simp only [withRegister] at h
    split at h
    · exact ⟨‹_›, hn h⟩
    · cases h
  case enqueue _ _ => exact whenUp_did h id
  case longAck _ _ => exact whenUp_did h id
  case cvProgOn _ _ => exact whenUp_did h id
  case cvProgOff _ _ => exact whenUp_did h id
  case cvWrite _ _ => exact whenUp_did h id
  case cvRead _ _ => exact whenUp_did h id
  case cvSlaveWrite _ _ => exact whenUp_did h id
  case cvSlaveRead _ _ => exact whenUp_did h id

/-- A wire frame is the framer at work on its bytes. -/
theorem exec_wireFrame (hr : s.Ready) (hf : framer i = true) (hs : i ≠ .step) :
    exec i s = framerOn (encode s.params i) s := by
  cases i <;> simp only [framer] at hf <;> try cases hf
  case step => exact absurd rfl hs
  all_goals
    simp only [exec, execFrameFixed2, execFrameFixed4, execFrameFixed6, execFrameVariable,
      execOpcPeerXfer, execOpcImmPacket, execOpcWrSlData, execOpcSlRdData, execOpcLongAck, frameStep,
      whenUp_ready hr, encode]

/-- A well-formed wire frame is a valid frame. -/
theorem validFrame_of_wf {p : Params} (hf : framer i = true) (hs : i ≠ .step)
    (hw : i.wf p = true) : validFrame (encode p i) = true := by
  cases i <;> simp only [framer] at hf <;> try cases hf
  case step => exact absurd rfl hs
  all_goals
    simp only [Instr.wf, Bool.and_eq_true] at hw
    exact hw.2

/-- A well-formed wire frame whose handlers are the CV unit and then external ones. -/
theorem exec_wireFrame_cv {f : Frame} {opc : Byte} {ext : List RegEntry} (hr : s.Ready) (hf : framer i = true)
    (hi : i ≠ .step) (hw : i.wf s.params = true) (he : f = encode s.params i)
    (ho : f.head? = some opc)
    (hreg : s.reg.filter (fun e => e.key = key opc) = ⟨key opc, 0⟩ :: ext)
    (hx : ∀ e ∈ ext, e.hid ≠ 0) :
    exec i s =
      thenDo (cvHandle opc (f.drop (hdr opc)) (s.advance f.length)) fun t =>
        .next { t with
          out := t.out ++ ext.map fun e => .dispatch e.hid opc (f.drop (hdr opc))
          result := .step .handled } := by
  have hv := validFrame_of_wf hf hi hw
  rw [← he] at hv
  have := examine_valid hv ho []
  rw [List.append_nil] at this
  rw [exec_wireFrame hr hf hi, ← he, framerOn, this]
  dsimp only
  rw [dispatch, dispatchTo_cv (s.advance f.length) (by exact hreg) hx]
  cases cvHandle opc (f.drop (hdr opc)) (s.advance f.length) <;> rfl

/-- The instructions that only queue frames and run the CV unit: all they write. -/
theorem Did.effect (h : Did i s t)
    (hi : framer i = true ∨ cvRequestInstr i = true ∨ (∃ opc d, i = .enqueue opc d) ∨
      ∃ opc code, i = .longAck opc code) :
    ∃ rd r u, Effect { s with rd := rd } u ∧ t = { u with result := r } ∧
      (framer i = false → rd = s.rd ∧ t = u) ∧ (s.rd < s.params.cap → rd < s.params.cap) := by
  have hq : ∀ {u}, Effect s u → ∃ rd r v, Effect { s with rd := rd } v ∧
      u = { v with result := r } ∧ (framer i = false → rd = s.rd ∧ u = v) ∧
      (s.rd < s.params.cap → rd < s.params.cap) :=
    fun {u} h => ⟨s.rd, u.result, u, h, rfl, fun _ => ⟨rfl, rfl⟩, id⟩
  cases i <;> simp only [Did] at h
  case enqueue => exact hq (enqueueFrame_effect h)
  case longAck => exact hq (longAck_effect h)
  case cvProgOn => exact hq (progOn_effect h)
  case cvProgOff => exact hq (progOff_effect h)
  case cvWrite => exact hq (cvWriteWith_effect h)
  case cvRead => exact hq (cvRead_effect h)
  case cvSlaveWrite => exact hq (slaveWrite_effect h)
  case cvSlaveRead => exact hq (slaveRead_effect h)
  all_goals first
    | (simp [framer, cvRequestInstr] at hi; done)
    | (obtain ⟨bs, h⟩ := h
       obtain ⟨rd, r, u, he, ht, hr⟩ := framerOn_eq_next h
       exact ⟨rd, .step r, u, he, ht, fun hf => by simp [framer] at hf, hr⟩)

/-- The queue and the transmitter after any instruction but `RESET`: frames join behind, the head starts,
the frame in flight goes back to the head, or the queue stands. -/
theorem Did.queue (h : Did i s t) (hi : i ≠ .reset) :
    (t.transmitting = s.transmitting ∧ t.txState = s.txState ∧ ∃ fs, t.txq = s.txq ++ fs) ∨
    (i = .svcAct ∧ ∃ f, s.txq = f :: t.txq ∧ t.txState = .sending f 0) ∨
    ((i = .evRxError ∨ ∃ b, i = .evRxByte b ∧ s.transmitting = true ∧ s.lastSent ≠ some b) ∧
      s.transmitting = true ∧ ∃ f c, s.txState = .sending f c ∧
      t.txq = f :: s.txq ∧ t.txState = .none ∧ t.transmitting = false) ∨
    (notification i = true ∧ t.txq = s.txq ∧ (s.txState = .none → t.txState = .none) ∧
      (s.transmitting = false → t.transmitting = false)) := by
  have hd := h
  have hc : ∀ cause, t = collide cause s →
      (s.transmitting = true ∧ ∃ f c, s.txState = .sending f c ∧ t.txq = f :: s.txq ∧ t.txState = .none ∧ t.transmitting = false) ∨
      (t.txq = s.txq ∧ (s.txState = .none → t.txState = .none) ∧ (s.transmitting = false → t.transmitting = false)) := by
    intro cause e
    rw [e]
    rcases collide_queue cause s with h | ⟨h1, h2, h3⟩
    · exact .inl h
    · exact .inr ⟨h1, fun hx => by rw [h2, hx], fun _ => h3⟩
  cases i <;> simp only [Did] at h
  case reset => exact absurd rfl hi
  case evBusFall => rw [h]; exact .inl ⟨rfl, rfl, [], by simp⟩
  case evBusRise => rw [h]; exact .inl ⟨rfl, rfl, [], by simp⟩
  case evTimerExpiry =>
    refine .inl ?_
    rw [h]; unfold timerExpired cdExpired mdExpired pdExpired
    repeat' split
    all_goals first
      | (refine ⟨rfl, rfl, [], ?_⟩; simp; done)
      | (rw [lbExpired_eq]; refine ⟨rfl, rfl, [], ?_⟩; simp)
  case evRxByte =>
    rcases h with ⟨h1, h2, h⟩ | ⟨-, h⟩
    · rcases hc _ h with h | h
      · exact .inr (.inr (.inl ⟨.inr ⟨_, rfl, h1, h2⟩, h⟩))
      · exact .inr (.inr (.inr ⟨rfl, h⟩))
    · rcases push_eq_next h with ⟨-, rfl⟩ | ⟨-, rfl⟩ <;> exact .inl ⟨rfl, rfl, [], by simp⟩
  case evRxError =>
    rcases hc _ h with h | h
    · exact .inr (.inr (.inl ⟨.inl rfl, h⟩))
    · exact .inr (.inr (.inr ⟨rfl, h⟩))
  case evTxReady =>
    refine .inr (.inr (.inr ⟨rfl, ?_⟩))
    rw [h]; unfold txReady
    repeat' split
    all_goals simp_all
  case evTxComplete =>
    refine .inr (.inr (.inr ⟨rfl, ?_⟩))
    rw [h]; unfold txComplete
    split <;> simp_all
  case svcCheck => rw [h]; exact .inl ⟨rfl, rfl, [], by simp⟩
  case svcAct =>
    rw [h]; split
    · unfold startTransmission
      split
      · rename_i f q hq; exact .inr (.inl ⟨rfl, f, hq, rfl⟩)
      · exact .inl ⟨rfl, rfl, [], by simp⟩
    · exact .inl ⟨rfl, rfl, [], by simp⟩
  case register => rw [h.2.2]; exact .inl ⟨rfl, rfl, [], by simp⟩
  case unregister => rw [h.2]; exact .inl ⟨rfl, rfl, [], by simp⟩
  case readReg => rw [h.2]; exact .inl ⟨rfl, rfl, [], by simp⟩
  all_goals
    obtain ⟨rd, r, u, he, rfl, -⟩ := hd.effect (by simp [framer, cvRequestInstr])
    obtain ⟨fs, hq, -⟩ := he.queue
    exact .inl ⟨by rw [he.frame], by rw [he.frame], fs, hq⟩

/-- The trace only grows. -/
theorem Did.trace (h : Did i s t) : ∃ es, t.out = s.out ++ es := by
  have hd := h
  cases i <;> simp only [Did] at h
  case reset => rw [h.2]; exact ⟨[], by simp [resetFields]⟩
  case evBusFall => rw [h]; exact ⟨_, rfl⟩
  case evBusRise => rw [h]; exact ⟨_, rfl⟩
  case evTimerExpiry =>
    rw [h]; unfold timerExpired cdExpired mdExpired pdExpired
    repeat' split
    all_goals first
      | (refine ⟨[], ?_⟩; simp; done)
      | exact ⟨_, rfl⟩
      | (rw [lbExpired_eq]; exact ⟨_, rfl⟩)
  case evRxByte =>
    rcases h with ⟨-, -, rfl⟩ | ⟨-, h⟩
    · rw [collide_eq]; exact ⟨_, rfl⟩
    · rcases push_eq_next h with ⟨-, rfl⟩ | ⟨-, rfl⟩ <;> exact ⟨[], by simp⟩
  case evRxError => rw [h, collide_eq]; exact ⟨_, rfl⟩
  case evTxReady =>
    rw [h]; unfold txReady
    repeat' split
    all_goals first
      | (refine ⟨[], ?_⟩; simp; done)
      | exact ⟨_, rfl⟩
  case evTxComplete =>
    rw [h]; unfold txComplete
    split
    all_goals first
      | (refine ⟨[], ?_⟩; simp; done)
      | exact ⟨_, rfl⟩
  case svcCheck => rw [h]; exact ⟨[], by simp⟩
  case svcAct =>
    rw [h]; unfold startTransmission
    repeat' split
    all_goals first
      | (refine ⟨[], ?_⟩; simp; done)
      | exact ⟨_, rfl⟩
  case register => rw [h.2.2]; exact ⟨[], by simp⟩
  case unregister => rw [h.2]; exact ⟨[], by simp⟩
  case readReg => rw [h.2]; exact ⟨[], by simp⟩
  all_goals
    obtain ⟨rd, r, u, he, rfl, -⟩ := hd.effect (by simp [framer, cvRequestInstr])
    obtain ⟨es, hq, -⟩ := he.trace
    exact ⟨es, hq⟩

/-- A step stands still, or is the effect of the command it fetches. -/
theorem step_eq_next (h : step s = .next t) :
    t = s ∨ ∃ i rest, s.Live ∧ exec i { s with input := rest } = .next t := by
  rcases gate_eq_next h with ⟨hl, h⟩ | h
  · split at h
    · cases h; exact .inl rfl
    · cases h
    · exact .inr ⟨_, _, hl, h⟩
  · exact .inl h.1

end Sys2Proof.Machine
end

