-- ==== Sys2Proof/Laws/Invariant.lean ====
section
/-! SUPPORT. What keeps the invariant of the CORE. -/

namespace Sys2Proof.Machine

variable {s t : State}

/-- A state that differs only in the reader, the timer and the latch. -/
theorem State.Inv.congr (h : s.Inv) (hp : t.params = s.params) (h1 : t.rd < t.params.cap)
    (h2 : t.wr = s.wr) (h3 : t.rb = s.rb) (h4 : t.store = s.store) (h5 : t.reg = s.reg)
    (h6 : t.up = s.up) (h7 : t.txq = s.txq) (h8 : t.txState = s.txState)
    (h9 : t.transmitting = s.transmitting) (h10 : t.timer = none ↔ t.arbState = .idle)
    (h11 : t.svcLatch = true → t.txq ≠ [] ∧ t.txState = .none) : t.Inv := by
  constructor
  · rw [hp]; exact h.params
  · exact h1
  · rw [h2, hp]; exact h.wr
  · rw [h3]; exact h.rb
  · rw [h3, hp]; exact h.rbBound
  · rw [h4]; exact h.store
  · rw [h5, hp]; exact h.regCap
  · rw [h5, h6, hp]; exact h.regCv
  · have := h.txqCap; unfold framesHeld at *; rw [h7, h8, hp]; exact this
  · rw [h7]; exact h.txqValid
  · rw [h8]; exact h.sending
  · rw [h9, h8]; exact h.flag
  · exact h10
  · exact h11

/-- A collision keeps the invariant. -/
theorem State.Inv.collide (h : s.Inv) (cause : Cause) : (Machine.collide cause s).Inv := by
  have hf := h.flag
  rw [collide_eq, requeue_eq h.flag]
  have hsend := h.sending
  have hv := h.txqValid
  have hcap := h.txqCap
  constructor
  · exact h.params
  · exact h.rd
  · exact h.wr
  · exact h.rb
  · exact h.rbBound
  · exact h.store
  · exact h.regCap
  · exact h.regCv
  · unfold framesHeld at *
    cases hx : s.txState <;> simp_all
  · cases hx : s.txState with
    | none => simpa using hv
    | draining f => simpa using hv
    | sending f c => 
      intro g hg
      rcases List.mem_cons.1 hg with rfl | hg
      · exact (hsend _ _ hx).1
      · exact hv g hg
  · intro f c h
    cases hx : s.txState <;> simp [hx] at h
  · cases hx : s.txState <;> simp [TxState.isSending]
  · simp
  · intro hl
    have := h.latch hl
    cases hx : s.txState <;> simp_all

/-- What a dispatch may write keeps the invariant. -/
theorem State.Inv.effect (h : s.Inv) (he : Effect s t) : t.Inv := by
  have hp := he.params
  have hq := he.queue
  have hroom := he.room h.txqCap
  have hw := he.wf h.store
  have hfr := he.frame
  have fields : t.rd = s.rd ∧ t.wr = s.wr ∧ t.rb = s.rb ∧ t.reg = s.reg ∧ t.up = s.up ∧
      t.txState = s.txState ∧ t.transmitting = s.transmitting ∧ t.timer = s.timer ∧
      t.arbState = s.arbState ∧ t.svcLatch = s.svcLatch := by
    rw [hfr]; simp
  obtain ⟨f1, f2, f3, f4, f5, f6, f7, f8, f9, f10⟩ := fields
  obtain ⟨fs, q1, q2⟩ := hq
  constructor
  · rw [hp]; exact h.params
  · rw [f1, hp]; exact h.rd
  · rw [f2, hp]; exact h.wr
  · rw [f3]; exact h.rb
  · rw [f3, hp]; exact h.rbBound
  · exact hw
  · rw [f4, hp]; exact h.regCap
  · rw [f4, f5, hp]; exact h.regCv
  · rw [hp]; exact hroom
  · intro f hf
    rw [q1] at hf
    rcases List.mem_append.1 hf with hf | hf
    · exact h.txqValid f hf
    · exact q2 f hf
  · rw [f6]; exact h.sending
  · rw [f6, f7]; exact h.flag
  · rw [f8, f9]; exact h.timer
  · rw [f10, f6]; intro hl
    have := h.latch hl
    exact ⟨by rw [q1]; simp [this.1], this.2⟩

end Sys2Proof.Machine
end

