-- ==== Sys2Proof/Laws/PerInstr.lean ====
section
/-! SUPPORT. The family `RoundTrip`: each instruction comes back from its encoding, a command at the
command port, a wire frame at the framer's reader, a CV request in the frame that carries it. -/

namespace Sys2Proof.Laws

open Sys2Proof.Machine

/-- Decoding the encoded instruction gives it back, whatever bytes follow. -/
def RoundTrip.Statement (i : Instr) : Prop :=
  ∀ (p : Params) (rest : List Byte), p.WF → i.encodable p = true →
    (framer i = false ∨ i = .step → cvRequestInstr i = false →
      decodeCommand (encode p i ++ rest) = .ok (i, rest)) ∧
    (framer i = true → i ≠ .step → decodeWire p (encode p i ++ rest) = .ok i) ∧
    (cvRequestInstr i = true → ∃ opc payload, (encode p i).head? = some opc ∧
      (encode p i).drop (hdr opc) = payload ∧ decodeCv p opc payload = some i)

namespace RoundTrip

/-- A command comes back if its bytes decode to it. -/
theorem of_command {i : Instr} (hw : framer i = false ∨ i = .step) (hc : cvRequestInstr i = false)
    (h : ∀ p rest, i.encodable p = true → decodeCommand (encode p i ++ rest) = .ok (i, rest)) :
    Statement i := by
  refine fun p rest _ he => ⟨fun _ _ => h p rest he, fun hf hn => ?_, fun hf => ?_⟩
  · rcases hw with hw | hw
    · rw [hw] at hf; cases hf
    · exact absurd hw hn
  · rw [hc] at hf; cases hf

/-- A wire frame comes back if the bytes at the reader decode to it. -/
theorem of_wire {i : Instr} (hw : framer i = true) (hn : i ≠ .step) (hc : cvRequestInstr i = false)
    (h : ∀ p rest, p.WF → i.encodable p = true → decodeWire p (encode p i ++ rest) = .ok i) :
    Statement i := by
  refine fun p rest hp he => ⟨fun hf _ => ?_, fun _ _ => h p rest hp he, fun hf => ?_⟩
  · rcases hf with hf | hf
    · rw [hw] at hf; cases hf
    · exact absurd hf hn
  · rw [hc] at hf; cases hf

/-- A CV request comes back if the frame that carries it does. -/
theorem of_cv {i : Instr} (hw : framer i = false) (hc : cvRequestInstr i = true)
    (h : ∀ p, p.WF → i.encodable p = true → ∃ opc payload, (encode p i).head? = some opc ∧
      (encode p i).drop (hdr opc) = payload ∧ decodeCv p opc payload = some i) :
    Statement i := by
  refine fun p rest hp he => ⟨fun _ hf => ?_, fun hf => ?_, fun _ => h p hp he⟩
  · rw [hc] at hf; cases hf
  · rw [hw] at hf; cases hf

/-- A variable frame whose body has the length its length byte says. -/
theorem wire_variable {p : Params} {opc len : Byte} {body rest : List Byte}
    (ho : frameClass opc = 7) (hb : bodyFits len body = true) :
    decodeWire p (opc :: len :: body ++ rest) = .ok (wireVariable p opc len body) := by
  have hm : opc.msb = true := by rw [msb_of_class ho]; rfl
  have hl : body.length = len.toNat - 2 := by simpa [bodyFits] using hb
  simp [decodeWire, hm, ho, ← hl]

/-- A CV request message, from the frame that carries it. -/
theorem carried {p : Params} {opc : Byte} {m : CvMessage} (h : cvCarried p opc m = true) :
    ∃ opc' payload, (cvFrame opc m).head? = some opc' ∧
      (cvFrame opc m).drop (hdr opc') = payload ∧
      decodeCv p opc' payload = some (cvRequest p opc m) := by
  simp only [cvCarried, Bool.and_eq_true, beq_iff_eq, decide_eq_true_eq] at h
  obtain ⟨⟨⟨hc, hk⟩, hs⟩, hm⟩ := h
  have hu : ∀ chk, CvMessage.unpack (m.pack ++ [chk]) = m := by
    intro chk; rw [unpack_pack, ← hm]
  refine ⟨opc, _, rfl, rfl, ?_⟩
  simp only [cvFrame, withChecksum, hdr, hc, if_true, List.cons_append, List.drop_succ_cons,
    List.drop_zero, decodeCv, if_pos hk, hu]
  rw [if_pos ⟨rfl, hs⟩]

/-- A slave-data payload, from the frame that carries it. -/
theorem payload_frame (opc : Byte) (payload : List Byte) :
    (payloadFrame opc payload).head? = some opc ∧
      (payloadFrame opc payload).drop (hdr opc) = payload := by
  unfold payloadFrame hdr
  split <;> simp

theorem reset : Statement .reset :=
  of_command (by simp [framer]) rfl fun _ _ _ => rfl

theorem evBusFall : Statement .evBusFall :=
  of_command (by simp [framer]) rfl fun _ _ _ => rfl

theorem evBusRise : Statement .evBusRise :=
  of_command (by simp [framer]) rfl fun _ _ _ => rfl

theorem evTimerExpiry : Statement .evTimerExpiry :=
  of_command (by simp [framer]) rfl fun _ _ _ => rfl

theorem evRxByte (b : Byte) : Statement (.evRxByte b) :=
  of_command (by simp [framer]) rfl fun _ _ _ => rfl

theorem evRxError : Statement .evRxError :=
  of_command (by simp [framer]) rfl fun _ _ _ => rfl

theorem evTxReady : Statement .evTxReady :=
  of_command (by simp [framer]) rfl fun _ _ _ => rfl

theorem evTxComplete : Statement .evTxComplete :=
  of_command (by simp [framer]) rfl fun _ _ _ => rfl

theorem step : Statement .step :=
  of_command (by simp [framer]) rfl fun _ _ _ => rfl

theorem svcCheck : Statement .svcCheck :=
  of_command (by simp [framer]) rfl fun _ _ _ => rfl

theorem svcAct : Statement .svcAct :=
  of_command (by simp [framer]) rfl fun _ _ _ => rfl

theorem enqueue (opc : Byte) (d : List Byte) : Statement (.enqueue opc d) :=
  of_command (by simp [framer]) rfl fun p rest he => by
    have hd : d.length < 256 := by simpa [Instr.encodable] using he
    have hn : (BitVec.ofNat 8 d.length).toNat = d.length := by
      simpa using Nat.mod_eq_of_lt hd
    simp [encode, decodeCommand, operandFrame, hn]

theorem longAck (opc code : Byte) : Statement (.longAck opc code) :=
  of_command (by simp [framer]) rfl fun _ _ _ => rfl

theorem register (key hid : Byte) : Statement (.register key hid) :=
  of_command (by simp [framer]) rfl fun _ _ _ => rfl

theorem unregister (key hid : Byte) : Statement (.unregister key hid) :=
  of_command (by simp [framer]) rfl fun _ _ _ => rfl

theorem readReg (r : Byte) : Statement (.readReg r) :=
  of_command (by simp [framer]) rfl fun _ _ _ => rfl

theorem frameFixed2 (k : BitVec 5) (chk : Byte) : Statement (.frameFixed2 k chk) :=
  of_wire rfl (by simp) rfl fun p rest _ _ => by
    have hm : (4#3).msb = true := by decide
    simp [encode, decodeWire, hm]

theorem frameFixed4 (k : BitVec 5) (d0 d1 chk : Byte) : Statement (.frameFixed4 k d0 d1 chk) :=
  of_wire rfl (by simp) rfl fun p rest _ he => by
    have hm : (5#3).msb = true := by decide
    have ho : mkOpc 5#3 k ≠ p.opcLongAck := by simpa [Instr.encodable] using he
    simp [encode, decodeWire, hm, wireFixed4, ho]

theorem frameFixed6 (k : BitVec 5) (d0 d1 d2 d3 chk : Byte) :
    Statement (.frameFixed6 k d0 d1 d2 d3 chk) :=
  of_wire rfl (by simp) rfl fun p rest _ _ => by
    have hm : (6#3).msb = true := by decide
    simp [encode, decodeWire, hm]

theorem frameVariable (k : BitVec 5) (len : Byte) (body : List Byte) :
    Statement (.frameVariable k len body) :=
  of_wire rfl (by simp) rfl fun p rest _ he => by
    simp only [Instr.encodable, Bool.and_eq_true, unnamedVariable, decide_eq_true_eq,
      Params.cvOpcodes, List.mem_cons, List.not_mem_nil, or_false, not_or] at he
    obtain ⟨⟨h1, h2, h3, h4⟩, hb⟩ := he
    rw [encode, wire_variable (by simp) hb, wireVariable]
    rw [if_neg h1, if_neg h2, if_neg h3, if_neg h4, key_mkOpc]

theorem opcPeerXfer (len : Byte) (body : List Byte) : Statement (.opcPeerXfer len body) :=
  of_wire rfl (by simp) rfl fun p rest _ he => by
    rw [encode, wire_variable (by decide) he, wireVariable]
    simp

theorem opcImmPacket (len : Byte) (body : List Byte) : Statement (.opcImmPacket len body) :=
  of_wire rfl (by simp) rfl fun p rest hp he => by
    rw [encode, wire_variable hp.classes.1 he, wireVariable]
    simp [hp.opcodes]

theorem opcWrSlData (len : Byte) (body : List Byte) : Statement (.opcWrSlData len body) :=
  of_wire rfl (by simp) rfl fun p rest hp he => by
    rw [encode, wire_variable hp.classes.2.1 he, wireVariable]
    simp [hp.opcodes]

theorem opcSlRdData (len : Byte) (body : List Byte) : Statement (.opcSlRdData len body) :=
  of_wire rfl (by simp) rfl fun p rest hp he => by
    rw [encode, wire_variable hp.classes.2.2.1 he, wireVariable]
    simp [hp.opcodes]

theorem opcLongAck (d0 d1 chk : Byte) : Statement (.opcLongAck d0 d1 chk) :=
  of_wire rfl (by simp) rfl fun p rest hp _ => by
    have hc := hp.classes.2.2.2
    have hm : p.opcLongAck.msb = true := by rw [msb_of_class hc]; rfl
    simp [encode, decodeWire, hm, hc, wireFixed4]

theorem cvProgOn (opc : Byte) (m : CvMessage) : Statement (.cvProgOn opc m) :=
  of_cv rfl rfl fun p _ he => by
    simp only [Instr.encodable, Bool.and_eq_true, beq_iff_eq] at he
    have h := carried he.1
    rwa [he.2] at h

theorem cvProgOff (opc : Byte) (m : CvMessage) : Statement (.cvProgOff opc m) :=
  of_cv rfl rfl fun p _ he => by
    simp only [Instr.encodable, Bool.and_eq_true, beq_iff_eq] at he
    have h := carried he.1
    rwa [he.2] at h

theorem cvWrite (opc : Byte) (m : CvMessage) : Statement (.cvWrite opc m) :=
  of_cv rfl rfl fun p _ he => by
    simp only [Instr.encodable, Bool.and_eq_true, beq_iff_eq] at he
    have h := carried he.1
    rwa [he.2] at h

theorem cvRead (opc : Byte) (m : CvMessage) : Statement (.cvRead opc m) :=
  of_cv rfl rfl fun p _ he => by
    simp only [Instr.encodable, Bool.and_eq_true, beq_iff_eq] at he
    have h := carried he.1
    rwa [he.2] at h

theorem cvSlaveWrite (opc : Byte) (payload : List Byte) : Statement (.cvSlaveWrite opc payload) :=
  of_cv rfl rfl fun p hp he => by
    simp only [Instr.encodable, Bool.and_eq_true, beq_iff_eq] at he
    obtain ⟨h1, h2⟩ := payload_frame opc payload
    refine ⟨opc, payload, h1, h2, ?_⟩
    simp [decodeCv, he, hp.keys]

theorem cvSlaveRead (opc : Byte) (payload : List Byte) : Statement (.cvSlaveRead opc payload) :=
  of_cv rfl rfl fun p hp he => by
    simp only [Instr.encodable, Bool.and_eq_true, beq_iff_eq] at he
    obtain ⟨h1, h2⟩ := payload_frame opc payload
    refine ⟨opc, payload, h1, h2, ?_⟩
    simp [decodeCv, he, hp.keys]

end RoundTrip

end Sys2Proof.Laws
end

