-- ==== Sys2Proof/Machine/Assembler.lean ====
section
/-! DEFINITION. The assembler syntax of the command interface (30_encoding.md R114, R115): one command a
line, numbers in hexadecimal with `0x` or decimal, `;` starts a comment. Log entry 24. -/

namespace Sys2Proof.Machine

/-- The tokens of a line: `,`, `[` and `]` stand alone, blanks separate, `;` ends the line. `cur` is
the word being read, last letter first. -/
def lexLine (cur : List Char) : List Char → List (List Char)
  | []      => if cur = [] then [] else [cur.reverse]
  | c :: cs =>
    let done := if cur = [] then [] else [cur.reverse]
    if c = ';' then done
    else if c = ' ' ∨ c = '\t' then done ++ lexLine [] cs
    else if c = ',' ∨ c = '[' ∨ c = ']' then done ++ [c] :: lexLine [] cs
    else lexLine (c :: cur) cs

/-- The value of a digit in the base `base`. -/
def digitValue (base : Nat) (c : Char) : Option Nat :=
  let n :=
    if '0'.toNat ≤ c.toNat ∧ c.toNat ≤ '9'.toNat then c.toNat - '0'.toNat
    else if 'a'.toNat ≤ c.toNat ∧ c.toNat ≤ 'f'.toNat then c.toNat - 'a'.toNat + 10
    else if 'A'.toNat ≤ c.toNat ∧ c.toNat ≤ 'F'.toNat then c.toNat - 'A'.toNat + 10
    else base
  if n < base then some n else none

/-- The number its digits spell, `acc` being the value of the digits read. -/
def digitsValue (base acc : Nat) : List Char → Option Nat
  | []      => some acc
  | c :: cs => (digitValue base c).bind fun d => digitsValue base (acc * base + d) cs

/-- A byte operand. -/
def parseByte (w : List Char) : Option Byte :=
  let n :=
    match w with
    | '0' :: 'x' :: c :: cs => digitsValue 16 0 (c :: cs)
    | c :: cs               => digitsValue 10 0 (c :: cs)
    | []                    => none
  n.bind fun n => if n < 256 then some (BitVec.ofNat 8 n) else none

/-- A list of byte operands separated by commas. -/
def parseBytes : List (List Char) → Option (List Byte)
  | []                => some []
  | [w]               => (parseByte w).map fun b => [b]
  | w :: [','] :: ws  =>
    if ws = [] then none
    else (parseByte w).bind fun b => (parseBytes ws).map fun bs => b :: bs
  | _                 => none

/-- The commands without operands, and `service`. -/
def plainCommands : List (List Char × List Instr) :=
  [(['r', 'e', 's', 'e', 't'], [.reset]), (['f', 'a', 'l', 'l'], [.evBusFall]),
   (['r', 'i', 's', 'e'], [.evBusRise]), (['e', 'x', 'p', 'i', 'r', 'e'], [.evTimerExpiry]),
   (['r', 'x', 'e', 'r', 'r'], [.evRxError]), (['r', 'e', 'a', 'd', 'y'], [.evTxReady]),
   (['t', 'x', 'c'], [.evTxComplete]), (['s', 't', 'e', 'p'], [.step]),
   (['s', 'v', 'c', '.', 'c', 'h', 'e', 'c', 'k'], [.svcCheck]),
   (['s', 'v', 'c', '.', 'a', 'c', 't'], [.svcAct]),
   (['s', 'e', 'r', 'v', 'i', 'c', 'e'], service)]

/-- A command with byte operands. -/
def operandCommand (name : List Char) (bs : List Byte) : Option (List Instr) :=
  if name = ['r', 'x', 'f'] then some (rxf bs)
  else
    match bs with
    | [a] =>
      if name = ['r', 'x'] then some [.evRxByte a]
      else if name = ['r', 'd', 'r', 'e', 'g'] then some [.readReg a]
      else none
    | [a, b] =>
      if name = ['l', 'a', 'c', 'k'] then some [.longAck a b]
      else if name = ['r', 'e', 'g'] then some [.register a b]
      else if name = ['u', 'n', 'r', 'e', 'g'] then some [.unregister a b]
      else none
    | _ => none

/-- The instructions of a tokenized line; the loops `drain` and `poll` are no fixed sequence. -/
def parseTokens : List (List Char) → Option (List Instr)
  | [] => some []
  | name :: args =>
    match plainCommands.find? (fun c => decide (c.1 = name)) with
    | some c => if args = [] then some c.2 else none
    | none =>
      if name = ['e', 'n', 'q'] then
        match args with
        | w :: [','] :: ['['] :: ws =>
          if ws.getLast? = some [']'] then
            (parseByte w).bind fun opc =>
              (parseBytes ws.dropLast).bind fun d =>
                if d.length < 256 then some [.enqueue opc d] else none
          else none
        | _ => none
      else if args = [] then none
      else (parseBytes args).bind (operandCommand name)

/-- The instructions of one line (30_encoding.md R114). -/
def assembleLine (line : List Char) : Option (List Instr) := parseTokens (lexLine [] line)

/-- The command bytes of a program, a line each (30_encoding.md R110, R114). -/
def assemble (p : Params) (lines : List (List Char)) : Option (List Byte) :=
  (lines.mapM assembleLine).map fun is => is.flatten.flatMap (encode p)

end Sys2Proof.Machine
end

