-- ==== Sys2Proof/Tests/Slice0.lean ====
section
/-! SUPPORT. Tests: well-formedness, decoding of words written out from the spec, one small step per
instruction with results taken from 95_test_vectors.md (its vector ids are named), and a witness
for the hypotheses of every statement that has any. -/

namespace Sys2Proof.Tests

open Sys2Proof Sys2Proof.Machine

/-! ## Helpers -/

/-- The state of a next outcome. -/
def next? : Outcome → Option State
  | .next t    => some t
  | .fault _   => none
  | .refused _ => none

/-- The fault of an outcome. -/
def fault? : Outcome → Option Fault
  | .next _    => none
  | .fault f   => some f
  | .refused _ => none

/-- The refusal of an outcome. -/
def refusal? : Outcome → Option Refusal
  | .next _    => none
  | .fault _   => none
  | .refused r => some r

/-- One step of the state `s` with the bytes `bs` at the command port. -/
def stepOn (s : State) (bs : List Byte) : Outcome := step { s with input := bs }

/-- One framer step over the readable bytes `bs`. -/
def framed (s : State) (bs : List Byte) : Outcome := exec .step (s.withReadable bs)

/-- In programming mode. -/
def prog : State := { State.reset with progMode := true }

/-- With the handler 1 of key `k` registered. -/
def watched (k : BitVec 5) : State := { State.reset with reg := State.reset.reg ++ [⟨k, 1⟩] }

/-- A frame of the two-byte class, and one of the four-byte class. -/
def frame2 : Frame := [0x80, 0x80]
def frame4 : Frame := [0xA0, 0x01, 0x02, 0xA3]

/-- In the middle of a transmission. -/
def sending : State :=
  { State.reset with
    txState := .sending frame4 1, transmitting := true, busy := true, lastSent := some 0xA0 }

/-- With the transmit queue full. -/
def queueFull : State := { State.reset with txq := [frame2, frame2, frame2, frame2] }

/-- On a configured device. -/
def configured : State :=
  { State.reset with store := [(0, 0x0010), (1, 0x1234), (2, 0x0003)], address := 0x10, priority := 3 }

/-- A CvMessage of the recognized source, as a frame carries it. -/
def request (id : Byte) (n v : Word) (flags : Byte) : CvMessage :=
  let m : CvMessage := ⟨0x01, 0x0050, id, 0, 0x1234, n, v, flags⟩
  { m with msbBits := sideChannel m.valueBytes }

/-- A read, and a write. -/
def readOf (n : Word) : CvMessage := request 0x1F n 0 0
def writeOf (n v : Word) : CvMessage := request 0x20 n v 0

/-- The response frame of vectors CV1, CV16 and CV21. -/
def response : Frame :=
  [0xE5, 0x0F, 0x05, 0x50, 0x00, 0x1F, 0x00, 0x34, 0x12, 0x00, 0x00, 0x01, 0x00, 0x00, 0x87]

/-- The read request of vector CV16. -/
def readFrame : Frame :=
  [0xE5, 0x0F, 0x01, 0x50, 0x00, 0x1F, 0x00, 0x34, 0x12, 0x00, 0x00, 0x00, 0x00, 0x00, 0x82]

/-! ## Well-formedness: an ill-formed term for each check -/

theorem smoke_enqueue_too_long :
    (Instr.enqueue 0xE0 (List.replicate 256 0)).encodable .reference = false := by
  rw [Instr.encodable, List.length_replicate]; rfl
theorem smoke_fixed4_is_long_ack :
    (Instr.frameFixed4 0x14 0x65 0x7F 0xAE).encodable .reference = false := by decide
theorem smoke_variable_is_named :
    (Instr.frameVariable 0x05 0x03 [0xE6]).encodable .reference = false := by decide
theorem smoke_variable_body : (Instr.frameVariable 0 0x04 [0xE3]).encodable .reference = false := by
  decide
theorem smoke_peer_body : (Instr.opcPeerXfer 0x0F [0]).encodable .reference = false := by decide
theorem smoke_imm_body : (Instr.opcImmPacket 0x03 []).encodable .reference = false := by decide
theorem smoke_wr_body : (Instr.opcWrSlData 0x03 []).encodable .reference = false := by decide
theorem smoke_sl_body : (Instr.opcSlRdData 0x03 []).encodable .reference = false := by decide
theorem smoke_cv_class : (Instr.cvRead 0xC5 (readOf 0)).encodable .reference = false := by decide
theorem smoke_cv_key : (Instr.cvRead 0xE4 (readOf 0)).encodable .reference = false := by decide
theorem smoke_cv_source :
    (Instr.cvRead 0xE5 { readOf 0 with source := 5 }).encodable .reference = false := by decide
theorem smoke_cv_side_channel :
    (Instr.cvRead 0xE5 { readOf 0 with msbBits := 1 }).encodable .reference = false := by decide
theorem smoke_prog_on_kind : (Instr.cvProgOn 0xE5 (readOf 0)).encodable .reference = false := by
  decide
theorem smoke_prog_off_kind : (Instr.cvProgOff 0xE5 (readOf 0)).encodable .reference = false := by
  decide
theorem smoke_write_kind : (Instr.cvWrite 0xE5 (readOf 0)).encodable .reference = false := by decide
theorem smoke_read_kind : (Instr.cvRead 0xE5 (writeOf 0 0)).encodable .reference = false := by decide
theorem smoke_slave_write_key :
    (Instr.cvSlaveWrite 0xE5 [0x7C, 0x01]).encodable .reference = false := by decide
theorem smoke_slave_write_sentinel :
    (Instr.cvSlaveWrite 0xEF [0x7B, 0x01]).encodable .reference = false := by decide
theorem smoke_slave_read_key :
    (Instr.cvSlaveRead 0xEF [0x7C, 0x01]).encodable .reference = false := by decide
theorem smoke_slave_read_sentinel :
    (Instr.cvSlaveRead 0xE7 []).encodable .reference = false := by decide
theorem smoke_enqueue_opcode : (Instr.enqueue 0x20 [1, 2]).wf .reference = false := by decide
theorem smoke_enqueue_data : (Instr.enqueue 0xA0 [0x81, 2]).wf .reference = false := by decide
theorem smoke_enqueue_length : (Instr.enqueue 0xA0 [1]).wf .reference = false := by decide
theorem smoke_enqueue_length_byte : (Instr.enqueue 0xE0 [5, 1]).wf .reference = false := by decide
theorem smoke_enqueue_no_length : (Instr.enqueue 0xE0 []).wf .reference = false := by decide
theorem smoke_long_ack_code : (Instr.longAck 0xE5 0x80).wf .reference = false := by decide
theorem smoke_register_key : (Instr.register 0x20 1).wf .reference = false := by decide
theorem smoke_register_cv_unit : (Instr.register 0x05 0).wf .reference = false := by decide
theorem smoke_unregister_key : (Instr.unregister 0xFF 1).wf .reference = false := by decide
theorem smoke_unregister_cv_unit : (Instr.unregister 0x05 0).wf .reference = false := by decide
theorem smoke_read_reg : (Instr.readReg 4).wf .reference = false := by decide
theorem smoke_fixed2_checksum : (Instr.frameFixed2 0 0x81).wf .reference = false := by decide
theorem smoke_fixed4_checksum : (Instr.frameFixed4 0 1 2 0xA2).wf .reference = false := by decide
theorem smoke_fixed4_data_bit : (Instr.frameFixed4 0 0x81 0x01 0x20).wf .reference = false := by
  decide
theorem smoke_fixed6_checksum : (Instr.frameFixed6 0 1 2 3 4 0xC5).wf .reference = false := by
  decide
theorem smoke_variable_too_short : (Instr.frameVariable 0 0 []).wf .reference = false := by decide
theorem smoke_variable_checksum : (Instr.frameVariable 0 3 [0xE2]).wf .reference = false := by
  decide
theorem smoke_peer_checksum : (Instr.opcPeerXfer 3 [0xE7]).wf .reference = false := by decide
theorem smoke_imm_checksum : (Instr.opcImmPacket 3 [0xEF]).wf .reference = false := by decide
theorem smoke_wr_checksum : (Instr.opcWrSlData 4 [0x7C, 0]).wf .reference = false := by decide
theorem smoke_sl_checksum : (Instr.opcSlRdData 4 [0x7C, 0]).wf .reference = false := by decide
theorem smoke_wire_ack_checksum : (Instr.opcLongAck 0x65 0x7F 0xAF).wf .reference = false := by
  decide
theorem smoke_slave_write_checksum : (Instr.cvSlaveWrite 0xEF [0x7C, 0]).wf .reference = false := by
  decide
theorem smoke_slave_read_checksum : (Instr.cvSlaveRead 0xE7 [0x7C, 0]).wf .reference = false := by
  decide
theorem smoke_cv_request_id :
    (Instr.cvRead 0xE5 { readOf 0 with requestId := 0x9F }).wf .reference = false := by decide

/-! ## Decoding: words written out from the spec's encodings

Commands: 30_encoding.md R110, R111. Wire frames: R92, R105, with the checksums of
95_test_vectors.md. CV requests: the frames of vectors CV1, CV5, CV7, CV16, CV24, CV25. -/

theorem test_decode_reset : decodeCommand [0x00] = .ok (.reset, []) := by rfl
theorem test_decode_bus_fall : decodeCommand [0x01, 0x02] = .ok (.evBusFall, [0x02]) := by rfl
theorem test_decode_bus_rise : decodeCommand [0x02] = .ok (.evBusRise, []) := by rfl
theorem test_decode_timer : decodeCommand [0x03] = .ok (.evTimerExpiry, []) := by rfl
theorem test_decode_rx_byte : decodeCommand [0x04, 0xA0] = .ok (.evRxByte 0xA0, []) := by rfl
theorem test_decode_rx_error : decodeCommand [0x05] = .ok (.evRxError, []) := by rfl
theorem test_decode_tx_ready : decodeCommand [0x06] = .ok (.evTxReady, []) := by rfl
theorem test_decode_tx_complete : decodeCommand [0x07] = .ok (.evTxComplete, []) := by rfl
theorem test_decode_step : decodeCommand [0x10] = .ok (.step, []) := by rfl
theorem test_decode_svc_check : decodeCommand [0x11] = .ok (.svcCheck, []) := by rfl
theorem test_decode_svc_act : decodeCommand [0x12] = .ok (.svcAct, []) := by rfl
theorem test_decode_enqueue :
    decodeCommand [0x13, 0xA0, 0x02, 0x01, 0x02, 0x11] = .ok (.enqueue 0xA0 [0x01, 0x02], [0x11]) := by
  rfl
theorem test_decode_long_ack : decodeCommand [0x14, 0xE5, 0x7F] = .ok (.longAck 0xE5 0x7F, []) := by rfl
theorem test_decode_register : decodeCommand [0x15, 0x05, 0x01] = .ok (.register 0x05 0x01, []) := by
  rfl
theorem test_decode_unregister :
    decodeCommand [0x16, 0x05, 0x01] = .ok (.unregister 0x05 0x01, []) := by rfl
theorem test_decode_read_reg : decodeCommand [0x17, 0x03] = .ok (.readReg 0x03, []) := by rfl
theorem test_decode_unknown : decodeCommand [0x18, 0x00] = .error .unknownCommand := by rfl
theorem test_decode_truncated : decodeCommand [0x13, 0xA0, 0x02, 0x01] = .error .truncatedCommand := by
  rfl
theorem test_decode_fixed2 :
    decodeWire .reference [0b10000101, 0x85] = .ok (.frameFixed2 0b00101 0x85) := by rfl
theorem test_decode_fixed4 :
    decodeWire .reference [0b10100000, 0x01, 0x02, 0xA3] = .ok (.frameFixed4 0 1 2 0xA3) := by rfl
theorem test_decode_fixed6 :
    decodeWire .reference [0b11000000, 1, 2, 3, 4, 0xC4] = .ok (.frameFixed6 0 1 2 3 4 0xC4) := by rfl
theorem test_decode_variable :
    decodeWire .reference [0b11100000, 0x04, 0x55, 0xB1] = .ok (.frameVariable 0 4 [0x55, 0xB1]) := by
  rfl
theorem test_decode_peer_xfer :
    decodeWire .reference readFrame = .ok (.opcPeerXfer 0x0F (readFrame.drop 2)) := by rfl
theorem test_decode_imm_packet :
    decodeWire .reference (0xED :: readFrame.tail) = .ok (.opcImmPacket 0x0F (readFrame.drop 2)) := by
  rfl
theorem test_decode_wr_sl_data :
    decodeWire .reference [0xEF, 0x06, 0x7C, 0x01, 0x02, 0x96] =
      .ok (.opcWrSlData 0x06 [0x7C, 0x01, 0x02, 0x96]) := by rfl
theorem test_decode_sl_rd_data :
    decodeWire .reference [0xE7, 0x04, 0x7C, 0x9F] = .ok (.opcSlRdData 0x04 [0x7C, 0x9F]) := by rfl
theorem test_decode_wire_long_ack :
    decodeWire .reference [0xB4, 0x65, 0x7F, 0xAE] = .ok (.opcLongAck 0x65 0x7F 0xAE) := by rfl
theorem test_decode_stray : decodeWire .reference [0x05, 0xA0] = .error .strayByte := by rfl
theorem test_decode_incomplete : decodeWire .reference [0xE5, 0x0F, 0x01] = .error .incompleteFrame := by
  rfl
theorem test_decode_prog_on :
    decodeCv .reference 0xE5
        [0x01, 0x50, 0x00, 0x1F, 0x70, 0x34, 0x12, 0x00, 0x00, 0x7F, 0x7F, 0x00, 0xF2] =
      some (.cvProgOn 0xE5 ⟨0x01, 0x0050, 0x1F, 0x70, 0x1234, 0, 0xFFFF, 0x80⟩) := by decide
theorem test_decode_prog_off :
    decodeCv .reference 0xE5
        [0x01, 0x50, 0x00, 0x1F, 0x00, 0x34, 0x12, 0x00, 0x00, 0x00, 0x00, 0x40, 0xC2] =
      some (.cvProgOff 0xE5 ⟨0x01, 0x0050, 0x1F, 0, 0x1234, 0, 0, 0x40⟩) := by decide
theorem test_decode_write :
    decodeCv .reference 0xE5
        [0x01, 0x50, 0x00, 0x20, 0x10, 0x34, 0x12, 0x00, 0x00, 0x7E, 0x03, 0x00, 0xD0] =
      some (.cvWrite 0xE5 ⟨0x01, 0x0050, 0x20, 0x10, 0x1234, 0, 0x03FE, 0⟩) := by decide
theorem test_decode_read :
    decodeCv .reference 0xED (readFrame.drop 2) =
      some (.cvRead 0xED ⟨0x01, 0x0050, 0x1F, 0, 0x1234, 0, 0, 0⟩) := by decide
theorem test_decode_slave_write :
    decodeCv .reference 0xEF [0x7C, 0x01, 0x02, 0x96] =
      some (.cvSlaveWrite 0xEF [0x7C, 0x01, 0x02, 0x96]) := by decide
theorem test_decode_slave_read :
    decodeCv .reference 0xE7 [0x7C, 0x9F] = some (.cvSlaveRead 0xE7 [0x7C, 0x9F]) := by decide
theorem test_decode_foreign_source :
    decodeCv .reference 0xE5
      [0x05, 0x50, 0x00, 0x1F, 0x00, 0x34, 0x12, 0x00, 0x00, 0x00, 0x00, 0x00, 0x86] = none := by
  decide

/-! ## Steps: commands -/

/-- Z2. -/
theorem test_reset_reads_the_store :
    (next? (exec .reset { State.reset with store := [(0, 0x3FE), (1, 0x1234), (2, 0xF)] })).map
      (fun t => (t.address, t.priority)) = some (0x3FE, 15) := by decide
/-- Z3. -/
theorem test_reset_truncates :
    (next? (exec .reset { State.reset with store := [(0, 0x7FF), (1, 0x1234), (2, 0x1F)] })).map
      (fun t => (t.address, t.priority)) = some (0x3FF, 15) := by decide
/-- A5. -/
theorem test_bus_fall :
    (next? (stepOn .reset [0x01])).map (fun t => (t.busy, t.timer, t.arbState, t.out)) =
      some (true, some 900, .lineBreakWait, [.timerArm 900]) := by decide
/-- X7. -/
theorem test_bus_rise :
    (next? (stepOn .reset [0x02])).map (fun t => (regWord t 1, regWord t 2, t.timer)) =
      some (0x0001, 0x0039, some 1200) := by decide
/-- A3. -/
theorem test_timer_priority :
    (next? (exec .evTimerExpiry
      { State.reset with priority := 3, arbState := .masterDelayWait, timer := some 360 })).map
      (fun t => (t.arbState, t.timer)) = some (.priorityDelayWait, some 180) := by decide
/-- A5. -/
theorem test_timer_line_break :
    (next? (exec .evTimerExpiry
      { State.reset with busy := true, arbState := .lineBreakWait, timer := some 900 })).map
      (fun t => (t.arbState, t.busy, t.timer, t.out)) =
      some (.idle, true, none, [.chanEnable true true, .chanForceLine false]) := by decide
/-- R6. -/
theorem test_rx_byte_wraps :
    (next? (stepOn { State.reset with rd := 62, wr := 63 } [0x04, 0xA0])).map
      (fun t => (t.wr, t.rb, avail t)) = some (0, [(63, 0xA0)], 2) := by decide
/-- C3. -/
theorem test_rx_byte_echo_mismatch :
    (next? (exec (.evRxByte 0x80) { sending with lastSent := none })).map
      (fun t => (t.txq, t.txState, t.transmitting, t.wr, t.out.getLast?)) =
      some ([frame4], .none, false, 0, some (.collision .echoMismatch)) := by decide
/-- C1, X2. -/
theorem test_rx_error :
    (next? (stepOn .reset [0x05])).map (fun t => (regWord t 1, regWord t 2, t.timer, t.out)) =
      some (0x0005, 0x004C, some 900,
        [.chanEnable false false, .chanForceLine true, .timerArm 900, .collision .framingError]) := by
  decide
/-- C5: a frame that is draining is not requeued. -/
theorem test_rx_error_draining :
    (next? (exec .evRxError { State.reset with txState := .draining frame2 })).map
      (fun t => (t.txq, t.txState)) = some ([], .draining frame2) := by decide
/-- T16 and on. -/
theorem test_tx_ready :
    (next? (exec .evTxReady sending)).map (fun t => (t.txState, t.lastSent, t.out)) =
      some (.sending frame4 2, some 0x01, [.chanTx 0x01]) := by decide
/-- 42_tx_queue.md R235: the call after the last byte. -/
theorem test_tx_ready_done :
    (next? (exec .evTxReady { sending with txState := .sending frame4 4 })).map
      (fun t => (t.txState, t.transmitting, t.out)) =
      some (.draining frame4, false, [.txDone]) := by decide
/-- 42_tx_queue.md R237. -/
theorem test_tx_complete :
    (next? (exec .evTxComplete { State.reset with txState := .draining frame4 })).map
      (fun t => (t.txState, t.out)) = some (.none, [.txReleased]) := by decide
/-- F1. -/
theorem test_step_delivers :
    (next? (framed (watched 0) frame4)).map (fun t => (t.rd, t.result, t.out)) =
      some (4, .step .handled, [.dispatch 1 0xA0 [0x01, 0x02, 0xA3]]) := by decide
/-- F6. -/
theorem test_step_rescans :
    (next? (framed .reset [0xE5, 0x0F, 0x01, 0xB2, 0x02, 0x03, 0xB3])).map
      (fun t => (t.rd, t.result)) = some (3, .step .rescan) := by decide
/-- T21: a busy bus. -/
theorem test_svc_check_busy :
    (next? (exec .svcCheck { State.reset with txq := [frame4], busy := true })).map State.svcLatch =
      some false := by decide
/-- T16. -/
theorem test_svc_check :
    (next? (exec .svcCheck { State.reset with txq := [frame4] })).map State.svcLatch =
      some true := by decide
/-- T16. -/
theorem test_svc_act :
    (next? (exec .svcAct { State.reset with txq := [frame4], svcLatch := true })).map
      (fun t => (t.txq, t.txState, t.svcLatch, regWord t 1, t.out)) =
      some ([], .sending frame4 0, false, 0x0003, [.chanStart]) := by decide
/-- T4. -/
theorem test_enqueue :
    (next? (stepOn .reset [0x13, 0xE0, 0x02, 0x04, 0x55])).map State.txq =
      some [[0xE0, 0x04, 0x55, 0xB1]] := by decide
/-- T7. -/
theorem test_enqueue_malformed :
    refusal? (stepOn .reset [0x13, 0xA0, 0x01, 0x01]) = some .malformedEnqueue := by decide
/-- T12. -/
theorem test_long_ack :
    (next? (stepOn .reset [0x14, 0xE5, 0x7F])).map State.txq = some [[0xB4, 0x65, 0x7F, 0xAE]] := by
  decide
/-- T10: a full queue. -/
theorem test_long_ack_overflow : fault? (exec (.longAck 0xE5 0x7F) queueFull) = some .txqOverflow := by
  decide
/-- G3. -/
theorem test_register :
    (next? (stepOn .reset [0x15, 0x00, 0x01])).map State.reg =
      some (State.reset.reg ++ [⟨0, 1⟩]) := by decide
/-- G6. -/
theorem test_register_key : refusal? (stepOn .reset [0x15, 0x20, 0x01]) = some .badOperand := by decide
/-- G4: two copies go, the other entry stays. -/
theorem test_unregister :
    (next? (exec (.unregister 0 1)
      { State.reset with reg := State.reset.reg ++ [⟨0, 1⟩, ⟨0, 2⟩, ⟨0, 1⟩] })).map State.reg =
      some (State.reset.reg ++ [⟨0, 2⟩]) := by decide
/-- X6. -/
theorem test_read_reg :
    (next? (exec (.readReg 0) { State.reset with address := 0x10, priority := 3, isMaster := true })).map
      State.result = some (.word 0x4C10) := by decide

/-! ## Steps: wire frames and CV requests -/

/-- F3. -/
theorem test_frame_fixed2 :
    (next? (exec (.frameFixed2 0 0x80) (watched 0))).map (fun t => (t.rd, t.out)) =
      some (2, [.dispatch 1 0x80 [0x80]]) := by decide
/-- F4: a bad checksum. -/
theorem test_frame_fixed4 :
    (next? (exec (.frameFixed4 0 1 2 0xA2) (watched 0))).map (fun t => (t.rd, t.result, t.out)) =
      some (4, .step .none, []) := by decide
/-- F14. -/
theorem test_frame_fixed6 :
    (next? (exec (.frameFixed6 0 1 2 3 4 0xC4) (watched 0))).map (fun t => (t.rd, t.out)) =
      some (6, [.dispatch 1 0xC0 [1, 2, 3, 4, 0xC4]]) := by decide
/-- F11. -/
theorem test_frame_variable :
    (next? (exec (.frameVariable 0 3 [0xE3]) (watched 0))).map (fun t => (t.rd, t.out)) =
      some (3, [.dispatch 1 0xE0 [0xE3]]) := by decide
/-- F8, F9: a length byte of 0, and of 1. -/
theorem test_frame_variable_short :
    fault? (exec (.frameVariable 0 0 []) .reset) = some .framerShortFrame ∧
    (next? (framed .reset [0xE0, 0x01])).map (fun t => (t.rd, t.result, avail t)) =
      some (1, .step .none, 1) := by decide
/-- CV16. -/
theorem test_opc_peer_xfer :
    (next? (exec (.opcPeerXfer 0x0F (readFrame.drop 2)) .reset)).map (fun t => (t.rd, t.txq)) =
      some (15, [response]) := by decide
/-- CV21. -/
theorem test_opc_imm_packet :
    (next? (framed .reset
      [0xED, 0x0F, 0x01, 0x50, 0x00, 0x1F, 0x00, 0x34, 0x12, 0x00, 0x00, 0x00, 0x00, 0x00, 0x8A])).map
      (fun t => (t.rd, t.txq)) = some (15, [response]) := by decide
/-- CV24. -/
theorem test_opc_wr_sl_data :
    (next? (exec (.opcWrSlData 6 [0x7C, 0x01, 0x02, 0x96]) .reset)).map (fun t => (t.rd, t.out)) =
      some (6, [.hookSeqStart [0x01, 0x02, 0x96]]) := by decide
/-- CV25. -/
theorem test_opc_sl_rd_data :
    (next? (exec (.opcSlRdData 4 [0x7C, 0x9F]) .reset)).map (fun t => (t.rd, t.out)) =
      some (4, [.hookSeqFinal [0x9F]]) := by decide
/-- 41_rx_framer.md R187 on the frame of T12, with a handler of key 0x14. -/
theorem test_opc_long_ack :
    (next? (exec (.opcLongAck 0x65 0x7F 0xAE) (watched 0x14))).map (fun t => (t.rd, t.out)) =
      some (4, [.dispatch 1 0xB4 [0x65, 0x7F, 0xAE]]) := by decide
/-- CV1. -/
theorem test_cv_prog_on :
    (next? (exec (.cvProgOn 0xE5 (request 0x1F 0 0xFFFF 0x80)) .reset)).map
      (fun t => (t.progMode, t.txq)) = some (true, [response]) := by decide
/-- CV3: not the device's address. -/
theorem test_cv_prog_on_other_address :
    (next? (exec (.cvProgOn 0xE5 (request 0x1F 0 0x0002 0x80)) .reset)).map
      (fun t => (t.progMode, t.txq)) = some (false, []) := by decide
/-- The second frame of CV5. -/
theorem test_cv_prog_off :
    (next? (exec (.cvProgOff 0xE5 (request 0x1F 0 0 0x40)) prog)).map
      (fun t => (t.progMode, t.txq, t.out)) = some (false, [], [.hookProgEnded]) := by decide
/-- CV7. -/
theorem test_cv_write :
    (next? (exec (.cvWrite 0xE5 (writeOf 0 0x0010)) prog)).map
      (fun t => (t.store, t.address, t.txq, t.out.getLast?)) =
      some ([(0, 0x0010), (1, 0x1234)], 0x010, [[0xB4, 0x65, 0x7F, 0xAE]],
        some (.hookValueWritten 0 0x0010)) := by decide
/-- CV11, the answer ok given. -/
theorem test_cv_write_hook :
    (next? (cvWriteWith .ok 0xE5 (writeOf 3 0x0042) prog)).map (fun t => (t.out, t.txq)) =
      some ([.hookAuth 3 0x0042 0x7F,
        .storeCommit 0 [0xFFFF, 0xFFFF, 0xFFFF, 0x0042, 0xFFFF, 0xFFFF, 0xFFFF, 0xFFFF],
        .hookValueWritten 3 0x0042], [[0xB4, 0x65, 0x7F, 0xAE]]) := by decide
/-- CV17. -/
theorem test_cv_read :
    (next? (exec (.cvRead 0xE5 (readOf 1)) .reset)).map State.txq =
      some [[0xE5, 0x0F, 0x05, 0x50, 0x00, 0x1F, 0x30, 0x34, 0x12, 0x01, 0x00, 0x7F, 0x7F, 0x00,
        0xB7]] := by decide
/-- CV18. -/
theorem test_cv_read_out_of_range :
    (next? (exec (.cvRead 0xE5 (readOf 16)) .reset)).map State.txq =
      some [[0xB4, 0x65, 0x03, 0xD2]] := by decide
/-- CV24. -/
theorem test_cv_slave_write :
    (next? (exec (.cvSlaveWrite 0xEF [0x7C, 0x01, 0x02, 0x96]) .reset)).map State.out =
      some [.hookSeqStart [0x01, 0x02, 0x96]] := by decide
/-- CV25, CV26. -/
theorem test_cv_slave_read :
    (next? (exec (.cvSlaveRead 0xE7 [0x7C, 0x9F]) .reset)).map State.out =
        some [.hookSeqFinal [0x9F]] ∧
      (next? (exec (.cvSlaveRead 0xE7 [0x7B, 0x98]) .reset)).map State.out = some [] := by decide
/-- Z7. -/
theorem test_not_up : refusal? (stepOn { State.reset with up := false } [0x10]) = some .notUp := by decide

/-! ## The opcode table's words (log entry 12) -/

theorem test_table_command :
    decodeTableWord 8 0x04 = some (.evRxByte 0) ∧ decodeTableWord 8 0x13 = some (.enqueue 0 []) := by
  constructor <;> rfl
theorem test_table_wire :
    decodeTableWord 8 0xA0 = some (.frameFixed4 0 0 0 0) ∧
    decodeTableWord 8 0xB4 = some (.opcLongAck 0 0 0) := by
  constructor <;> rfl
theorem test_table_cv :
    (decodeTableWord 8 0x40).map (fun i => cvRequestInstr i) = some true ∧
    decodeTableWord 8 0x7C = some (.cvSlaveWrite 0xEF [0x7C, 0x97]) := by
  constructor <;> rfl
/-- 0x40 is programming-off: the step it makes leaves programming mode. -/
theorem test_fetch_word :
    (next? (step (prog.withFetchWord 8 0x40))).map (fun t => (t.progMode, t.out)) =
      some (false, [.hookProgEnded]) := by rfl

/-! ## Witnesses: states and operands that meet the hypotheses of each statement

One theorem per obligation that has hypotheses, named after it, with the boundary values of its
clauses. -/

theorem witness_ResetWritesInitialValues :
    State.reset.Live ∧ State.reset.storeReady = true ∧
    ({ State.reset with storeReady := false } : State).Live := by decide

theorem witness_PowerUpChecksParameters :
    Params.reference.WF ∧ Memory.wf unlistedSlot ([(0, 0x0010)] : Memory 16) ∧
    ¬ ({ Params.reference with cap := 6 } : Params).WF :=
  ⟨by decide, by decide, fun h => absurd h.2.1 (by decide)⟩

theorem witness_OnlyResetRunsBeforeUp :
    (∃ s, State.powerUp .reference true [] = some s) ∧
    (State.reset.Live ∧ ∃ t, exec .reset .reset = .next t) ∧
    (({ State.reset with up := false } : State).Live ∧ Instr.step ≠ .reset) :=
  ⟨⟨_, if_pos ⟨by decide, by decide⟩⟩, ⟨by decide, _, rfl⟩, by decide⟩

/-- A full buffer: every cell but one written. -/
def bufferFull : State := { State.reset with wr := 63 }

theorem witness_MarksAreNeverCleared :
    (∃ s, State.powerUp .reference true [] = some s) ∧
    ({ State.reset with fault := some .txqOverflow } : State).fault ≠ none ∧
    ({ State.reset with hung := some .rbFull } : State).hung ≠ none ∧
    ({ State.reset with refused := true } : State).fault = none ∧
    fault? (stepOn { State.reset with storeReady := false } [0x00]) = some .storeNotInitialized ∧
    refusal? (stepOn .reset [0x08]) = some .unknownCommand ∧
    (next? (stepOn bufferFull [0x04, 0xA0])).map (·.hung) = some (some .rbFull) :=
  ⟨⟨_, if_pos ⟨by decide, by decide⟩⟩, by decide⟩

theorem witness_HeldMachineNeverMoves :
    (bufferFull.Ready ∧ bufferFull.transmitting = false ∧
      (bufferFull.wr + 1) % bufferFull.params.cap = bufferFull.rd) ∧
    (∃ t, exec (.evRxByte 0xA0) bufferFull = .next t ∧ t.hung ≠ bufferFull.hung) ∧
    ({ State.reset with hung := some .rbFull } : State).refused = false :=
  ⟨by decide, ⟨_, rfl, by decide⟩, by decide⟩

theorem witness_FaultsComeOnlyFromTheirOperations :
    State.reset.Live ∧ fault? (exec (.frameVariable 0 0 []) .reset) = some .framerShortFrame ∧
    fault? (exec (.enqueue 0x80 []) queueFull) = some .txqOverflow ∧
    fault? (exec (.cvRead 0xE5 (readOf 0)) queueFull) = some .txqOverflow ∧
    fault? (exec (.register 0 1)
      { State.reset with reg := List.replicate 8 ⟨0, 1⟩ }) = some .registryFull ∧
    fault? (exec .reset { State.reset with storeReady := false }) = some .storeNotInitialized := by
  decide

theorem witness_NotificationsAlwaysComplete :
    State.reset.Ready ∧ ∀ i ∈ [Instr.evBusFall, .evBusRise, .evTimerExpiry, .evRxByte 0, .evRxError,
      .evTxReady, .evTxComplete], notification i = true := by decide

theorem witness_StepRunsDecodedCommand :
    ({ State.reset with input := [0x04, 0xA0, 0x10] } : State).Live ∧
    decodeCommand [0x04, 0xA0, 0x10] = .ok (.evRxByte 0xA0, [0x10]) ∧ State.reset.input = [] :=
  ⟨by decide, rfl, rfl⟩

theorem witness_UnknownAndTruncatedCommandsAreRefused :
    (∀ bs ∈ ([[0x08], [0x0F], [0x18], [0xFF], [0x04], [0x17], [0x14, 0xE5], [0x15], [0x16, 0x05],
        [0x13, 0xA0], [0x13, 0xA0, 0x02, 0x01]] : List (List Byte)),
      ({ State.reset with input := bs } : State).Ready ∧ bs ≠ []) ∧
    (0x08 ≤ (0x0F : Byte).toNat ∧ (0x0F : Byte).toNat ≤ 0x0F ∧ 0x18 ≤ (0x18 : Byte).toNat) ∧
    ([0x01] : List Byte).length < (0x02 : Byte).toNat := by decide

theorem witness_FramerRunsDecodedFrame :
    (State.reset.withReadable frame4).Ready ∧
    decodeWire .reference (readable (State.reset.withReadable frame4)) = .ok (.frameFixed4 0 1 2 0xA3) :=
  ⟨by decide, by rfl⟩

theorem witness_CvUnitRunsDecodedRequest :
    State.reset.Ready ∧ (decodeCv .reference 0xE5 (readFrame.drop 2)).isSome = true ∧
    decodeCv .reference 0xE5 [0x01] = none := by decide

theorem witness_DecodeInvertsEncode :
    Params.reference.WF ∧
    (∀ i ∈ [Instr.enqueue 0xA0 [1, 2], .longAck 0xFF 0xFF, .step], i.encodable .reference = true ∧
      (framer i = false ∨ i = .step) ∧ cvRequestInstr i = false) ∧
    (∀ i ∈ [Instr.frameFixed2 31 0xFF, .frameVariable 31 0 [], .opcPeerXfer 3 [0xFF],
        .opcLongAck 0xFF 0xFF 0xFF], i.encodable .reference = true ∧ framer i = true ∧ i ≠ .step) ∧
    (∀ i ∈ [Instr.cvProgOn 0xE5 (request 0xFF 0 0xFFFF 0x80), .cvProgOff 0xED (request 0 0 0 0x40),
        .cvWrite 0xE5 (writeOf 0xFFFF 0xFFFF), .cvRead 0xE5 (readOf 0), .cvSlaveWrite 0xEF [0x7C],
        .cvSlaveRead 0xE7 [0x7C, 0x9F]], i.encodable .reference = true ∧ cvRequestInstr i = true) := by
  decide

theorem witness_PackAndUnpackAreInverse :
    (readOf 0).pack.length = 12 ∧ ∀ b ∈ (readOf 0).pack, b.msb = false := by decide

theorem witness_ChecksumDetectsOneFlippedBit :
    frame4 ≠ [] ∧ 3 < frame4.length ∧ xorAll frame4 = chkTarget ∧ validFrame frame4 = true := by decide

theorem witness_BusEdgesArmAndSetBusy : State.reset.Ready ∧ sending.Ready := by decide

/-- In an arbitration state, with its delay armed. -/
def waiting (a : ArbState) (priority : BitVec 4) (isMaster : Bool) : State :=
  { State.reset with arbState := a, timer := some 360, busy := true, priority, isMaster }

theorem witness_TimerExpiryByState :
    (∀ s ∈ [waiting .carrierDetectWait 0 true, waiting .carrierDetectWait 0 false,
        waiting .masterDelayWait 15 false, waiting .masterDelayWait 0 false,
        waiting .priorityDelayWait 1 false, waiting .lineBreakWait 0 true],
      s.Ready ∧ s.timer = some 360) := by decide

theorem witness_PriorityDelayGrowsWithPriority :
    (waiting .masterDelayWait 1 false).Ready ∧ (waiting .masterDelayWait 15 false).Ready ∧
    (waiting .masterDelayWait 1 false).priority.toNat <
      (waiting .masterDelayWait 15 false).priority.toNat ∧
    (waiting .masterDelayWait 1 false).priority ≠ 0 ∧ 0 < State.reset.params.dPrioUnit := by decide

theorem witness_MasterDelayIsLeftToIdleOnlyByExpiry :
    (State.reset.Ready ∧ State.reset.arbState = .idle ∧ State.reset.isMaster = false) ∧
    (waiting .masterDelayWait 0 false).arbState = .masterDelayWait ∧
    ∃ t, exec .evTimerExpiry (waiting .masterDelayWait 0 false) = .next t ∧ t.arbState = .idle :=
  ⟨by decide, by decide, _, rfl, by decide⟩

theorem witness_CollisionEntry :
    (sending.Ready ∧ sending.transmitting = sending.txState.isSending ∧ sending.transmitting = true ∧
      sending.lastSent ≠ some 0x80) ∧
    (State.reset.Ready ∧ State.reset.transmitting = State.reset.txState.isSending) := by decide

theorem witness_NoOtherOperationRaisesACollision :
    (∃ t, exec .evRxError .reset = .next t ∧ State.reset.collisionDetected = false ∧
      t.collisionDetected = true ∧ ∃ es, t.out = State.reset.out ++ es ∧
        Event.collision .framingError ∈ es) ∧
    (∃ t, exec (.evRxByte 0x80) sending = .next t ∧ t.collisionDetected = true ∧
      ∃ es, t.out = sending.out ++ es ∧ Event.collision .echoMismatch ∈ es) :=
  ⟨⟨_, rfl, by decide, by decide, _, rfl, by decide⟩, ⟨_, rfl, by decide, _, rfl, by decide⟩⟩

theorem witness_DomainsWriteOnlyTheirState :
    (∃ t, exec .evRxError sending = .next t ∧ notification .evRxError = true) ∧
    (∃ t, exec .svcCheck sending = .next t ∧ notification .svcCheck = false) :=
  ⟨⟨_, rfl, rfl⟩, ⟨_, rfl, rfl⟩⟩

theorem witness_ReceivedByteIsStoredAtTheWriter :
    (({ State.reset with wr := 62 } : State).Ready ∧
      Memory.wf unlistedCell ({ State.reset with wr := 62 } : State).rb ∧
      ({ State.reset with wr := 62 } : State).transmitting = false ∧
      (62 + 1) % State.reset.params.cap ≠ State.reset.rd) ∧
    (sending.Ready ∧ sending.transmitting = true ∧ sending.lastSent = some 0xA0) ∧
    ∃ t, exec (.evRxByte 0xA0) sending = .next t ∧ t.rb ≠ sending.rb :=
  ⟨by decide, by decide, _, rfl, by decide⟩

/-- Four readable bytes round the end of the buffer. -/
def wrapped : State := { State.reset with rd := 62, wr := 62 }.withReadable frame4

theorem witness_RingBufferIsAQueue :
    (wrapped.rd < wrapped.params.cap ∧ wrapped.wr < wrapped.params.cap ∧
      Memory.wf unlistedCell wrapped.rb ∧ wrapped.wr < wrapped.rd ∧ 4 ≤ avail wrapped ∧
      (wrapped.wr + 1) % wrapped.params.cap ≠ wrapped.rd) ∧
    (∃ t, push 0x10 wrapped = .next t) ∧
    (bufferFull.rd < bufferFull.params.cap ∧ bufferFull.wr < bufferFull.params.cap) :=
  ⟨by decide, ⟨_, rfl⟩, by decide⟩

/-- One readable byte string per clause: too short, stray, another opcode inside, incomplete, bad
checksum, no room for a checksum, deliverable. -/
theorem witness_FramerStepFollowsItsSevenSteps :
    (∀ bs ∈ ([[0xA0], [0x05, 0xA0], [0xE5, 0x0F, 0x01, 0xB2], [0xE5, 0x0F, 0x01], [0xA0, 1, 2, 0xA2],
        [0xE0, 0x00], frame4] : List (List Byte)), (State.reset.withReadable bs).Ready) ∧
    avail (State.reset.withReadable [0xA0]) = 1 ∧ cellAt (State.reset.withReadable [0x05, 0xA0]) 0 = 5 ∧
    (cellAt (State.reset.withReadable [0xE5, 0x0F, 0x01, 0xB2]) 3).msb = true ∧
    avail (State.reset.withReadable [0xE5, 0x0F, 0x01]) < frameLen 0xE5 0x0F ∧
    xorAll ((List.range 4).map (cellAt (State.reset.withReadable [0xA0, 1, 2, 0xA2]))) ≠ chkTarget ∧
    frameLen 0xE0 0x00 < hdr 0xE0 + 1 ∧
    xorAll ((List.range 4).map (cellAt (State.reset.withReadable frame4))) = chkTarget := by decide

theorem witness_FramesAreDeliveredStepByStep :
    validFrame frame4 = true ∧ frame4.head? = some 0xA0 ∧ validFrame frame2 = true ∧
    (State.reset.withReadable (frame4 ++ frame2)).Ready ∧
    readable (State.reset.withReadable (frame4 ++ frame2)) = frame4 ++ frame2 ∧
    (next? (exec .step (State.reset.withReadable (frame4 ++ frame2)))).isSome = true ∧
    (0x7F : Byte).msb = false ∧ readable (State.reset.withReadable (0x7F :: frame4)) = 0x7F :: frame4 := by
  decide

theorem witness_DrainEnds :
    wrapped.Ready ∧ wrapped.rd < wrapped.params.cap ∧ wrapped.wr < wrapped.params.cap ∧
    ∃ t, exec .step wrapped = .next t ∧ t.result ≠ .step .none :=
  ⟨by decide, by decide, by decide, _, rfl, by decide⟩

theorem witness_DispatchInvokesHandlersInOrder :
    (∀ e ∈ (watched 0).reg, e.key = key 0x80 → e.hid ≠ 0) ∧
    (watched 5).reg = [] ++ (⟨key 0xE5, 0⟩ :: [⟨13, 0⟩, ⟨15, 0⟩, ⟨7, 0⟩, ⟨5, 1⟩]) ∧
    ∀ e ∈ ([⟨13, 0⟩, ⟨15, 0⟩, ⟨7, 0⟩, ⟨5, 1⟩] : List RegEntry), e.key = key 0xE5 → e.hid ≠ 0 := by
  decide

theorem witness_WireFramesReachExternalHandlers :
    (∀ i ∈ [Instr.frameFixed2 0 0x80, .frameFixed4 0 1 2 0xA3, .frameFixed6 0 1 2 3 4 0xC4,
        .frameVariable 0 3 [0xE3], .opcLongAck 0x65 0x7F 0xAE],
      framer i = true ∧ i ≠ .step ∧ i.wf .reference = true) ∧
    (∀ e ∈ (watched 0x14).reg, e.key = key 0xB4 → e.hid ≠ 0) ∧
    (∀ e ∈ (watched 0).reg, e.key = key 0xE0 → e.hid ≠ 0) := by decide

theorem witness_BadChecksumDropsTheFrame :
    Params.reference.WF ∧
    (∀ i ∈ [Instr.frameFixed2 0 0x81, .frameFixed4 0 1 2 0xA2, .frameFixed6 0 1 2 3 4 0xC5,
        .frameVariable 0 3 [0xE2], .opcPeerXfer 3 [0xE7], .opcLongAck 0x65 0x7F 0xAF],
      framer i = true ∧ i ≠ .step ∧ i.encodable .reference = true ∧
      (∀ b ∈ ((encode .reference i).drop 1).dropLast, b.msb = false) ∧
      xorAll (encode .reference i) ≠ chkTarget) ∧
    frameLen 0xE0 3 = ([0xE0, 3, 0xE2] : Frame).length ∧
    (Instr.encodable .reference (.frameVariable 0 1 []) = true ∧
      encode .reference (.frameVariable 0 1 []) = [0xE0, 0x01] ∧
      xorAll (([0xE0, 0x01] : Frame).take (frameLen 0xE0 0x01)) ≠ chkTarget) := by decide

theorem witness_RegisterAppends :
    State.reset.Ready ∧ 32 ≤ (0x20 : Byte).toNat ∧ (0x1F : Byte).toNat < 32 ∧
    State.reset.reg.length < State.reset.params.regCap ∧
    ({ State.reset with reg := List.replicate 8 ⟨0, 1⟩ } : State).Ready ∧
    State.reset.params.regCap ≤ (List.replicate 8 (⟨0, 1⟩ : RegEntry)).length := by decide

theorem witness_UnregisterRemovesEveryCopy :
    (watched 0x1F).Ready ∧ (0x1F : Byte).toNat < 32 ∧ 32 ≤ (0x20 : Byte).toNat ∧ (1 : Byte) ≠ 0 := by
  decide

theorem witness_RegisterViewLayout :
    State.reset.Ready ∧ 3 < (0x04 : Byte).toNat ∧ (0x03 : Byte).toNat ≤ 3 := by decide

theorem witness_EnqueueBuildsAndAppendsAFrame :
    State.reset.Ready ∧ (0x7F : Byte).msb = false ∧ (0x80 : Byte).msb = true ∧
    (frameClass 0xE0 = 7 ∧ (0x04 : Byte).toNat = ([0x04, 0x55] : List Byte).length + 2) ∧
    (frameClass 0xE0 = 7 ∧ (0x05 : Byte).toNat ≠ ([0x05, 0x01] : List Byte).length + 2) ∧
    (frameClass 0xDF ≠ 7 ∧ ([0, 0, 0, 0] : List Byte).length + 2 = frameLen 0xDF 0) ∧
    (frameClass 0xA0 ≠ 7 ∧ ([1] : List Byte).length + 2 ≠ frameLen 0xA0 0) ∧
    (queueFull.Ready ∧ State.reset.params.txqCap ≤ queueFull.txq.length) ∧
    State.reset.txq.length < State.reset.params.txqCap := by decide

theorem witness_LongAckAppendsItsFrame :
    State.reset.Ready ∧ State.reset.params.WF ∧ (0x80 : Byte).msb = true ∧ (0x7F : Byte).msb = false ∧
    framesHeld State.reset < State.reset.params.txqCap ∧
    queueFull.Ready ∧ queueFull.params.txqCap ≤ framesHeld queueFull := by decide

theorem witness_EnqueuedFramesAreDeliverable :
    State.reset.Ready ∧ (next? (exec (.enqueue 0xA0 [1, 2]) .reset)).map State.txq = some [frame4] ∧
    (State.reset.withReadable (frame4 ++ [0x05])).Ready ∧
    readable (State.reset.withReadable (frame4 ++ [0x05])) = frame4 ++ [0x05] := by decide

theorem witness_ServiceChecksThenStarts :
    State.reset.Ready ∧ State.reset.svcLatch = false ∧
    ({ State.reset with txq := [frame4, frame2], svcLatch := true } : State).Ready := by decide

theorem witness_TransmitterSuppliesCompletesReleases :
    sending.Ready ∧ 3 < frame4.length ∧
    ({ sending with txState := .sending frame4 frame4.length } : State).Ready ∧
    State.reset.txState.isSending = false ∧
    ({ State.reset with txState := .draining frame4 } : State).Ready ∧
    (TxState.isSending (.draining frame4) = false) := by decide

theorem witness_TransmissionSendsEachByteOnce :
    ({ sending with txState := .sending frame4 0 } : State).Ready ∧ frame4 ≠ [] := by decide

theorem witness_RetriedFrameIsTheNextSent :
    (sending.Ready ∧ sending.transmitting = true ∧ sending.txState = .sending frame4 1 ∧
      sending.lastSent ≠ some 0x80) ∧
    (queueFull.transmitting = false ∧ queueFull.txState = .none ∧
      queueFull.txq = frame2 :: [frame2, frame2, frame2] ∧ ∃ t, exec .evBusFall queueFull = .next t) ∧
    ({ queueFull with svcLatch := true } : State).Ready :=
  ⟨by decide, ⟨rfl, rfl, rfl, _, rfl⟩, by decide⟩

theorem witness_QueueOrderIsKept :
    (∃ t, exec (.enqueue 0x80 []) .reset = .next t) ∧
    (∃ t, exec .svcAct { queueFull with svcLatch := true } = .next t) ∧
    (∃ t, exec .evRxError sending = .next t) ∧
    (sending.transmitting = true ∧ sending.lastSent ≠ some 0x80 ∧
      ∃ t, exec (.evRxByte 0x80) sending = .next t) :=
  ⟨⟨_, rfl⟩, ⟨_, rfl⟩, ⟨_, rfl⟩, rfl, by decide, _, rfl⟩

theorem witness_OutputTraceOnlyGrows :
    (∃ t, exec .evBusFall .reset = .next t) ∧ (∃ t, stepOn .reset [0x01] = .next t) ∧
    ∃ t, exec .reset sending = .next t := ⟨⟨_, rfl⟩, ⟨_, rfl⟩, _, rfl⟩

theorem witness_CvLookupFallsBackToDefaults :
    storeRead State.reset 1 ≠ State.reset.params.deviceClass ∧
    storeRead configured 1 = configured.params.deviceClass := by decide

theorem reset_ready :
    State.reset.Ready ∧ State.reset.params.WF ∧ framesHeld State.reset < State.reset.params.txqCap := by
  decide

theorem prog_ready :
    prog.Ready ∧ prog.params.WF ∧ prog.progMode = true ∧ framesHeld prog < prog.params.txqCap ∧
    Memory.wf unlistedSlot prog.store := by decide

theorem read_carried_0 : Instr.wf .reference (.cvRead 0xE5 (readOf 0)) = true := by decide
theorem read_carried_2 : Instr.wf .reference (.cvRead 0xE5 (readOf 2)) = true := by decide
theorem read_carried_3 : Instr.wf .reference (.cvRead 0xE5 (readOf 3)) = true := by decide
theorem read_carried_15 : Instr.wf .reference (.cvRead 0xE5 (readOf 15)) = true := by decide
theorem read_carried_16 : Instr.wf .reference (.cvRead 0xE5 (readOf 16)) = true := by decide
theorem prog_on_carried_any :
    Instr.wf .reference (.cvProgOn 0xE5 (request 0x1F 0 0xFFFF 0x80)) = true := by decide
theorem prog_on_carried_own :
    Instr.wf .reference (.cvProgOn 0xE5 (request 0x1F 0 0x0001 0x80)) = true := by decide

theorem witness_CvReadAnswersTheLookupValue :
    (State.reset.Ready ∧ State.reset.params.WF ∧ framesHeld State.reset < State.reset.params.txqCap) ∧
    (Instr.wf .reference (.cvRead 0xE5 (readOf 0)) = true ∧
      Instr.wf .reference (.cvRead 0xE5 (readOf 15)) = true ∧
      Instr.wf .reference (.cvRead 0xE5 (readOf 16)) = true) ∧
    (readOf 15).lncvNumber.toNat < State.reset.params.nCv ∧
    State.reset.params.nCv ≤ (readOf 16).lncvNumber.toNat :=
  ⟨reset_ready, ⟨read_carried_0, read_carried_15, read_carried_16⟩, by decide⟩

theorem witness_ProgrammingModeIsEnteredAndLeft :
    (State.reset.Ready ∧ State.reset.params.WF ∧ framesHeld State.reset < State.reset.params.txqCap) ∧
    (Instr.wf .reference (.cvProgOn 0xE5 (request 0x1F 0 0xFFFF 0x80)) = true ∧
      Instr.wf .reference (.cvProgOn 0xE5 (request 0x1F 0 0x0001 0x80)) = true ∧
      (0x0001 : Word) = State.reset.address.setWidth 16) ∧
    ((0xFFFE : Word) ≠ 0xFFFF ∧ (0xFFFE : Word) ≠ State.reset.address.setWidth 16) :=
  ⟨reset_ready, ⟨prog_on_carried_any, prog_on_carried_own, by decide⟩, by decide⟩

theorem witness_WritesThatChangeNoSlot :
    (State.reset.Ready ∧ State.reset.progMode = false) ∧
    (prog.Ready ∧ prog.params.WF ∧ prog.progMode = true ∧ framesHeld prog < prog.params.txqCap ∧
      Memory.wf unlistedSlot prog.store) ∧
    prog.params.nCv ≤ (writeOf 16 0).lncvNumber.toNat ∧
    0x3FF ≤ (writeOf 0 0x3FF).lncvValue.toNat ∧ (writeOf 0 0x3FE).lncvValue.toNat < 0x3FF ∧
    0x10 ≤ (writeOf 2 0x10).lncvValue.toNat ∧ (writeOf 2 0xF).lncvValue.toNat < 0x10 ∧
    (writeOf 0 1).lncvValue = cvLookup prog 0 ∧
    (writeOf 2 0xF).lncvValue = cvLookup { prog with store := [(1, 0x1234), (2, 0xF)] } 2 :=
  ⟨by decide, prog_ready, by decide⟩

theorem witness_PersistedWritesOfConfigSlots :
    (prog.Ready ∧ prog.params.WF ∧ prog.progMode = true ∧ framesHeld prog < prog.params.txqCap ∧
      Memory.wf unlistedSlot prog.store) ∧
    ((writeOf 0 0x3FE).lncvValue ≠ cvLookup prog 0 ∧ (writeOf 0 0x3FE).lncvValue.toNat < 0x3FF) ∧
    ((writeOf 2 0xF).lncvValue ≠ cvLookup prog 2 ∧ 0 < (writeOf 2 0xF).lncvValue.toNat ∧
      (writeOf 2 0xF).lncvValue.toNat < 0x10) :=
  ⟨prog_ready, by decide, by decide⟩

theorem witness_HookDecidesDeviceSpecificWrites :
    (prog.Ready ∧ prog.params.WF ∧ prog.progMode = true ∧ framesHeld prog < prog.params.txqCap ∧
      Memory.wf unlistedSlot prog.store) ∧
    (3 = (writeOf 3 0x42).lncvNumber.toNat ∧ 15 = (writeOf 15 0x42).lncvNumber.toNat ∧
      15 < prog.params.nCv) ∧
    (writeOf 3 0x42).lncvValue ≠ storeRead prog 3 ∧ (writeOf 3 0xFFFF).lncvValue = storeRead prog 3 ∧
    Status.readOnly ≠ .ok := ⟨prog_ready, by decide⟩

theorem witness_AnswersNeedQueueRoom :
    (queueFull.Ready ∧ queueFull.params.WF ∧ queueFull.params.txqCap ≤ framesHeld queueFull) ∧
    ({ queueFull with progMode := true } : State).progMode = true ∧
    Instr.wf .reference (.cvRead 0xE5 (readOf 0)) = true ∧
    Instr.wf .reference (.cvProgOn 0xE5 (request 0x1F 0 0xFFFF 0x80)) = true ∧
    progOnAccepted (request 0x1F 0 0xFFFF 0x80) queueFull = true :=
  ⟨by decide, rfl, read_carried_0, prog_on_carried_any, by decide⟩

theorem witness_SlaveDataIsForwardedToHooks :
    State.reset.Ready ∧ (0x7C : Byte) = State.reset.params.slaveSentinel ∧
    (0x7B : Byte) ≠ State.reset.params.slaveSentinel := by decide

/-- The frames of vectors CV16, CV21, CV24, CV25, CV26 and CV23. -/
theorem witness_CvFramesRunTheirRequest :
    State.reset.Ready ∧ State.reset.params.WF ∧
    (∀ i ∈ [Instr.opcPeerXfer 0x0F (readFrame.drop 2), .opcWrSlData 6 [0x7C, 0x01, 0x02, 0x96],
        .opcSlRdData 4 [0x7C, 0x9F], .opcSlRdData 4 [0x7B, 0x98],
        .opcPeerXfer 6 [0x01, 0x02, 0x03, 0xE3]],
      framer i = true ∧ i ≠ .step ∧ i.wf .reference = true) ∧
    (∀ opc ∈ ([0xE5, 0xED, 0xEF, 0xE7] : List Byte),
      State.reset.reg.filter (fun e => e.key = key opc) = [⟨key opc, 0⟩]) ∧
    ((watched 5).reg.filter (fun e => e.key = key 0xE5) = ⟨key 0xE5, 0⟩ :: [⟨5, 1⟩] ∧
      ∀ e ∈ ([⟨5, 1⟩] : List RegEntry), e.hid ≠ 0) ∧
    (decodeCv .reference 0xE5 (readFrame.drop 2) = some (.cvRead 0xE5 (readOf 0)) ∧
      (next? (exec (.cvRead 0xE5 (readOf 0)) (State.reset.advance 15))).isSome = true) ∧
    decodeCv .reference 0xE7 [0x7B, 0x98] = none ∧
    decodeCv .reference 0xE5 [0x01, 0x02, 0x03, 0xE3] = none := by decide

theorem witness_FactoryFreshReadAnswersDefaultAddress :
    State.reset.Ready ∧ State.reset.params.WF ∧
    Instr.wf .reference (.opcPeerXfer 0x0F (readFrame.drop 2)) = true ∧
    Instr.wf .reference (.opcImmPacket 0x0F ((readFrame.drop 2).set 12 0x8A)) = true ∧
    (readFrame.drop 2).getD 0 0 ∈ State.reset.params.recognizedSources ∧
    (CvMessage.unpack (readFrame.drop 2)).lncvNumber = 0 ∧
    (∀ opc ∈ ([0xE5, 0xED] : List Byte),
      cvRequest .reference opc (CvMessage.unpack (readFrame.drop 2)) =
        .cvRead opc (CvMessage.unpack (readFrame.drop 2)) ∧
      State.reset.reg.filter (fun e => e.key = key opc) = [⟨key opc, 0⟩]) ∧
    ((watched 5).reg.filter (fun e => e.key = key 0xE5) = ⟨key 0xE5, 0⟩ :: [⟨5, 1⟩] ∧
      ∀ e ∈ ([⟨5, 1⟩] : List RegEntry), e.hid ≠ 0) ∧
    framesHeld State.reset < State.reset.params.txqCap ∧
    storeRead State.reset 1 ≠ State.reset.params.deviceClass := by decide

/-- The state a write of slot 3 leaves, whatever the hook answers: it holds one frame. -/
theorem witness_write_of_slot_3 (st : Status) :
    ∃ t, cvWriteWith st 0xE5 (writeOf 3 0x42) prog = .next t ∧ framesHeld t < t.params.txqCap := by
  cases st <;> exact ⟨_, rfl, by decide⟩

theorem witness_write_of_slot_0 :
    ∃ t, exec (.cvWrite 0xE5 (writeOf 0 0x3FE)) prog = .next t ∧ framesHeld t < t.params.txqCap :=
  ⟨_, rfl, by decide⟩

theorem witness_write_of_slot_2 :
    ∃ t, exec (.cvWrite 0xE5 (writeOf 2 0xF)) { configured with progMode := true } = .next t ∧
      storeRead configured 1 = configured.params.deviceClass ∧ framesHeld t < t.params.txqCap :=
  ⟨_, rfl, by decide, by decide⟩

theorem witness_CvRoundTrip :
    (prog.Ready ∧ prog.params.WF ∧ prog.progMode = true ∧ framesHeld prog < prog.params.txqCap ∧
      Memory.wf unlistedSlot prog.store) ∧
    (writeOf 15 0x42).lncvNumber.toNat < prog.params.nCv ∧
    (∃ t, exec (.cvWrite 0xE5 (writeOf 0 0x3FE)) prog = .next t ∧ framesHeld t < t.params.txqCap) ∧
    (∃ t, exec (.cvWrite 0xE5 (writeOf 2 0xF)) { configured with progMode := true } = .next t ∧
      storeRead configured 1 = configured.params.deviceClass ∧ framesHeld t < t.params.txqCap) ∧
    (∃ t, exec (.cvWrite 0xE5 (writeOf 3 0x42)) prog = .next t ∧ framesHeld t < t.params.txqCap) ∧
    (∃ t, exec (.cvWrite 0xE5 (writeOf 0 0x3FE)) .reset = .next t) ∧
    (Instr.wf .reference (.cvRead 0xE5 (readOf 0)) = true ∧
      Instr.wf .reference (.cvRead 0xE5 (readOf 2)) = true ∧
      Instr.wf .reference (.cvRead 0xE5 (readOf 3)) = true) :=
  ⟨prog_ready, by decide, witness_write_of_slot_0, witness_write_of_slot_2,
    witness_write_of_slot_3 (Config.authAnswer 0), ⟨_, rfl⟩,
    read_carried_0, read_carried_2, read_carried_3⟩

theorem witness_UnconfiguredPriorityIsNotKept :
    (prog.Ready ∧ prog.params.WF ∧ prog.progMode = true ∧ Memory.wf unlistedSlot prog.store ∧
      storeRead prog 1 ≠ prog.params.deviceClass ∧
      (writeOf 2 0xF).lncvValue ≠ prog.params.defaultPriority) ∧
    ∃ t, exec (.cvWrite 0xE5 (writeOf 2 0xF)) prog = .next t ∧ t.storeReady = true :=
  ⟨by decide, _, rfl, by decide⟩

theorem witness_StoreAndConfigHaveTheirWriters :
    (∃ t, exec (.cvWrite 0xE5 (writeOf 0 0x10)) prog = .next t ∧ t.address ≠ prog.address ∧
      t.store ≠ prog.store) ∧
    (∃ t, exec .reset { State.reset with isMaster := true } = .next t ∧ t.isMaster ≠ true) ∧
    ∃ t, exec .step State.reset = .next t ∧ State.reset.progMode = false :=
  ⟨⟨_, rfl, by decide, by decide⟩, ⟨_, rfl, by decide⟩, _, rfl, rfl⟩

theorem witness_EveryStepKeepsConfigInStep :
    Memory.wf unlistedSlot configured.store ∧ configured.ConfigTracksStore ∧
    ∃ t, stepOn configured [0x01] = .next t := ⟨by decide, by decide, _, rfl⟩

/-- The state right after reset with a command at the port meets the invariant: nothing in it reads
`input`. -/
theorem witness_EveryStepKeepsTheInvariant :
    ({ State.reset with input := [0x01] } : State).Inv ∧ ∃ t, stepOn .reset [0x01] = .next t := by
  refine ⟨?_, _, rfl⟩
  constructor <;> first | decide | (intro f c h; cases h)

end Sys2Proof.Tests
end

section
/-! SUPPORT. The family of 10_state.md: the marks, the output trace, the register view, and the
invariant of the CORE as every step keeps it. -/

namespace Sys2Proof.Machine

variable {s t : State} {i : Instr}

/-! ## Power-up -/

/-- A state of power-up is `State.reset` but for the parameters, the store, the registry and `up`. -/
theorem powerUp_eq_some {p : Params} {ready : Bool} {slots : Memory 16}
    (h : State.powerUp p ready slots = some s) :
    s = { State.reset with
      params := p, store := slots, storeReady := ready, reg := [], up := false } := by
  unfold State.powerUp at h
  split at h <;> cases h
  rfl

/-! ## RESET -/

/-- From a state no mark stands in, a `RESET` that answers a next state has written its fields. -/
theorem exec_reset_eq_next (hl : s.Live) (h : exec .reset s = .next t) : t = resetFields s := by
  obtain ⟨-, hh⟩ | ⟨-, -, ht⟩ := exec_eq_next h
  · exact absurd hl.2.2 hh
  · exact ht

/-- `RESET` emits nothing (10_state.md R44). -/
theorem exec_reset_out (h : exec .reset s = .next t) : t.out = s.out := by
  obtain ⟨rfl, -⟩ | ⟨-, -, rfl⟩ := exec_eq_next h <;> rfl

/-- Settles O3: a gated operation needs `up`, which power-up leaves false and `RESET` writes. -/
theorem onlyResetRunsBeforeUp : Obligations.OnlyResetRunsBeforeUp := by
  refine ⟨fun p ready slots s h => ?_, fun s t hl h => ?_, fun i s hl hu hi => exec_notUp hl hu hi⟩
  · rw [powerUp_eq_some h]
  · rw [exec_reset_eq_next hl h]; rfl

/-! ## The output trace -/

/-- An instruction appends to the trace, or the machine is held. -/
theorem exec_out_prefix (h : exec i s = .next t) : s.out <+: t.out := by
  obtain ⟨rfl, -⟩ | ⟨-, hd⟩ := exec_eq_next h
  · exact List.prefix_rfl
  · obtain ⟨es, he⟩ := hd.trace
    exact ⟨es, he.symm⟩

/-- Settles O43, by the trace of each instruction's effect. -/
theorem outputTraceOnlyGrows : Obligations.OutputTraceOnlyGrows := by
  refine ⟨fun i s t h => exec_out_prefix h, fun s t h => ?_, fun s t h => exec_reset_out h⟩
  obtain rfl | ⟨i, rest, -, h⟩ := step_eq_next h
  · exact List.prefix_rfl
  · exact exec_out_prefix (s := { s with input := rest }) h

/-! ## The marks -/

/-- A gated operation keeps every mark that stands. -/
theorem record_gate_marks (s : State) (op : State → Outcome) :
    (s.fault ≠ none → (s.record (gate s op)).fault = s.fault) ∧
    (s.hung ≠ none → (s.record (gate s op)).hung = s.hung) ∧
    (s.refused = true → (s.record (gate s op)).refused = true) := by
  cases hf : s.fault with
  | some f => simp [gate_faulted hf, State.record]
  | none =>
    cases hr : s.refused with
    | true => simp [gate_refused hf hr, State.record]
    | false =>
      cases hh : s.hung with
      | some h => simp [gate_hung hf hr hh, State.record, hh]
      | none => simp

@[simp] theorem timerExpired_hung (s : State) : (timerExpired s).hung = s.hung := by
  unfold timerExpired cdExpired mdExpired pdExpired
  repeat' split
  all_goals rfl

@[simp] theorem txReady_hung (s : State) : (txReady s).hung = s.hung := by
  unfold txReady
  repeat' split
  all_goals rfl

@[simp] theorem txComplete_hung (s : State) : (txComplete s).hung = s.hung := by
  unfold txComplete
  split <;> rfl

@[simp] theorem startTransmission_hung (s : State) : (startTransmission s).hung = s.hung := by
  unfold startTransmission
  split <;> rfl

@[simp] theorem collide_hung (cause : Cause) (s : State) : (collide cause s).hung = s.hung := by
  rw [collide_eq]

theorem Effect.hung (h : Effect s t) : t.hung = s.hung := by rw [h.frame]

/-- An instruction leaves the hold mark, or is a received byte pushed into a full buffer, which
changes nothing else (41_rx_framer.md R175). -/
theorem Did.hung (h : Did i s t) :
    t.hung = s.hung ∨
      (t = { s with hung := some .rbFull } ∧ (s.wr + 1) % s.params.cap = s.rd ∧
        ∃ b, i = .evRxByte b) := by
  have hd := h
  cases i <;> simp only [Did] at h
  case evRxByte b =>
    obtain ⟨-, -, rfl⟩ | ⟨-, h⟩ := h
    · exact .inl (collide_hung _ s)
    · obtain ⟨-, rfl⟩ | ⟨hfull, rfl⟩ := push_eq_next h
      · exact .inl rfl
      · exact .inr ⟨rfl, hfull, b, rfl⟩
  all_goals refine .inl ?_
  case reset => obtain ⟨-, rfl⟩ := h; rfl
  case evBusFall => rw [h]; rfl
  case evBusRise => rw [h]; rfl
  case evTimerExpiry => rw [h]; split <;> simp
  case evRxError => rw [h, collide_hung]
  case evTxReady => rw [h, txReady_hung]
  case evTxComplete => rw [h, txComplete_hung]
  case svcCheck => rw [h]
  case svcAct => rw [h]; split <;> simp
  case register => obtain ⟨-, -, rfl⟩ := h; rfl
  case unregister => obtain ⟨-, rfl⟩ := h; rfl
  case readReg => obtain ⟨-, rfl⟩ := h; rfl
  all_goals
    obtain ⟨rd, r, u, he, rfl, -⟩ := hd.effect (by simp [framer, cvRequestInstr])
    exact he.hung

/-- A step that sets the hold mark takes a command from the input and leaves the rest as it stood. -/
theorem step_hold (h : step s = .next t) (hne : t.hung ≠ s.hung) :
    s.hung = none ∧ ∃ k, t = { s with input := t.input, hung := some k } := by
  obtain rfl | ⟨i, rest, hl, h⟩ := step_eq_next h
  · exact absurd rfl hne
  · obtain ⟨rfl, -⟩ | ⟨-, hd⟩ := exec_eq_next h
    · exact absurd rfl hne
    · obtain he | ⟨rfl, -⟩ := hd.hung
      · exact absurd he hne
      · exact ⟨hl.2.2, .rbFull, rfl⟩

/-- Settles O4: every instruction is gated, the gate keeps the marks, and only a push sets the hold. -/
theorem marksAreNeverCleared : Obligations.MarksAreNeverCleared := by
  refine ⟨fun p ready slots s h => ?_, fun i s => ?_, fun s => ⟨fun f h => ?_, fun r h => ?_,
    fun t h hne => step_hold h hne, fun f hf => ⟨gate_faulted hf, exec_faulted hf⟩,
    fun hf hr => ⟨gate_refused hf hr, exec_refused hf hr⟩⟩⟩
  · rw [powerUp_eq_some h]; exact ⟨rfl, rfl, rfl⟩
  · obtain ⟨op, h⟩ := exec_gate i s
    rw [h]; exact record_gate_marks s op
  · rw [h]; rfl
  · rw [h]; rfl

/-! ## The register view -/

theorem readRegOk_iff {r : Byte} : readRegOk r = true ↔ r.toNat ≤ 3 := by simp [readRegOk]

/-- `READ_REG` checks its operand and answers the register's word. -/
theorem exec_readReg (h : s.Ready) (r : Byte) :
    exec (.readReg r) s =
      if readRegOk r then .next (s.answer (.word (regWord s r))) else .refused .badOperand := by
  rw [exec, execReadReg, whenUp_ready h, withRegister]

/-- A field of a word, from its bits. -/
theorem extractLsb'_eq_of_getLsbD {v w : Nat} {x : BitVec v} {y : BitVec w} {a : Nat}
    (h : ∀ i < w, x.getLsbD (a + i) = y.getLsbD i) : x.extractLsb' a w = y :=
  BitVec.eq_of_getLsbD_eq fun i hi => by
    rw [BitVec.getLsbD_extractLsb', h i hi, decide_eq_true hi, Bool.true_and]

/-- The bits of CONFIG: the address, the priority, `is_master`, and bit 15. -/
theorem getLsbD_configWord (s : State) (i : Nat) :
    (configWord s).getLsbD i =
      if i < 10 then s.address.getLsbD i
      else if i < 14 then s.priority.getLsbD (i - 10)
      else decide (i = 14) && s.isMaster := by
  change (0#1 ++ BitVec.ofBool s.isMaster ++ s.priority ++ s.address).getLsbD i = _
  simp only [BitVec.getLsbD_append]
  grind

/-- The bits of STATUS: the three flags, and the reserved bits. -/
theorem getLsbD_statusWord (s : State) (i : Nat) :
    (statusWord s).getLsbD i =
      if i = 0 then s.busy else if i = 1 then s.transmitting
      else decide (i = 2) && s.collisionDetected := by
  change (0#13 ++ BitVec.ofBool s.collisionDetected ++ BitVec.ofBool s.transmitting ++
    BitVec.ofBool s.busy).getLsbD i = _
  simp only [BitVec.getLsbD_append]
  grind

/-- The bits of ARB: the state code, the flags, and the reserved bits. -/
theorem getLsbD_arbWord (s : State) (i : Nat) :
    (arbWord s).getLsbD i =
      if i < 3 then s.arbState.code.getLsbD i else if i = 3 then s.timer.isSome
      else if i = 4 then s.txEn else if i = 5 then s.rxEn else decide (i = 6) && s.forceLine := by
  change (0#9 ++ BitVec.ofBool s.forceLine ++ BitVec.ofBool s.rxEn ++ BitVec.ofBool s.txEn ++
    BitVec.ofBool s.timer.isSome ++ s.arbState.code).getLsbD i = _
  simp only [BitVec.getLsbD_append]
  grind

/-- The bits of PROTO: `prog_mode`, the transmitter's code, and the reserved bits. -/
theorem getLsbD_protoWord (s : State) (i : Nat) :
    (protoWord s).getLsbD i =
      if i = 0 then s.progMode else decide (i < 3) && s.txState.code.getLsbD (i - 1) := by
  change (0#13 ++ s.txState.code ++ BitVec.ofBool s.progMode).getLsbD i = _
  simp only [BitVec.getLsbD_append]
  grind

theorem configWord_fields (s : State) :
    (configWord s).extractLsb' 0 10 = s.address ∧ (configWord s).extractLsb' 10 4 = s.priority ∧
      (configWord s).getLsbD 14 = s.isMaster ∧ (configWord s).getLsbD 15 = false := by
  refine ⟨extractLsb'_eq_of_getLsbD fun i hi => ?_, extractLsb'_eq_of_getLsbD fun i hi => ?_, ?_, ?_⟩
  · rw [getLsbD_configWord, Nat.zero_add, if_pos hi]
  · rw [getLsbD_configWord, if_neg (by omega), if_pos (by omega), Nat.add_sub_cancel_left]
  · rw [getLsbD_configWord]; rfl
  · rw [getLsbD_configWord]; rfl

theorem statusWord_fields (s : State) :
    (statusWord s).getLsbD 0 = s.busy ∧ (statusWord s).getLsbD 1 = s.transmitting ∧
      (statusWord s).getLsbD 2 = s.collisionDetected ∧ (statusWord s).extractLsb' 3 13 = 0 := by
  refine ⟨?_, ?_, ?_, extractLsb'_eq_of_getLsbD fun i hi => ?_⟩ <;> rw [getLsbD_statusWord]
  · rfl
  · rfl
  · rfl
  · rw [if_neg (by omega), if_neg (by omega), decide_eq_false (by omega)]; simp

theorem arbWord_fields (s : State) :
    (arbWord s).extractLsb' 0 3 = s.arbState.code ∧ (arbWord s).getLsbD 3 = s.timer.isSome ∧
      (arbWord s).getLsbD 4 = s.txEn ∧ (arbWord s).getLsbD 5 = s.rxEn ∧
      (arbWord s).getLsbD 6 = s.forceLine ∧ (arbWord s).extractLsb' 7 9 = 0 := by
  refine ⟨extractLsb'_eq_of_getLsbD fun i hi => ?_, ?_, ?_, ?_, ?_,
    extractLsb'_eq_of_getLsbD fun i hi => ?_⟩ <;> rw [getLsbD_arbWord]
  · rw [Nat.zero_add, if_pos hi]
  · rfl
  · rfl
  · rfl
  · rfl
  · rw [if_neg (by omega), if_neg (by omega), if_neg (by omega), if_neg (by omega),
      decide_eq_false (by omega)]
    simp

theorem protoWord_fields (s : State) :
    (protoWord s).getLsbD 0 = s.progMode ∧ (protoWord s).extractLsb' 1 2 = s.txState.code ∧
      (protoWord s).extractLsb' 3 13 = 0 := by
  refine ⟨?_, extractLsb'_eq_of_getLsbD fun i hi => ?_,
    extractLsb'_eq_of_getLsbD fun i hi => ?_⟩ <;> rw [getLsbD_protoWord]
  · rfl
  · rw [if_neg (by omega), decide_eq_true (by omega), Nat.add_sub_cancel_left, Bool.true_and]
  · rw [if_neg (by omega), decide_eq_false (by omega)]; simp

/-- Settles O34: the operand check, then the fields of each of the four words. -/
theorem registerViewLayout : Obligations.RegisterViewLayout := by
  refine ⟨⟨rfl, rfl, rfl, rfl, rfl⟩, ⟨rfl, fun _ _ => rfl, fun _ => rfl⟩, fun s r hs =>
    ⟨fun hr => ?_, fun hr => ⟨regWord s r, ?_, ?_, ?_, ?_, ?_⟩⟩⟩
  · rw [exec_readReg hs, if_neg (by rw [readRegOk_iff]; omega)]
  · rw [exec_readReg hs, if_pos (readRegOk_iff.2 hr)]; rfl
  · rintro rfl; exact configWord_fields s
  · rintro rfl; exact statusWord_fields s
  · rintro rfl; exact arbWord_fields s
  · rintro rfl; exact protoWord_fields s

/-! ## The invariant -/

theorem State.Inv.cap_pos (h : s.Inv) : 0 < s.params.cap := Nat.zero_lt_of_lt h.rd

/-- An expiry goes to `Idle` with no delay, or to another state with a new one (40_arbitration.md
R138). -/
theorem State.Inv.timerExpired (h : s.Inv) : (Machine.timerExpired s).Inv := by
  unfold Machine.timerExpired
  split
  case h_1 =>
    unfold cdExpired
    split
    · exact { h with timer := iff_of_true rfl rfl }
    · exact { h with timer := iff_of_false nofun nofun }
  case h_2 =>
    unfold mdExpired
    split
    · exact { h with timer := iff_of_false nofun nofun }
    · exact { h with timer := iff_of_true rfl rfl }
  case h_3 => exact { h with timer := iff_of_true rfl rfl }
  case h_4 => rw [lbExpired_eq]; exact { h with timer := iff_of_true rfl rfl }
  case h_5 hidle => exact { h with timer := iff_of_true rfl hidle }

/-- A bus edge arms a delay in a state other than `Idle`. -/
theorem State.Inv.arm (h : s.Inv) (d : Nat) {b : Bool} {a : ArbState} (ha : a ≠ .idle) :
    ({ { s with busy := b }.arm d with arbState := a } : State).Inv :=
  { h with timer := iff_of_false nofun ha }

theorem State.Inv.push {b : Byte} (h : s.Inv) (hp : push b s = .next t) : t.Inv := by
  obtain ⟨-, rfl⟩ | ⟨-, rfl⟩ := push_eq_next hp
  · exact { h with
      wr := Nat.mod_lt _ h.cap_pos
      rb := Memory.write_wf h.rb _ _
      rbBound := Memory.write_bound h.rbBound h.wr _ }
  · exact { h with }

theorem State.Inv.svcCheck (h : s.Inv) :
    ({ s with
      svcLatch := decide (s.txState = .none) && decide (s.txq ≠ []) && !s.busy } : State).Inv :=
  { h with
    latch := fun hl => by
      obtain ⟨⟨hn, hq⟩, -⟩ : (s.txState = .none ∧ s.txq ≠ []) ∧ s.busy = false := by simpa using hl
      exact ⟨hq, hn⟩ }

theorem State.Inv.startTransmission (h : s.Inv) (hl : s.svcLatch = true) :
    (Machine.startTransmission s).Inv := by
  have hn := (h.latch hl).2
  have hcap := h.txqCap
  unfold Machine.startTransmission
  split
  case h_1 f q hq =>
    have hv := h.txqValid
    rw [hq] at hv
    exact { h with
      txqCap := by simpa [framesHeld, hq, hn] using hcap
      txqValid := fun g hg => hv g (List.mem_cons_of_mem _ hg)
      sending := fun g c hg => by cases hg; exact ⟨hv f List.mem_cons_self, Nat.zero_le _⟩
      flag := rfl
      latch := fun hl => by cases hl }
  case h_2 => exact { h with latch := fun hl => by cases hl }

theorem State.Inv.txReady (h : s.Inv) : (Machine.txReady s).Inv := by
  unfold Machine.txReady
  split
  case h_1 f c hx =>
    have hcap := h.txqCap
    have hf := h.flag
    have hlatch : s.svcLatch ≠ true := fun hl => by simpa [hx] using (h.latch hl).2
    split
    case h_1 b hb =>
      exact { h with
        txqCap := by simpa [framesHeld, hx] using hcap
        sending := fun g k hg => by
          cases hg
          exact ⟨(h.sending f c hx).1, (List.getElem?_eq_some_iff.1 hb).1⟩
        flag := by simpa [hx, TxState.isSending] using hf
        latch := fun hl => absurd hl hlatch }
    case h_2 =>
      exact { h with
        txqCap := by simpa [framesHeld, hx] using hcap
        sending := fun g k hg => by cases hg
        flag := rfl
        latch := fun hl => absurd hl hlatch }
  case h_2 => exact h
  case h_3 => exact h

theorem State.Inv.txComplete (h : s.Inv) : (Machine.txComplete s).Inv := by
  unfold Machine.txComplete
  split
  case h_1 f hx =>
    have hcap := h.txqCap
    have hf := h.flag
    exact { h with
      txqCap := Nat.le_of_succ_le (by simpa [framesHeld, hx] using hcap)
      sending := fun g k hg => by cases hg
      flag := by simpa [hx, TxState.isSending] using hf
      latch := fun hl => ⟨(h.latch hl).1, rfl⟩ }
  case h_2 => exact h
  case h_3 => exact h

theorem cvEntries_hid {p : Params} {e : RegEntry} (h : e ∈ cvEntries p) : e.hid = 0 := by
  obtain ⟨o, -, rfl⟩ := List.mem_map.1 h
  rfl

theorem State.Inv.resetFields (h : s.Inv) : (Machine.resetFields s).Inv := by
  obtain ⟨-, -, -, hreg, -⟩ := h.params
  exact { h with
    rd := h.cap_pos
    wr := h.cap_pos
    regCap := hreg
    regCv := fun _ => List.prefix_rfl
    txqCap := Nat.zero_le _
    txqValid := fun f hf => by cases hf
    sending := fun f c hx => by cases hx
    flag := rfl
    timer := iff_of_true rfl rfl
    latch := fun hl => by cases hl }

theorem State.Inv.register (h : s.Inv) (hr : s.reg.length < s.params.regCap) (e : RegEntry) :
    ({ s with reg := s.reg ++ [e] } : State).Inv :=
  { h with
    regCap := by simpa using hr
    regCv := fun hu => (h.regCv hu).trans (List.prefix_append _ _) }

/-- No external entry is one of the CV unit's, so these stay in front (43_cv_handler.md R260). -/
theorem State.Inv.unregister (h : s.Inv) {e : RegEntry} (he : e.hid ≠ 0) :
    ({ s with reg := s.reg.filter (fun x => x ≠ e) } : State).Inv :=
  { h with
    regCap := (List.length_filter_le _ _).trans h.regCap
    regCv := fun hu => by
      have hk : (cvEntries s.params).filter (fun x => x ≠ e) = cvEntries s.params :=
        List.filter_eq_self.2 fun x hx => by
          simpa using fun hxe : x = e => he (hxe ▸ cvEntries_hid hx)
      have := (h.regCv hu).filter (fun x => decide (x ≠ e))
      rwa [hk] at this }

/-- Every effect of an instruction keeps the invariant. -/
theorem State.Inv.did (h : s.Inv) (hd : Did i s t) : t.Inv := by
  have hd' := hd
  cases i <;> simp only [Did] at hd
  case reset => obtain ⟨-, rfl⟩ := hd; exact h.resetFields
  case evBusFall => rw [hd]; exact h.arm _ (by simp)
  case evBusRise => rw [hd]; exact h.arm _ (by simp)
  case evTimerExpiry =>
    rw [hd]; split
    · exact h.timerExpired
    · exact h
  case evRxByte =>
    obtain ⟨-, -, rfl⟩ | ⟨-, hp⟩ := hd
    · exact h.collide _
    · exact h.push hp
  case evRxError => rw [hd]; exact h.collide _
  case evTxReady => rw [hd]; exact h.txReady
  case evTxComplete => rw [hd]; exact h.txComplete
  case svcCheck => rw [hd]; exact h.svcCheck
  case svcAct =>
    rw [hd]; split
    · exact h.startTransmission ‹_›
    · exact h
  case register => obtain ⟨-, hr, rfl⟩ := hd; exact h.register hr _
  case unregister => obtain ⟨hk, rfl⟩ := hd; exact h.unregister (registerOk_iff.1 hk).2
  case readReg => obtain ⟨-, rfl⟩ := hd; exact { h with }
  all_goals
    obtain ⟨rd, r, u, he, rfl, -, hrd⟩ := hd'.effect (by simp [framer, cvRequestInstr])
    have hs : State.Inv { s with rd := rd } := { h with rd := hrd h.rd }
    have hu : u.Inv := hs.effect he
    exact { hu with }

/-- An instruction keeps the invariant, whatever it is and whether or not the machine is held. -/
theorem State.Inv.exec (h : s.Inv) (he : exec i s = .next t) : t.Inv := by
  obtain ⟨rfl, -⟩ | ⟨-, hd⟩ := exec_eq_next he
  · exact h
  · exact h.did hd

/-- Settles O58: the invariant does not read `input`, and every instruction's effect keeps it. -/
theorem everyStepKeepsTheInvariant : Obligations.EveryStepKeepsTheInvariant := by
  intro s t h hst
  obtain rfl | ⟨i, rest, -, he⟩ := step_eq_next hst
  · exact h
  · have hs : State.Inv { s with input := rest } := { h with }
    exact hs.exec he

/-! ## `transmitting` without `busy` -/

theorem State.reset_inv : State.reset.Inv where
  params   := by decide
  rd       := by decide
  wr       := by decide
  rb       := by decide
  rbBound  := nofun
  store    := by decide
  regCap   := by decide
  regCv    := fun _ => List.prefix_rfl
  txqCap   := by decide
  txqValid := nofun
  sending  := nofun
  flag     := rfl
  timer    := iff_of_true rfl rfl
  latch    := nofun

/-- In the middle of a transmission that started while the delay of a device that is no master and has
priority 0 was running: the start does not read `busy` again (42_tx_queue.md R233). -/
def sendingInMasterDelay : State :=
  { State.reset with
    busy := true, transmitting := true, txState := .sending [0x80, 0x80] 1, lastSent := some 0x80
    arbState := .masterDelayWait, timer := some 360 }

theorem sendingInMasterDelay_inv : sendingInMasterDelay.Inv :=
  { State.reset_inv with
    txqCap := by decide
    sending := fun f c h => by cases h; decide
    flag := rfl
    timer := iff_of_false nofun nofun
    latch := nofun }

/-- Settles O23: the expiry of the master delay clears `busy` under the frame being sent
(40_arbitration.md R135). -/
theorem transmittingDoesNotKeepBusy : Obligations.TransmittingDoesNotKeepBusy :=
  ⟨sendingInMasterDelay, _, sendingInMasterDelay_inv, by decide, rfl, rfl, rfl, rfl, rfl⟩

end Sys2Proof.Machine
end

section
/-! SUPPORT. The family of 20_memory.md: the order of operations, and what each domain writes. -/

namespace Sys2Proof.Machine

variable {s t : State} {i : Instr}

/-! ## The order of operations -/

/-- Only the command byte 0 is read as `RESET` (30_encoding.md R110). -/
theorem head_of_decodeCommand_reset {b : Byte} {bs rest : List Byte}
    (h : decodeCommand (b :: bs) = .ok (.reset, rest)) : b = 0x00 := by
  simp only [decodeCommand, operand1, operand2, operandFrame] at h
  split at h
  case h_1 hb => exact BitVec.eq_of_toNat_eq hb
  all_goals
    repeat' split at h
    all_goals cases h

/-- Where the CORE may run the command its decoder reads, the fetch answers it. -/
theorem fetch_of_decodeCommand {rest : List Byte} (h : decodeCommand s.input = .ok (i, rest))
    (hi : s.up = true ∨ i = .reset) : fetch s = .instr i rest := by
  unfold fetch
  cases hin : s.input with
  | nil => rw [hin] at h; cases h
  | cons b bs =>
    rw [hin] at h
    have hgo : ¬ (s.up = false ∧ b ≠ 0x00) := by
      rintro ⟨hu, hb⟩
      obtain hup | rfl := hi
      · rw [hu] at hup; cases hup
      · exact hb (head_of_decodeCommand_reset h)
    simp only [if_neg hgo, h]

/-- Before the first `RESET` every other command is fetched as a refusal (60_exceptions.md R332). -/
theorem fetch_of_notUp {rest : List Byte} (h : decodeCommand s.input = .ok (i, rest))
    (hu : s.up = false) (hi : i ≠ .reset) : fetch s = .bad .notUp := by
  unfold fetch
  cases hin : s.input with
  | nil => rw [hin] at h; cases h
  | cons b bs =>
    have hb : b ≠ 0x00 := by
      rintro rfl
      rw [hin] at h
      cases h
      exact hi rfl
    exact if_pos ⟨hu, hb⟩

/-- Settles O8: the fetch answers the decoded command, or refuses it where `exec` refuses it too. -/
theorem stepRunsDecodedCommand : Obligations.StepRunsDecodedCommand := by
  refine fun s hl => ⟨fun i rest h => ?_, fun hin => ?_⟩
  · rw [step, gate_live hl]
    by_cases hi : s.up = true ∨ i = .reset
    · rw [fetch_of_decodeCommand h hi]
    · obtain ⟨hu, hr⟩ := not_or.1 hi
      have hu : s.up = false := Bool.eq_false_iff.2 hu
      rw [fetch_of_notUp h hu hr, exec_notUp (s := { s with input := rest }) hl hu hr]
  · rw [step, gate_live hl, fetch, hin]

/-! ## What each domain writes -/

/-- At most the fields a notification may write differ (20_memory.md R81): the flags, the arbitration
unit, the buffer's writer side, the transmit state, the trace, and the mark of a hold. -/
def NotificationWrites (s t : State) : Prop :=
  t = { s with
    busy := t.busy, transmitting := t.transmitting, collisionDetected := t.collisionDetected
    arbState := t.arbState, timer := t.timer
    txEn := t.txEn, rxEn := t.rxEn, forceLine := t.forceLine
    wr := t.wr, rb := t.rb
    txq := t.txq, txState := t.txState, lastSent := t.lastSent
    out := t.out, hung := t.hung }

/-- At most the fields of the service, the registry and the register view differ: what a polling
operation writes that neither queues a frame nor runs the CV unit. -/
def ServiceWrites (s t : State) : Prop :=
  t = { s with
    busy := t.busy, transmitting := t.transmitting
    txq := t.txq, txState := t.txState, lastSent := t.lastSent, svcLatch := t.svcLatch
    reg := t.reg, out := t.out, result := t.result }

/-- What the framer, the CV unit and the queueing commands write: the reader, the effect of a dispatch,
and the result. -/
def FramerWrites (s t : State) : Prop :=
  ∃ rd r u, Effect { s with rd := rd } u ∧ t = { u with result := r }

theorem timerExpired_writes (s : State) : NotificationWrites s (timerExpired s) := by
  unfold timerExpired cdExpired mdExpired pdExpired NotificationWrites
  repeat' split
  all_goals rfl

theorem collide_writes (cause : Cause) (s : State) : NotificationWrites s (collide cause s) := by
  rw [collide_eq]; rfl

theorem push_writes {b : Byte} (h : push b s = .next t) : NotificationWrites s t := by
  obtain ⟨-, rfl⟩ | ⟨-, rfl⟩ := push_eq_next h <;> rfl

theorem txReady_writes (s : State) : NotificationWrites s (txReady s) := by
  unfold txReady
  repeat' split
  all_goals rfl

theorem txComplete_writes (s : State) : NotificationWrites s (txComplete s) := by
  unfold txComplete
  split <;> rfl

theorem startTransmission_writes (s : State) : ServiceWrites s (startTransmission s) := by
  unfold startTransmission
  split <;> rfl

/-- An instruction is `RESET`, or writes the fields of its domain. -/
theorem Did.writes (h : Did i s t) :
    (i = .reset ∧ t = resetFields s) ∨ (notification i = true ∧ NotificationWrites s t) ∨
    (notification i = false ∧ (ServiceWrites s t ∨ FramerWrites s t)) := by
  have hd := h
  cases i <;> simp only [Did] at h
  case reset => exact .inl ⟨rfl, h.2⟩
  case evBusFall => exact .inr (.inl ⟨rfl, by rw [h]; rfl⟩)
  case evBusRise => exact .inr (.inl ⟨rfl, by rw [h]; rfl⟩)
  case evTimerExpiry =>
    refine .inr (.inl ⟨rfl, ?_⟩)
    rw [h]; split
    · exact timerExpired_writes s
    · rfl
  case evRxByte =>
    refine .inr (.inl ⟨rfl, ?_⟩)
    obtain ⟨-, -, rfl⟩ | ⟨-, hp⟩ := h
    · exact collide_writes _ s
    · exact push_writes hp
  case evRxError => exact .inr (.inl ⟨rfl, h ▸ collide_writes _ s⟩)
  case evTxReady => exact .inr (.inl ⟨rfl, h ▸ txReady_writes s⟩)
  case evTxComplete => exact .inr (.inl ⟨rfl, h ▸ txComplete_writes s⟩)
  all_goals refine .inr (.inr ⟨rfl, ?_⟩)
  case svcCheck => exact .inl (by rw [h]; rfl)
  case svcAct =>
    refine .inl ?_
    rw [h]; split
    · exact startTransmission_writes s
    · rfl
  case register => obtain ⟨-, -, rfl⟩ := h; exact .inl rfl
  case unregister => obtain ⟨-, rfl⟩ := h; exact .inl rfl
  case readReg => obtain ⟨-, rfl⟩ := h; exact .inl rfl
  all_goals
    obtain ⟨rd, r, u, he, ht, -⟩ := hd.effect (by simp [framer, cvRequestInstr])
    exact .inr ⟨rd, r, u, he, ht⟩

/-- The frame of the notification domain (20_memory.md R81). -/
theorem NotificationWrites.pollingFields (h : NotificationWrites s t) :
    t.rd = s.rd ∧ t.reg = s.reg ∧ t.progMode = s.progMode ∧ t.store = s.store := by
  rw [h]; exact ⟨rfl, rfl, rfl, rfl⟩

/-- The frame of the polling domain (20_memory.md R81). -/
theorem pollingWrites_notificationFields (h : ServiceWrites s t ∨ FramerWrites s t) :
    t.wr = s.wr ∧ t.rb = s.rb ∧ t.arbState = s.arbState ∧ t.timer = s.timer ∧ t.txEn = s.txEn ∧
      t.rxEn = s.rxEn ∧ t.forceLine = s.forceLine := by
  obtain h | ⟨rd, r, u, he, rfl⟩ := h
  · rw [h]; exact ⟨rfl, rfl, rfl, rfl, rfl, rfl, rfl⟩
  · rw [he.frame]; exact ⟨rfl, rfl, rfl, rfl, rfl, rfl, rfl⟩

/-- Settles O22, by the frame of each domain; a held machine writes nothing. -/
theorem domainsWriteOnlyTheirState : Obligations.DomainsWriteOnlyTheirState := by
  intro i s t h hi
  obtain ⟨rfl, -⟩ | ⟨-, hd⟩ := exec_eq_next h
  · exact ⟨fun _ => ⟨rfl, rfl, rfl, rfl⟩, fun _ => ⟨rfl, rfl, rfl, rfl, rfl, rfl, rfl⟩⟩
  · obtain ⟨hr, -⟩ | ⟨hn, hw⟩ | ⟨hn, hw⟩ := hd.writes
    · exact absurd hr hi
    · exact ⟨fun _ => hw.pollingFields, fun hf => absurd hf (by simp [hn])⟩
    · exact ⟨fun hf => absurd hf (by simp [hn]), fun _ => pollingWrites_notificationFields hw⟩

/-! ## Config and the store -/

/-- Config is in step with a store in canonical form: the invariant as a step needs it. -/
def State.ConfigInStep (s : State) : Prop :=
  Memory.wf unlistedSlot s.store ∧ s.ConfigTracksStore

/-- The invariant reads five fields. -/
theorem State.ConfigInStep.congr (h : s.ConfigInStep) (hst : t.store = s.store)
    (hp : t.params = s.params) (hu : t.up = s.up) (ha : t.address = s.address)
    (hm : t.isMaster = s.isMaster) : t.ConfigInStep := by
  obtain ⟨hw, hc⟩ := h
  refine ⟨hst ▸ hw, fun ht => ?_⟩
  rw [cvLookup_congr hst hp, ha, hm, hp]
  exact hc (hu ▸ ht)

/-- `RESET` takes Config from the store and the parameters (70_reset_and_hazards.md R360). -/
theorem State.ConfigInStep.resetFields (h : s.ConfigInStep) :
    (Machine.resetFields s).ConfigInStep :=
  ⟨h.1, fun _ => ⟨congrArg (BitVec.setWidth 10) (cvLookup_congr (s := s) rfl rfl 0).symm, rfl⟩⟩

/-- A persisted write of slot 0 refreshes the address, and nothing else inside the framer moves either
(43_cv_handler.md R275). -/
theorem State.ConfigInStep.effect (h : s.ConfigInStep) (he : Effect s t) : t.ConfigInStep := by
  obtain ⟨hw, hc⟩ := h
  have hu : t.up = s.up := by rw [he.frame]
  have hm : t.isMaster = s.isMaster := by rw [he.frame]
  refine ⟨he.wf hw, fun ht => ?_⟩
  obtain ⟨ha, hs⟩ := hc (hu ▸ ht)
  exact ⟨he.config hw ha, by rw [hm, he.params, hs]⟩

/-- Only `RESET` and the framer touch what the invariant reads. -/
theorem State.ConfigInStep.did (h : s.ConfigInStep) (hd : Did i s t) : t.ConfigInStep := by
  obtain ⟨-, rfl⟩ | ⟨-, hw⟩ | ⟨-, hw | ⟨rd, r, u, he, rfl⟩⟩ := hd.writes
  · exact h.resetFields
  · rw [hw]; exact h.congr rfl rfl rfl rfl rfl
  · rw [hw]; exact h.congr rfl rfl rfl rfl rfl
  · have hs : State.ConfigInStep { s with rd := rd } := h.congr rfl rfl rfl rfl rfl
    exact (hs.effect he).congr rfl rfl rfl rfl rfl

/-- Settles O57: `input` is not read, and every instruction's effect keeps the invariant. -/
theorem everyStepKeepsConfigInStep : Obligations.EveryStepKeepsConfigInStep := by
  intro s t hw hc hst
  obtain rfl | ⟨i, rest, -, he⟩ := step_eq_next hst
  · exact ⟨hw, hc⟩
  · have hs : State.ConfigInStep { s with input := rest } :=
      State.ConfigInStep.congr ⟨hw, hc⟩ rfl rfl rfl rfl rfl
    obtain ⟨rfl, -⟩ | ⟨-, hd⟩ := exec_eq_next he
    · exact hs
    · exact hs.did hd

end Sys2Proof.Machine
end

section
/-! SUPPORT. The family of 30_encoding.md: the checksum, the CvMessage layout, the refused commands, and
decode against encode. -/

namespace Sys2Proof

/-! ## The checksum -/

/-- A byte with one bit set is not zero. -/
theorem one_shiftLeft_ne_zero {i : Nat} (hi : i < 8) : (1 : Byte) <<< i ≠ 0 := by
  intro h
  have hbit : ((1 : Byte) <<< i).getLsbD i = true := by simp [hi]
  rw [h] at hbit
  simp at hbit

/-- The same change in two bytes leaves the XOR (30_encoding.md R97). -/
theorem xorAll_set_set (f : List Byte) {j k : Nat} (hj : j < f.length) (hk : k < f.length)
    (hjk : j ≠ k) (d : Byte) :
    xorAll ((f.set j (f[j] ^^^ d)).set k (f[k] ^^^ d)) = xorAll f := by
  have hk' : k < (f.set j (f[j] ^^^ d)).length := by rwa [List.length_set]
  have hget : (f.set j (f[j] ^^^ d))[k] = f[k] := List.getElem_set_ne hjk hk'
  calc xorAll ((f.set j (f[j] ^^^ d)).set k (f[k] ^^^ d))
      = xorAll (f.set j (f[j] ^^^ d)) ^^^ d := by rw [← hget, xorAll_set _ k hk']
    _ = xorAll f ^^^ d ^^^ d := by rw [xorAll_set f j hj]
    _ = xorAll f := by rw [BitVec.xor_assoc, BitVec.xor_self, BitVec.xor_zero]

/-- The checksum byte of a valid frame has bit 7 set: only the opcode and it can have it, and the XOR
does not (30_encoding.md R96). -/
theorem validFrame_getLast {f : Frame} (h : validFrame f = true) :
    ∃ c, f.getLast? = some c ∧ c.msb = true := by
  obtain ⟨b0, b1, tl, rfl⟩ := validFrame_shape h
  obtain ⟨hopc, -, -, hdata, hxor⟩ := validFrame_cons.1 h
  have hne : b1 :: tl ≠ [] := List.cons_ne_nil b1 tl
  refine ⟨(b1 :: tl).getLast hne, by rw [List.getLast?_cons_cons, List.getLast?_eq_some_getLast hne], ?_⟩
  have hmsb := congrArg BitVec.msb hxor
  rw [xorAll, ← List.dropLast_append_getLast hne, xorAll_append, BitVec.msb_xor, BitVec.msb_xor,
    hopc, xorAll_msb hdata] at hmsb
  simpa [chkTarget, xorAll] using hmsb

/-- Settles O15: a changed byte changes the XOR by the change, so one flipped bit shows and two at the
same position cancel. -/
theorem checksumDetectsOneFlippedBit : Obligations.ChecksumDetectsOneFlippedBit := by
  refine ⟨fun xs _ => xorAll_withChecksum xs, fun f k i hk hi hv => ?_,
    fun f j k i hj hk hjk _ => xorAll_set_set f hj hk hjk _, fun f => validFrame_getLast⟩
  have hset := xorAll_set f k hk (1 <<< i)
  refine ⟨hset, fun h => one_shiftLeft_ne_zero hi ?_⟩
  rw [hset, hv] at h
  exact BitVec.zero_xor.symm.trans h

/-! ## The CvMessage layout -/

theorem length_valueBytes (m : CvMessage) : m.valueBytes.length = 7 := rfl

theorem length_pack (m : CvMessage) : m.pack.length = 12 := rfl

/-- The side channel and the value bytes of a packed message have bit 7 clear (30_encoding.md R102). -/
theorem pack_drop_msb (m : CvMessage) : ∀ b ∈ m.pack.drop 4, b.msb = false := by
  have hdrop : m.pack.drop 4 = sideChannel m.valueBytes :: m.valueBytes.map clearMsb := rfl
  rw [hdrop]
  intro b hb
  obtain rfl | hb := List.mem_cons.1 hb
  · exact sideChannel_msb _ (length_valueBytes m).le
  · obtain ⟨d, -, rfl⟩ := List.mem_map.1 hb
    exact clearMsb_msb d

/-- Bytes with bit 7 clear, read at any place. -/
theorem msb_getD {p : List Byte} (h : ∀ b ∈ p, b.msb = false) (i : Nat) :
    (p.getD i 0).msb = false := by
  rw [List.getD_eq_getElem?_getD]
  cases hi : p[i]? with
  | none => rfl
  | some b => exact h b (List.mem_of_getElem? hi)

/-- The value bytes of an unpacked message are those read from the payload. -/
theorem valueBytes_unpack (p : List Byte) :
    (CvMessage.unpack p).valueBytes = (List.range 7).map (valueByte p) := by
  simp [CvMessage.valueBytes, CvMessage.unpack, lo_mkWord, hi_mkWord, List.range_succ]

/-- The side channel of the value bytes read from a payload is the payload's, where every bit 7 is
clear. -/
theorem sideChannel_valueBytes_unpack {p : List Byte} (h : ∀ i, (p.getD i 0).msb = false) :
    sideChannel (CvMessage.unpack p).valueBytes = p.getD 4 0 := by
  apply BitVec.eq_of_getLsbD_eq
  intro i hi
  rw [sideChannel_bits _ (by simp [length_valueBytes]) i hi, valueBytes_unpack]
  obtain hi7 | rfl : i < 7 ∨ i = 7 := by omega
  · have hget : ((List.range 7).map (valueByte p)).getD i 0 = valueByte p i := by simp [hi7]
    rw [hget, valueByte, (clearMsb_or _ _ (h (5 + i))).2]
  · rw [getLsbD_7, h 4, List.getD_eq_default _ _ (by simp)]; rfl

/-- A value byte read from a payload, bit 7 cleared, is the payload's byte. -/
theorem clearMsb_valueByte {p : List Byte} (h : ∀ i, (p.getD i 0).msb = false) (i : Nat) :
    clearMsb (valueByte p i) = p.getD (5 + i) 0 := (clearMsb_or _ _ (h (5 + i))).1

/-- Packing undoes unpacking where every byte has bit 7 clear (30_encoding.md R102). -/
theorem pack_unpack {p : List Byte} (hl : p.length = 12) (h : ∀ b ∈ p, b.msb = false) :
    (CvMessage.unpack p).pack = p := by
  have hd := msb_getD h
  have hv : (CvMessage.unpack p).valueBytes.map clearMsb
      = (List.range 7).map fun i => p.getD (5 + i) 0 := by
    simp [valueBytes_unpack, clearMsb_valueByte hd]
  rw [CvMessage.pack, sideChannel_valueBytes_unpack hd, hv]
  match p, hl with
  | [_, _, _, _, _, _, _, _, _, _, _, _], _ =>
    simp [CvMessage.unpack, lo_mkWord, hi_mkWord, List.range_succ]

/-- No value byte reads bit 7 of the side channel (30_encoding.md R101). -/
theorem valueByte_set_sideChannel {p : List Byte} (hl : p.length = 12) {i : Nat} (hi : i < 7) :
    valueByte (p.set 4 (p.getD 4 0 ||| 0x80)) i = valueByte p i := by
  have h4 : (p.set 4 (p.getD 4 0 ||| 0x80)).getD 4 0 = p.getD 4 0 ||| 0x80 := by
    simp [List.getD_eq_getElem?_getD, hl]
  have h5 : (p.set 4 (p.getD 4 0 ||| 0x80)).getD (5 + i) 0 = p.getD (5 + i) 0 := by
    simp [List.getD_eq_getElem?_getD, List.getElem?_set_ne (show 4 ≠ 5 + i by omega)]
  have hbit : (0x80 : Byte).getLsbD i = false := by interval_cases i <;> rfl
  rw [valueByte, h4, h5, BitVec.getLsbD_or, hbit, Bool.or_false, valueByte]

/-- Bit 7 of the side channel changes no other field (30_encoding.md R101). -/
theorem unpack_set_sideChannel {p : List Byte} (hl : p.length = 12) :
    CvMessage.unpack (p.set 4 (p.getD 4 0 ||| 0x80)) =
      { CvMessage.unpack p with msbBits := p.getD 4 0 ||| 0x80 } := by
  simp (disch := decide) only [CvMessage.unpack, valueByte_set_sideChannel hl]
  simp [List.getD_eq_getElem?_getD, hl]

/-- Settles O14, direction by direction. -/
theorem packAndUnpackAreInverse : Obligations.PackAndUnpackAreInverse :=
  ⟨fun m => ⟨length_pack m, pack_drop_msb m, fun chk => unpack_pack m [chk]⟩,
    fun _ => pack_unpack, fun _ => unpack_set_sideChannel⟩

/-! ## Refused commands -/

/-- A command byte outside the table (30_encoding.md R112). -/
theorem decodeCommand_unknown {b : Byte} (bs : List Byte)
    (h : 0x08 ≤ b.toNat ∧ b.toNat ≤ 0x0F ∨ 0x18 ≤ b.toNat) :
    decodeCommand (b :: bs) = .error .unknownCommand := by
  simp only [decodeCommand]
  split
  case h_17 => rfl
  all_goals omega

theorem operand2_short (f : Byte → Byte → Instr) {bs : List Byte} (h : bs.length < 2) :
    operand2 f bs = .error .truncatedCommand := by
  match bs, h with
  | [], _ => rfl
  | [_], _ => rfl

theorem operandFrame_short {bs : List Byte} (h : bs.length < 2) :
    operandFrame bs = .error .truncatedCommand := by
  match bs, h with
  | [], _ => rfl
  | [_], _ => rfl

/-- An `ENQUEUE` with fewer than `n` data bytes is truncated (30_encoding.md R111, R112). -/
theorem operandFrame_dataShort (opc : Byte) {n : Byte} {d : List Byte} (h : d.length < n.toNat) :
    operandFrame (opc :: n :: d) = .error .truncatedCommand := if_neg (Nat.not_le.2 h)

/-- A command of one operand that stops before it. -/
theorem decodeCommand_operand1_truncated {b : Byte} (hb : b = 0x04 ∨ b = 0x17) :
    decodeCommand [b] = .error .truncatedCommand := by
  obtain rfl | rfl := hb <;> rfl

/-- A command of two operands that stops before they end. -/
theorem decodeCommand_operand2_truncated {b : Byte} {bs : List Byte}
    (hb : b = 0x14 ∨ b = 0x15 ∨ b = 0x16) (h : bs.length < 2) :
    decodeCommand (b :: bs) = .error .truncatedCommand := by
  obtain rfl | rfl | rfl := hb <;> exact operand2_short _ h

namespace Machine

variable {s : State} {b : Byte} {bs : List Byte}

/-- Where the CORE is up, bytes that spell no command are refused: an unknown command byte by its
name, every other error of the decoder as a truncated command (60_exceptions.md R334). -/
theorem step_of_decodeCommand_error {e : DecodeError} (hs : s.Ready) (hin : s.input = b :: bs)
    (h : decodeCommand (b :: bs) = .error e) :
    step s = .refused (if e = .unknownCommand then .unknownCommand else .truncatedCommand) := by
  rw [step, gate_live hs.1, fetch, hin]
  cases e <;> simp [hs.2, h]

/-- Settles O9: the decoder names the error, the step refuses it. -/
theorem unknownAndTruncatedCommandsAreRefused :
    Obligations.UnknownAndTruncatedCommandsAreRefused := by
  intro s b bs hs hin
  refine ⟨fun h1 h2 => ?_, fun h => ?_, fun hb h => ?_, fun hb h => ?_, fun hb h => ?_,
    fun hb opc n d hbs h => ?_⟩
  · exact step_of_decodeCommand_error hs hin (decodeCommand_unknown bs (.inl ⟨h1, h2⟩))
  · exact step_of_decodeCommand_error hs hin (decodeCommand_unknown bs (.inr h))
  · subst h
    exact step_of_decodeCommand_error hs hin (decodeCommand_operand1_truncated hb)
  · exact step_of_decodeCommand_error hs hin (decodeCommand_operand2_truncated hb h)
  · subst hb
    exact step_of_decodeCommand_error hs hin (operandFrame_short h)
  · subst hb hbs
    exact step_of_decodeCommand_error hs hin (operandFrame_dataShort opc h)

end Machine

/-! ## Decode against encode -/

/-- Every instruction comes back from its encoding, by its own law. -/
theorem roundTrip (i : Instr) : Laws.RoundTrip.Statement i := by
  cases i with
  | reset => exact Laws.RoundTrip.reset
  | evBusFall => exact Laws.RoundTrip.evBusFall
  | evBusRise => exact Laws.RoundTrip.evBusRise
  | evTimerExpiry => exact Laws.RoundTrip.evTimerExpiry
  | evRxByte b => exact Laws.RoundTrip.evRxByte b
  | evRxError => exact Laws.RoundTrip.evRxError
  | evTxReady => exact Laws.RoundTrip.evTxReady
  | evTxComplete => exact Laws.RoundTrip.evTxComplete
  | step => exact Laws.RoundTrip.step
  | svcCheck => exact Laws.RoundTrip.svcCheck
  | svcAct => exact Laws.RoundTrip.svcAct
  | enqueue opc d => exact Laws.RoundTrip.enqueue opc d
  | longAck opc code => exact Laws.RoundTrip.longAck opc code
  | register key hid => exact Laws.RoundTrip.register key hid
  | unregister key hid => exact Laws.RoundTrip.unregister key hid
  | readReg r => exact Laws.RoundTrip.readReg r
  | frameFixed2 k chk => exact Laws.RoundTrip.frameFixed2 k chk
  | frameFixed4 k d0 d1 chk => exact Laws.RoundTrip.frameFixed4 k d0 d1 chk
  | frameFixed6 k d0 d1 d2 d3 chk => exact Laws.RoundTrip.frameFixed6 k d0 d1 d2 d3 chk
  | frameVariable k len body => exact Laws.RoundTrip.frameVariable k len body
  | opcPeerXfer len body => exact Laws.RoundTrip.opcPeerXfer len body
  | opcImmPacket len body => exact Laws.RoundTrip.opcImmPacket len body
  | opcWrSlData len body => exact Laws.RoundTrip.opcWrSlData len body
  | opcSlRdData len body => exact Laws.RoundTrip.opcSlRdData len body
  | opcLongAck d0 d1 chk => exact Laws.RoundTrip.opcLongAck d0 d1 chk
  | cvProgOn opc m => exact Laws.RoundTrip.cvProgOn opc m
  | cvProgOff opc m => exact Laws.RoundTrip.cvProgOff opc m
  | cvWrite opc m => exact Laws.RoundTrip.cvWrite opc m
  | cvRead opc m => exact Laws.RoundTrip.cvRead opc m
  | cvSlaveWrite opc payload => exact Laws.RoundTrip.cvSlaveWrite opc payload
  | cvSlaveRead opc payload => exact Laws.RoundTrip.cvSlaveRead opc payload

/-- Settles O12, instruction by instruction. -/
theorem decodeInvertsEncode : Obligations.DecodeInvertsEncode :=
  fun p i rest hp he => roundTrip i p rest hp he

/-- Settles O13: the decoders run on the eight words. -/
theorem sampleWordsDecode : Obligations.SampleWordsDecode :=
  ⟨rfl, rfl, rfl, rfl, rfl, rfl, rfl, by decide⟩

end Sys2Proof
end

section
/-! SUPPORT. The family of 40_arbitration.md: the bus edges, the expiry of a delay, the collision, and the
frame a collision returns. -/

namespace Sys2Proof.Machine

variable {s t : State} {i : Instr}

/-! ## The bus edges -/

theorem exec_evBusFall (h : s.Ready) :
    exec .evBusFall s =
      .next { { s with busy := true }.arm s.params.dLb with arbState := .lineBreakWait } := by
  rw [exec, execEvBusFall, whenUp_ready h]

theorem exec_evBusRise (h : s.Ready) :
    exec .evBusRise s =
      .next { { s with busy := true }.arm s.params.dCd with arbState := .carrierDetectWait } := by
  rw [exec, execEvBusRise, whenUp_ready h]

/-- Settles O16: each edge arms its delay, whatever the state before. -/
theorem busEdgesArmAndSetBusy : Obligations.BusEdgesArmAndSetBusy :=
  fun _ h => ⟨exec_evBusFall h, exec_evBusRise h⟩

/-! ## The expiry of a delay -/

theorem exec_evTimerExpiry {d : Nat} (h : s.Ready) (ht : s.timer = some d) :
    exec .evTimerExpiry s = .next (timerExpired s) := by
  rw [exec, execEvTimerExpiry, whenUp_ready h, ht]; rfl

/-- A master takes the bus when its carrier-detect delay ends (40_arbitration.md R134). -/
theorem timerExpired_carrierDetect_master (ha : s.arbState = .carrierDetectWait)
    (hm : s.isMaster = true) :
    timerExpired s = { s with timer := none, busy := false, arbState := .idle } := by
  simp only [timerExpired, ha, cdExpired, if_pos hm]

/-- A non-master goes on to its master delay (40_arbitration.md R134). -/
theorem timerExpired_carrierDetect_nonMaster (ha : s.arbState = .carrierDetectWait)
    (hm : s.isMaster = false) :
    timerExpired s = { s.arm s.params.dMd with arbState := .masterDelayWait } := by
  simp only [timerExpired, ha, cdExpired, if_neg (Bool.eq_false_iff.1 hm)]; rfl

/-- A nonzero priority goes on to its priority delay (40_arbitration.md R135). -/
theorem timerExpired_masterDelay_priority (ha : s.arbState = .masterDelayWait)
    (hp : s.priority ≠ 0) :
    timerExpired s =
      { s.arm (s.priority.toNat * s.params.dPrioUnit) with arbState := .priorityDelayWait } := by
  simp only [timerExpired, ha, mdExpired, if_pos hp]; rfl

/-- Priority 0 takes the bus when the master delay ends (40_arbitration.md R135). -/
theorem timerExpired_masterDelay_noPriority (ha : s.arbState = .masterDelayWait)
    (hp : s.priority = 0) :
    timerExpired s = { s with timer := none, busy := false, arbState := .idle } := by
  simp only [timerExpired, ha, mdExpired, if_neg (not_not.2 hp)]

theorem timerExpired_priorityDelay (ha : s.arbState = .priorityDelayWait) :
    timerExpired s = { s with timer := none, busy := false, arbState := .idle } := by
  simp only [timerExpired, ha, pdExpired]

/-- The collision return: the channel works again, `busy` stays (40_arbitration.md R137). -/
theorem timerExpired_lineBreak (ha : s.arbState = .lineBreakWait) :
    timerExpired s = { s with
      timer := none, collisionDetected := false, txEn := true, rxEn := true, forceLine := false
      arbState := .idle, out := s.out ++ [.chanEnable true true, .chanForceLine false] } := by
  simp only [timerExpired, ha, lbExpired_eq]

/-- Settles O17, one rule of the expiry per arbitration state. -/
theorem timerExpiryByState : Obligations.TimerExpiryByState := by
  intro s d h ht
  rw [exec_evTimerExpiry h ht]
  refine ⟨fun ha hm => ?_, fun ha hm => ?_, fun ha hp => ?_, fun ha hp => ?_, fun ha => ?_,
    fun ha => ?_⟩
  · rw [timerExpired_carrierDetect_master ha hm]
  · rw [timerExpired_carrierDetect_nonMaster ha hm]; rfl
  · rw [timerExpired_masterDelay_priority ha hp]; rfl
  · rw [timerExpired_masterDelay_noPriority ha hp]
  · rw [timerExpired_priorityDelay ha]
  · rw [timerExpired_lineBreak ha]

/-- Settles O18: the armed delay is the priority times the unit, which is monotone in the priority. -/
theorem priorityDelayGrowsWithPriority : Obligations.PriorityDelayGrowsWithPriority := by
  intro s₁ s₂ d₁ d₂ h₁ h₂ hp ht₁ ht₂ ha₁ ha₂ hn₁ hn₂ hle
  refine ⟨_, _, s₁.priority.toNat * s₁.params.dPrioUnit, s₂.priority.toNat * s₂.params.dPrioUnit,
    exec_evTimerExpiry h₁ ht₁, exec_evTimerExpiry h₂ ht₂, ?_⟩
  rw [timerExpired_masterDelay_priority ha₁ hn₁, timerExpired_masterDelay_priority ha₂ hn₂]
  refine ⟨rfl, rfl, rfl, rfl, rfl, rfl, ?_, fun hlt hu => ?_⟩
  · rw [hp]; exact Nat.mul_le_mul_right _ hle
  · rw [← hp]; exact Nat.mul_lt_mul_of_pos_right hlt hu

/-! ## The ways to `Idle` -/

@[simp] theorem collide_arbState (cause : Cause) (s : State) :
    (collide cause s).arbState = .lineBreakWait := rfl

@[simp] theorem txReady_arbState (s : State) : (txReady s).arbState = s.arbState := by
  unfold txReady
  repeat' split
  all_goals rfl

@[simp] theorem txComplete_arbState (s : State) : (txComplete s).arbState = s.arbState := by
  unfold txComplete
  split <;> rfl

theorem push_arbState {b : Byte} (h : push b s = .next t) : t.arbState = s.arbState := by
  obtain ⟨-, rfl⟩ | ⟨-, rfl⟩ := push_eq_next h <;> rfl

/-- An instruction other than an expiry and `RESET` enters a wait, or keeps the arbitration state. -/
theorem Did.arbState (h : Did i s t) (hr : i ≠ .reset) (he : i ≠ .evTimerExpiry) :
    t.arbState ≠ .idle ∨ t.arbState = s.arbState := by
  obtain ⟨hi, -⟩ | ⟨hn, -⟩ | ⟨-, hw⟩ := h.writes
  · exact absurd hi hr
  · cases i <;> simp only [notification, Bool.false_eq_true] at hn <;> simp only [Did] at h
    case evBusFall => exact .inl (by simp [h])
    case evBusRise => exact .inl (by simp [h])
    case evTimerExpiry => exact absurd rfl he
    case evRxByte b =>
      obtain ⟨-, -, rfl⟩ | ⟨-, hp⟩ := h
      · exact .inl (by simp)
      · exact .inr (push_arbState hp)
    case evRxError => exact .inl (by simp [h])
    case evTxReady => exact .inr (by simp [h])
    case evTxComplete => exact .inr (by simp [h])
  · obtain ⟨-, -, ha, -⟩ := pollingWrites_notificationFields hw
    exact .inr ha

/-- Settles O19: the rules of the rise and of the expiry, then what every other instruction does to the
arbitration state; a held machine stays in `MasterDelayWait`. -/
theorem masterDelayIsLeftToIdleOnlyByExpiry : Obligations.MasterDelayIsLeftToIdleOnlyByExpiry := by
  refine ⟨fun s h _ hm => ?_, fun i s t ha h hidle => ?_⟩
  · refine ⟨_, _, exec_evBusRise h, exec_evTimerExpiry (by exact h) rfl, ?_⟩
    rw [timerExpired_carrierDetect_nonMaster (by rfl) (by exact hm)]
    exact ⟨rfl, rfl, rfl⟩
  · by_contra hi
    obtain ⟨he, hr⟩ := not_or.1 hi
    have hstays : t.arbState ≠ .idle ∨ t.arbState = s.arbState := by
      obtain ⟨rfl, -⟩ | ⟨-, hd⟩ := exec_eq_next h
      · exact .inr rfl
      · exact hd.arbState hr he
    simp [hidle, ha] at hstays

/-! ## The collision -/

theorem exec_evRxError (h : s.Ready) : exec .evRxError s = .next (collide .framingError s) := by
  rw [exec, execEvRxError, whenUp_ready h]

/-- While transmitting, a byte other than the last one sent is a collision (41_rx_framer.md R172). -/
theorem exec_evRxByte_mismatch {b : Byte} (h : s.Ready) (ht : s.transmitting = true)
    (hb : s.lastSent ≠ some b) : exec (.evRxByte b) s = .next (collide .echoMismatch s) := by
  rw [exec, execEvRxByte, whenUp_ready h, if_pos ⟨ht, hb⟩]

/-- Settles O20: both causes are `collide`, whose writes are the collision's and the requeue's. -/
theorem collisionEntry : Obligations.CollisionEntry := by
  intro s cause t h hflag ht
  have hc : collide cause s = t := by
    have he := collide_eq cause s
    rw [requeue_eq hflag] at he
    exact he.trans ht.symm
  refine ⟨fun hcause => ?_, fun b hcause htx hb => ?_⟩
  · rw [exec_evRxError h, ← hc, hcause]
  · rw [exec_evRxByte_mismatch h htx hb, ← hc, hcause]

/-! ## The frame a collision returns -/

/-- A collision while `f` is being sent puts it back at the head of the queue (40_arbitration.md
R141). -/
theorem collide_sending {f : Frame} {c : Nat} (cause : Cause) (ht : s.transmitting = true)
    (hx : s.txState = .sending f c) :
    (collide cause s).transmitting = false ∧ (collide cause s).txState = .none ∧
      (collide cause s).txq = f :: s.txq := by
  have hflag : s.transmitting = s.txState.isSending := by rw [ht, hx]; rfl
  rw [collide_eq, requeue_eq hflag, hx]
  exact ⟨rfl, rfl, rfl⟩

/-- With nothing in flight, only a transmission start and `RESET` take the head from the queue. -/
theorem Did.head_waits {f : Frame} {q : List Frame} (h : Did i s t) (hr : i ≠ .reset)
    (ha : i ≠ .svcAct) (ht : s.transmitting = false) (hx : s.txState = .none)
    (hq : s.txq = f :: q) :
    t.transmitting = false ∧ t.txState = .none ∧ ∃ q', t.txq = f :: q' := by
  obtain ⟨htx, hst, fs, htq⟩ | ⟨hact, -⟩ | ⟨-, htrue, -⟩ | ⟨-, htq, hst, htx⟩ := h.queue hr
  · exact ⟨htx.trans ht, hst.trans hx, q ++ fs, by rw [htq, hq]; rfl⟩
  · exact absurd hact ha
  · rw [ht] at htrue; cases htrue
  · exact ⟨htx ht, hst hx, q, htq.trans hq⟩

/-- With the latch set, `SVC_ACT` starts the head of the queue from byte 0 (42_tx_queue.md R233). -/
theorem exec_svcAct_latched (h : s.Ready) (hl : s.svcLatch = true) :
    exec .svcAct s = .next (startTransmission s) := by
  rw [exec, execSvcAct, whenUp_ready h, if_pos hl]

theorem startTransmission_head {f : Frame} {q : List Frame} (hq : s.txq = f :: q) :
    (startTransmission s).txState = .sending f 0 ∧ (startTransmission s).txq = q := by
  simp [startTransmission, hq]

/-- Settles O41: the collision returns the frame, nothing takes it from the head, the start sends it. -/
theorem retriedFrameIsTheNextSent : Obligations.RetriedFrameIsTheNextSent := by
  refine ⟨fun i s f c h ht hx hi => ?_, fun i s t f q ht hx hq h hr ha => ?_, fun s f q h hq hl =>
    ⟨_, exec_svcAct_latched h hl, startTransmission_head hq⟩⟩
  · obtain rfl | ⟨b, rfl, hb⟩ := hi
    · exact ⟨_, exec_evRxError h, collide_sending _ ht hx⟩
    · exact ⟨_, exec_evRxByte_mismatch h ht hb, collide_sending _ ht hx⟩
  · obtain ⟨rfl, -⟩ | ⟨-, hd⟩ := exec_eq_next h
    · exact ⟨ht, hx, q, hq⟩
    · exact hd.head_waits hr ha ht hx hq

end Sys2Proof.Machine
end

section
/-! SUPPORT. The family of 41_rx_framer.md: the registry, the ring buffer, the framer step and its
dispatch, and the wire frames run by themselves. -/

namespace Sys2Proof.Machine

variable {s t u : State} {i : Instr} {opc : Byte} {payload : List Byte}

/-! ## The registry -/

/-- The operand check of `REGISTER` and `UNREGISTER` fails (30_encoding.md R111). -/
theorem withEntry_bad {k hid : Byte} (h : 32 ≤ k.toNat ∨ hid = 0) (op : RegEntry → Outcome) :
    withEntry k hid op = .refused .badOperand := by
  refine if_neg fun hok => ?_
  obtain ⟨hk, hh⟩ := registerOk_iff.1 hok
  obtain h | h := h
  · omega
  · exact hh h

/-- The operand check of `REGISTER` and `UNREGISTER` passes (30_encoding.md R111). -/
theorem withEntry_ok {k hid : Byte} (hk : k.toNat < 32) (hh : hid ≠ 0) (op : RegEntry → Outcome) :
    withEntry k hid op = op ⟨BitVec.ofNat 5 k.toNat, hid⟩ := if_pos (registerOk_iff.2 ⟨hk, hh⟩)

theorem exec_register (h : s.Ready) (k hid : Byte) :
    exec (.register k hid) s = withEntry k hid fun e =>
      if s.params.regCap ≤ s.reg.length then .fault .registryFull
      else .next { s with reg := s.reg ++ [e] } := by
  rw [exec, execRegister, whenUp_ready h]

theorem exec_unregister (h : s.Ready) (k hid : Byte) :
    exec (.unregister k hid) s =
      withEntry k hid fun e => .next { s with reg := s.reg.filter (fun x => x ≠ e) } := by
  rw [exec, execUnregister, whenUp_ready h]

/-- Settles O32: the operand check, then the room in the registry. -/
theorem registerAppends : Obligations.RegisterAppends := by
  refine fun s k hid hs => ⟨fun h => ?_, fun hk hh => ⟨fun hfull => ?_, fun hroom => ?_⟩⟩
  · rw [exec_register hs, withEntry_bad h]
  · rw [exec_register hs, withEntry_ok hk hh, if_pos hfull]
  · rw [exec_register hs, withEntry_ok hk hh, if_neg (Nat.not_le.2 hroom)]

/-- Without an external pair the entries of the CV unit are the same. -/
theorem filter_cvUnit_filter_ne (es : List RegEntry) {e : RegEntry} (he : e.hid ≠ 0) :
    (es.filter fun x => x ≠ e).filter (fun x => x.hid = 0) = es.filter fun x => x.hid = 0 := by
  rw [List.filter_filter]
  refine List.filter_congr fun x _ => ?_
  have hne : x.hid = 0 → x ≠ e := fun hx hxe => he (hxe ▸ hx)
  simpa using hne

/-- Settles O33: the operand check, then what a filter keeps. -/
theorem unregisterRemovesEveryCopy : Obligations.UnregisterRemovesEveryCopy := by
  refine fun s k hid hs => ⟨fun h => ?_, fun hk hh => ?_⟩
  · rw [exec_unregister hs, withEntry_bad h]
  · have hexec := (exec_unregister hs k hid).trans (withEntry_ok hk hh _)
    exact ⟨_, hexec, rfl, List.filter_sublist, fun e => by simp,
      fun e he => List.count_filter (by simpa using he), filter_cvUnit_filter_ne s.reg hh⟩

/-! ## The ring buffer -/

/-- A received byte that is no mismatch is pushed (41_rx_framer.md R172). -/
theorem exec_evRxByte_push {b : Byte} (h : s.Ready)
    (hb : s.transmitting = true → s.lastSent = some b) :
    exec (.evRxByte b) s = push b s := by
  rw [exec, execEvRxByte, whenUp_ready h, if_neg fun ⟨ht, hne⟩ => hne (hb ht)]

@[simp] theorem timerExpired_rb (s : State) : (timerExpired s).rb = s.rb := by
  unfold timerExpired cdExpired mdExpired pdExpired
  repeat' split
  all_goals rfl

@[simp] theorem txReady_rb (s : State) : (txReady s).rb = s.rb := by
  unfold txReady
  repeat' split
  all_goals rfl

@[simp] theorem txComplete_rb (s : State) : (txComplete s).rb = s.rb := by
  unfold txComplete
  split <;> rfl

@[simp] theorem collide_rb (cause : Cause) (s : State) : (collide cause s).rb = s.rb := by
  rw [collide_eq]

/-- An instruction leaves the cells, or is a received byte stored at the writer (20_memory.md
R62). -/
theorem Did.rb (h : Did i s t) :
    t.rb = s.rb ∨ ∃ b, i = .evRxByte b ∧ t = { s with rb := t.rb, wr := t.wr } := by
  obtain ⟨-, rfl⟩ | ⟨hn, -⟩ | ⟨-, hw⟩ := h.writes
  · exact .inl rfl
  · cases i <;> simp only [notification, Bool.false_eq_true] at hn <;> simp only [Did] at h
    case evRxByte b =>
      obtain ⟨-, -, rfl⟩ | ⟨-, hp⟩ := h
      · exact .inl (collide_rb _ s)
      · obtain ⟨-, rfl⟩ | ⟨-, rfl⟩ := push_eq_next hp
        · exact .inr ⟨b, rfl, rfl⟩
        · exact .inl rfl
    all_goals refine .inl ?_
    case evBusFall => rw [h]; rfl
    case evBusRise => rw [h]; rfl
    case evTimerExpiry => rw [h]; split <;> simp
    case evRxError => rw [h, collide_rb]
    case evTxReady => rw [h, txReady_rb]
    case evTxComplete => rw [h, txComplete_rb]
  · obtain ⟨-, hrb, -⟩ := pollingWrites_notificationFields hw
    exact .inl hrb

theorem push_stops (b : Byte) (s : State) : QueueStops (push b s) := by
  unfold push
  dsimp only
  split <;> trivial

/-- A gated operation is refused by itself or for an earlier refusal. -/
theorem gate_eq_refused {op : State → Outcome} {r : Refusal} (h : gate s op = .refused r) :
    op s = .refused r ∨ r = .afterRefusal := by
  unfold gate at h
  split at h
  · cases h
  split at h
  · cases h; exact .inr rfl
  split at h
  · cases h
  · exact .inl h

/-- The refusals an instruction can answer: for its place in the run, its operand, or its frame. -/
def Answerable (r : Refusal) : Prop :=
  r = .notUp ∨ r = .afterRefusal ∨ r = .badOperand ∨ r = .malformedEnqueue

theorem whenUp_answerable {op : State → Outcome} {r : Refusal} (h : whenUp s op = .refused r)
    (hop : op s = .refused r → Answerable r) : Answerable r := by
  obtain h | h | h := whenUp_eq_refused h
  · exact hop h
  · exact .inl h
  · exact .inr (.inl h)

theorem QueueStops.answerable {o : Outcome} {r : Refusal} (h : QueueStops o) (e : o = .refused r) :
    Answerable r := .inr (.inr (.inr (h.refused e)))

theorem framerOn_answerable {bs : List Byte} {r : Refusal} (h : framerOn bs s = .refused r) :
    Answerable r := by
  obtain hq | hf := framerOn_stops bs s
  · exact hq.answerable h
  · rw [hf] at h; cases h

theorem withEntry_answerable {k hid : Byte} {op : RegEntry → Outcome} {r : Refusal}
    (h : withEntry k hid op = .refused r) (hop : ∀ e, op e ≠ .refused r) : Answerable r := by
  unfold withEntry at h
  split at h
  · exact absurd h (hop _)
  · cases h; exact .inr (.inr (.inl rfl))

/-- No instruction is refused as `HOST_PUSH`, as an unknown or a truncated command. -/
theorem exec_answerable {r : Refusal} (h : exec i s = .refused r) : Answerable r := by
  cases i <;> simp only [exec, execReset, execEvBusFall, execEvBusRise, execEvTimerExpiry,
    execEvRxByte, execEvRxError, execEvTxReady, execEvTxComplete, execStep, execSvcCheck,
    execSvcAct, execEnqueue, execLongAck, execRegister, execUnregister, execReadReg,
    execFrameFixed2, execFrameFixed4, execFrameFixed6, execFrameVariable, execOpcPeerXfer,
    execOpcImmPacket, execOpcWrSlData, execOpcSlRdData, execOpcLongAck, execCvProgOn,
    execCvProgOff, execCvWrite, execCvRead, execCvSlaveWrite, execCvSlaveRead, frameStep] at h
  case reset =>
    obtain h | h := gate_eq_refused h
    · split at h <;> cases h
    · exact .inr (.inl h)
  case evRxByte b =>
    refine whenUp_answerable h (QueueStops.answerable ?_)
    split
    · trivial
    · exact push_stops b s
  case register =>
    exact whenUp_answerable h fun h => withEntry_answerable h fun e he => by
      split at he <;> cases he
  case unregister =>
    exact whenUp_answerable h fun h => withEntry_answerable h fun e he => by cases he
  case readReg =>
    refine whenUp_answerable h fun h => ?_
    unfold withRegister at h
    split at h <;> cases h
    exact .inr (.inr (.inl rfl))
  case enqueue => exact whenUp_answerable h (enqueueFrame_stops _ _ _).answerable
  case longAck => exact whenUp_answerable h (enqueueFrame_stops _ _ _).answerable
  case cvProgOn => exact whenUp_answerable h (progOn_stops _ _).answerable
  case cvWrite => exact whenUp_answerable h (cvWriteWith_stops _ _ _ _).answerable
  case cvRead => exact whenUp_answerable h (cvRead_stops _ _ _).answerable
  case cvSlaveWrite => exact whenUp_answerable h (slaveWrite_stops _ _).answerable
  case cvSlaveRead => exact whenUp_answerable h (slaveRead_stops _ _).answerable
  case evBusFall | evBusRise | evTimerExpiry | evRxError | evTxReady | evTxComplete | svcCheck
    | svcAct | cvProgOff => exact whenUp_answerable h fun h => by cases h
  all_goals exact whenUp_answerable h framerOn_answerable

/-- Settles O24: the push, then what every instruction does to the cells and how it can be
refused. -/
theorem receivedByteIsStoredAtTheWriter : Obligations.ReceivedByteIsStoredAtTheWriter := by
  refine ⟨fun s b hs hm hb hroom => ⟨_, (exec_evRxByte_push hs hb).trans (push_room hroom), rfl,
    fun a => Memory.read_write hm.1 s.wr a b⟩, fun i s => ⟨fun h => ?_, fun t h hne => ?_⟩⟩
  · obtain h | h | h | h := exec_answerable h <;> cases h
  · obtain ⟨rfl, -⟩ | ⟨-, hd⟩ := exec_eq_next h
    · exact absurd rfl hne
    · exact hd.rb.resolve_left hne

/-- The available bytes are the difference of the cursors, round the end of the buffer
(41_rx_framer.md R176). -/
theorem avail_eq_emod (hr : s.rd < s.params.cap) (hw : s.wr < s.params.cap) :
    (avail s : ℤ) = ((s.wr : ℤ) - (s.rd : ℤ)) % (s.params.cap : ℤ) := by
  unfold avail
  split
  · rw [Int.emod_eq_of_lt] <;> omega
  · rw [← Int.add_emod_right, Int.emod_eq_of_lt] <;> omega

/-- The buffer is empty when the cursors meet (20_memory.md R61). -/
theorem rd_eq_wr_iff (hr : s.rd < s.params.cap) :
    s.rd = s.wr ↔ readable s = [] := by
  rw [← List.length_eq_zero_iff, length_readable, avail]
  split <;> omega

/-- The buffer is full with all cells but one readable (20_memory.md R83). -/
theorem full_iff (hr : s.rd < s.params.cap) (hw : s.wr < s.params.cap) :
    (s.wr + 1) % s.params.cap = s.rd ↔ avail s = s.params.cap - 1 := by
  rw [mod_wrap (by omega), avail]
  split <;> split <;> omega

/-- Settles O25: the count from the cursors, then the queue's laws. -/
theorem ringBufferIsAQueue : Obligations.RingBufferIsAQueue := by
  refine fun s hr hw hm => ⟨avail_eq_emod hr hw, length_readable s, rd_eq_wr_iff hr,
    full_iff hr hw, fun b t h hroom => ?_, fun k hk => readable_advance hr hw hk⟩
  rw [push_room hroom] at h
  cases h
  exact readable_push hr hw hm hroom b

/-! ## The verdict, rule by rule -/

variable {bs tl : List Byte} {b0 b1 : Byte}

/-- Step 1 of the framer: fewer than two bytes (41_rx_framer.md R180). -/
theorem examine_of_length_lt (h : bs.length < 2) : examine bs = .wait := by
  match bs, h with
  | [], _ => rfl
  | [_], _ => rfl

/-- Step 2: a stray byte (41_rx_framer.md R181). -/
theorem examine_stray (hb : bs = b0 :: b1 :: tl) (hm : b0.msb = false) : examine bs = .stray := by
  subst hb
  exact if_pos hm

/-- Step 4: another opcode before the checksum (41_rx_framer.md R182). -/
theorem examine_rescan {k : Nat} (hb : bs = b0 :: b1 :: tl) (hm : b0.msb = true)
    (hk : firstMarked (bs.take (frameLen b0 b1 - 1)).tail = some k) :
    examine bs = .rescan (k + 1) := by
  subst hb
  simp only [examine, hm, Bool.true_eq_false, if_false, hk]

/-- Steps 5 to 7: no other opcode before the checksum (41_rx_framer.md R183 to R187). -/
theorem examine_unmarked (hb : bs = b0 :: b1 :: tl) (hm : b0.msb = true)
    (hk : firstMarked (bs.take (frameLen b0 b1 - 1)).tail = none) :
    examine bs =
      if bs.length < frameLen b0 b1 then .wait
      else if xorAll (bs.take (frameLen b0 b1)) ≠ chkTarget then .drop (frameLen b0 b1)
      else if frameLen b0 b1 < hdr b0 + 1 then .short
      else .deliver (frameLen b0 b1) b0 ((bs.take (frameLen b0 b1)).drop (hdr b0)) := by
  subst hb
  simp only [examine, hm, Bool.true_eq_false, if_false, hk]

/-! ## The readable bytes, by offset -/

/-- With two bytes available the readable bytes begin with them. -/
theorem readable_eq_cons (h : 2 ≤ avail s) :
    ∃ tl, readable s = cellAt s 0 :: cellAt s 1 :: tl := by
  obtain ⟨n, hn⟩ := Nat.exists_eq_add_of_le' h
  rw [readable, hn, List.range_succ_eq_map, List.range_succ_eq_map]
  exact ⟨_, rfl⟩

theorem take_readable {n : Nat} (h : n ≤ avail s) :
    (readable s).take n = (List.range n).map (cellAt s) := by
  rw [readable, ← List.map_take, List.take_range, Nat.min_eq_left h]

/-- The bytes the framer scans for another opcode are those at the offsets `1 .. min(n, av) - 1`. -/
theorem tail_take_readable (s : State) (n : Nat) :
    ((readable s).take n).tail =
      (List.range (min n (avail s) - 1)).map fun k => cellAt s (k + 1) := by
  rw [readable, ← List.map_take, List.take_range, ← List.map_tail]
  cases min n (avail s) with
  | zero => rfl
  | succ m => simp [List.range_succ_eq_map]

/-- The scan finds no other opcode. -/
theorem scan_eq_none {n : Nat}
    (h : ∀ k, 1 ≤ k → k < min n (avail s) → (cellAt s k).msb = false) :
    firstMarked ((readable s).take n).tail = none := by
  rw [tail_take_readable, firstMarked_none]
  intro b hb
  obtain ⟨k, hk, rfl⟩ := List.mem_map.1 hb
  have hk := List.mem_range.1 hk
  exact h (k + 1) (by omega) (by omega)

/-- The scan finds another opcode at offset `k + 1`. -/
theorem scan_eq_some {n k : Nat} (hk : k + 1 < min n (avail s))
    (hm : (cellAt s (k + 1)).msb = true) (hf : ∀ j < k, (cellAt s (j + 1)).msb = false) :
    firstMarked ((readable s).take n).tail = some k := by
  have hget : ∀ j ≤ k, (((readable s).take n).tail).getD j 0 = cellAt s (j + 1) := by
    intro j hj
    rw [tail_take_readable, List.getD_eq_getElem?_getD]
    simp [show j < min n (avail s) - 1 by omega]
  refine firstMarked_some.2 ⟨?_, ?_, fun j hj => ?_⟩
  · rw [tail_take_readable, List.length_map, List.length_range]; omega
  · rw [hget k (Nat.le_refl k), hm]
  · rw [hget j hj.le, hf j hj]

/-! ## The framer step -/

theorem exec_step (h : s.Ready) : exec .step s = framerOn (readable s) s := by
  rw [exec, execStep, whenUp_ready h]

/-- Settles O26, one rule of the verdict per clause. -/
theorem framerStepFollowsItsSevenSteps : Obligations.FramerStepFollowsItsSevenSteps := by
  rintro s len w hs rfl rfl
  refine ⟨fun h => ?_, fun h2 hm => ?_, fun h2 hm => ?_⟩
  · rw [exec_step hs, framerOn, examine_of_length_lt (by rwa [length_readable])]; rfl
  · obtain ⟨tl, htl⟩ := readable_eq_cons h2
    rw [exec_step hs, framerOn, examine_stray htl hm]; rfl
  obtain ⟨tl, htl⟩ := readable_eq_cons h2
  refine ⟨fun k hk1 hk hmk hfirst => ?_, fun hscan => ?_⟩
  · obtain ⟨k, rfl⟩ := Nat.exists_eq_add_of_le' hk1
    have hfound := scan_eq_some hk hmk fun j hj => hfirst (j + 1) (by omega) (by omega)
    rw [exec_step hs, framerOn, examine_rescan htl hm hfound]; rfl
  · have hunm := examine_unmarked htl hm (scan_eq_none hscan)
    rw [length_readable] at hunm
    refine ⟨fun hl => ?_, fun hl hx => ?_, fun hl hx hh => ?_, fun hl hx hh => ?_⟩
    · rw [exec_step hs, framerOn, hunm, if_pos hl]; rfl
    all_goals rw [if_neg (Nat.not_lt.2 hl), take_readable hl] at hunm
    · rw [exec_step hs, framerOn, hunm, if_pos hx]; rfl
    · rw [exec_step hs, framerOn, hunm, if_neg (not_not.2 hx), if_pos hh]
    · rw [exec_step hs, framerOn, hunm, if_neg (not_not.2 hx), if_neg (Nat.not_lt.2 hh)]; rfl

/-! ## The decoded frame -/

/-- The variable-class instruction of an opcode is a wire frame of that opcode. -/
theorem wireVariable_spec (p : Params) (len : Byte) (body : List Byte) (hc : frameClass opc = 7) :
    framer (wireVariable p opc len body) = true ∧ wireVariable p opc len body ≠ .step ∧
      encode p (wireVariable p opc len body) = opc :: len :: body := by
  have hk : mkOpc 7 (key opc) = opc := by rw [← hc, mkOpc_class_key]
  unfold wireVariable
  split
  · subst opc; exact ⟨rfl, nofun, rfl⟩
  split
  · subst opc; exact ⟨rfl, nofun, rfl⟩
  split
  · subst opc; exact ⟨rfl, nofun, rfl⟩
  split
  · subst opc; exact ⟨rfl, nofun, rfl⟩
  · exact ⟨rfl, nofun, by rw [encode, hk]⟩

/-- The 4-byte-class instruction of an opcode is a wire frame of that opcode. -/
theorem wireFixed4_spec (p : Params) (d0 d1 chk : Byte) (hc : frameClass opc = 5) :
    framer (wireFixed4 p opc d0 d1 chk) = true ∧ wireFixed4 p opc d0 d1 chk ≠ .step ∧
      encode p (wireFixed4 p opc d0 d1 chk) = [opc, d0, d1, chk] := by
  have hk : mkOpc 5 (key opc) = opc := by rw [← hc, mkOpc_class_key]
  unfold wireFixed4
  split
  · subst opc; exact ⟨rfl, nofun, rfl⟩
  · exact ⟨rfl, nofun, by rw [encode, hk]⟩

/-- The bytes `bs` start with the complete candidate frame of the wire instruction `i`
(30_encoding.md R92, R108). -/
def Candidate (p : Params) (i : Instr) (bs : List Byte) : Prop :=
  framer i = true ∧ i ≠ .step ∧ ∃ b0 b1 tl, bs = b0 :: b1 :: tl ∧ b0.msb = true ∧
    frameLen b0 b1 ≤ tl.length + 2 ∧ encode p i = b0 :: b1 :: tl.take (frameLen b0 b1 - 2)

/-- The wire decoder reads the complete candidate frame at the head of the bytes. -/
theorem candidate_of_decodeWire {p : Params} (h : decodeWire p bs = .ok i) : Candidate p i bs := by
  match bs with
  | [] => cases h
  | [b0] => simp only [decodeWire] at h; split at h <;> cases h
  | b0 :: b1 :: tl =>
    simp only [decodeWire] at h
    split at h
    · cases h
    rename_i hm
    have hm : b0.msb = true := by simpa using hm
    obtain hc | hc | hc | hc := class_of_msb hm
    · rw [if_pos hc] at h
      cases h
      have hl : frameLen b0 b1 = 2 := by simp [frameLen, hc]
      refine ⟨rfl, nofun, b0, b1, tl, rfl, hm, by omega, ?_⟩
      rw [encode, hl, ← hc, mkOpc_class_key]; rfl
    · rw [if_neg (by rw [hc]; decide), if_pos hc] at h
      have hl : frameLen b0 b1 = 4 := by simp [frameLen, hc]
      split at h <;> cases h
      obtain ⟨hf, hs, he⟩ := wireFixed4_spec p b1 _ _ hc
      exact ⟨hf, hs, b0, b1, _, rfl, hm, by simp [hl], by rw [he, hl]; rfl⟩
    · rw [if_neg (by rw [hc]; decide), if_neg (by rw [hc]; decide), if_pos hc] at h
      have hl : frameLen b0 b1 = 6 := by simp [frameLen, hc]
      split at h <;> cases h
      refine ⟨rfl, nofun, b0, b1, _, rfl, hm, by simp [hl], ?_⟩
      rw [encode, hl, ← hc, mkOpc_class_key]; rfl
    · rw [if_neg (by rw [hc]; decide), if_neg (by rw [hc]; decide),
        if_neg (by rw [hc]; decide)] at h
      have hl : frameLen b0 b1 = b1.toNat := frameLen_variable hc b1
      split at h <;> cases h
      obtain ⟨hf, hs, he⟩ := wireVariable_spec p b1 (tl.take (b1.toNat - 2)) hc
      exact ⟨hf, hs, b0, b1, tl, rfl, hm, by omega, by rw [he, hl]⟩

/-- Settles O10: the framer looks only at the bytes of the candidate frame it decodes. -/
theorem framerRunsDecodedFrame : Obligations.FramerRunsDecodedFrame := by
  intro s i hs h
  obtain ⟨hf, hi, b0, b1, tl, hb, -, hl, he⟩ := candidate_of_decodeWire h
  rw [exec_step hs, exec_wireFrame hs hf hi, framerOn, framerOn, he, examine_take hl, hb]

/-! ## Dispatch -/

/-- A dispatch to external handlers is an event per entry (41_rx_framer.md R192). -/
theorem dispatch_external (h : ∀ e ∈ s.reg, e.key = key opc → e.hid ≠ 0) :
    dispatch opc payload s = .next { s with out := s.out ++ dispatchEvents s.reg opc payload } :=
  dispatchTo_external s h

/-- A dispatch with one entry of the CV unit runs it in its place (41_rx_framer.md R190, R192). -/
theorem dispatch_cv_between {before after : List RegEntry}
    (hreg : s.reg = before ++ ⟨key opc, 0⟩ :: after)
    (h : ∀ e ∈ before ++ after, e.key = key opc → e.hid ≠ 0) :
    dispatch opc payload s =
      thenDo (cvHandle opc payload { s with out := s.out ++ dispatchEvents before opc payload })
        fun t => .next { t with out := t.out ++ dispatchEvents after opc payload } := by
  have hbefore : ∀ e ∈ before, e.key = key opc → e.hid ≠ 0 := fun e he =>
    h e (List.mem_append_left after he)
  have hafter : ∀ e ∈ after, e.key = key opc → e.hid ≠ 0 := fun e he =>
    h e (List.mem_append_right before he)
  have hsplit : dispatch opc payload s =
      dispatchTo opc payload (before ++ ⟨key opc, 0⟩ :: after) s := by rw [dispatch, hreg]
  rw [hsplit, dispatchTo_append, dispatchTo_external s hbefore, thenDo_next, dispatchTo, if_pos rfl,
    invoke, if_pos rfl]
  exact congrArg _ (funext fun t => dispatchTo_external t hafter)

/-- Settles O29: the handlers by the registry as it stands. -/
theorem dispatchInvokesHandlersInOrder : Obligations.DispatchInvokesHandlersInOrder :=
  fun _ _ _ => ⟨dispatch_external, fun _ _ => dispatch_cv_between⟩

/-! ## Delivery -/

/-- What the CV unit and the handlers write leaves the state ready. -/
theorem Effect.ready (h : Effect s t) (hs : s.Ready) : t.Ready := by
  rw [h.frame]; exact hs

/-- What the CV unit and the handlers write leaves the ring buffer. -/
theorem Effect.readable_eq (h : Effect s t) : readable t = readable s := by
  rw [h.frame]; rfl

/-- The cursors once the handlers have run behind a move of the reader. -/
theorem Effect.cursors {k : Nat} (h : Effect (s.advance k) u) :
    u.rd = (s.rd + k) % s.params.cap ∧ u.wr = s.wr := by
  rw [h.frame]; exact ⟨rfl, rfl⟩

/-- The cursors stay in the buffer when the handlers have run behind a move of the reader. -/
theorem Effect.cursors_lt {k : Nat} (h : Effect (s.advance k) u) (hr : s.rd < s.params.cap)
    (hw : s.wr < s.params.cap) : u.rd < u.params.cap ∧ u.wr < u.params.cap := by
  obtain ⟨hrd, hwr⟩ := h.cursors
  rw [h.params, hrd, hwr]
  exact ⟨advance_rd_lt hr k, hw⟩

/-- The handlers find and leave the bytes behind the moved reader. -/
theorem Effect.readable_drop {k : Nat} (h : Effect (s.advance k) u) (hr : s.rd < s.params.cap)
    (hw : s.wr < s.params.cap) (hk : k ≤ avail s) : readable u = (readable s).drop k := by
  rw [h.readable_eq, readable_advance hr hw hk]

/-- A valid frame at the reader is dispatched whole, whatever follows it (41_rx_framer.md R187). -/
theorem exec_step_valid {f rest : List Byte} (hs : s.Ready) (hv : validFrame f = true)
    (ho : f.head? = some opc) (hb : readable s = f ++ rest) :
    exec .step s =
      thenDo (dispatch opc (f.drop (hdr opc)) (s.advance f.length))
        fun u => .next (u.answer (.step .handled)) := by
  rw [exec_step hs, hb, framerOn, examine_valid hv ho rest]

/-- After a dispatch that moved the reader `n` bytes, the state is the moved one but for what the
handlers write, and HANDLED. -/
theorem dispatch_answer_eq_next {n : Nat}
    (h : thenDo (dispatch opc payload (s.advance n)) (fun u => .next (u.answer (.step .handled))) =
      .next t) : ∃ u, Effect (s.advance n) u ∧ t = u.answer (.step .handled) := by
  obtain ⟨u, hu, ht⟩ := thenDo_eq_next.1 h
  cases ht
  exact ⟨u, dispatchTo_effect hu, rfl⟩

/-- A step that delivers a valid frame leaves what follows it readable. -/
theorem exec_step_valid_eq_next {f rest : List Byte} (hs : s.Ready) (hr : s.rd < s.params.cap)
    (hw : s.wr < s.params.cap) (hv : validFrame f = true) (ho : f.head? = some opc)
    (hb : readable s = f ++ rest) (h : exec .step s = .next t) :
    t.Ready ∧ t.result = .step .handled ∧ t.rd = (s.rd + f.length) % s.params.cap ∧
      t.rd < t.params.cap ∧ t.wr < t.params.cap ∧ readable t = rest := by
  rw [exec_step_valid hs hv ho hb] at h
  obtain ⟨u, hu, rfl⟩ := dispatch_answer_eq_next h
  have hl : f.length ≤ avail s := by rw [← length_readable, hb]; simp
  have hread : readable u = rest := by rw [hu.readable_drop hr hw hl, hb, List.drop_left]
  obtain ⟨hrd, hwr⟩ := hu.cursors_lt hr hw
  exact ⟨hu.ready hs, rfl, hu.cursors.1, hrd, hwr, hread⟩

/-- Settles O27: a delivery leaves the bytes after the frame, a stray byte the bytes after it. -/
theorem framesAreDeliveredStepByStep : Obligations.FramesAreDeliveredStepByStep := by
  refine fun s f o hs hr hw hv ho => ⟨fun t f₂ o₂ hv₂ ho₂ hb => ⟨exec_step_valid hs hv ho hb,
    fun h => ?_⟩, fun b hm hb => ?_⟩
  · obtain ⟨ht, hres, hrd, htr, htw, hread⟩ := exec_step_valid_eq_next hs hr hw hv ho hb h
    have hb₂ : readable t = f₂ ++ [] := by rw [hread, List.append_nil]
    refine ⟨hres, hrd, hread, exec_step_valid ht hv₂ ho₂ hb₂, fun u hu => ?_⟩
    obtain ⟨-, hresu, -, -, -, hreadu⟩ := exec_step_valid_eq_next ht htr htw hv₂ ho₂ hb₂ hu
    exact ⟨hresu, hreadu⟩
  · obtain ⟨b0, b1, tl, hf⟩ := validFrame_shape hv
    have hstep : exec .step s = .next ((s.advance 1).answer (.step .none)) := by
      rw [exec_step hs, framerOn, examine_stray (hb.trans (congrArg _ hf)) hm]
    have hl : 1 ≤ avail s := by rw [← length_readable, hb]; simp
    have hread : readable ((s.advance 1).answer (.step .none)) = f := by
      change readable (s.advance 1) = f
      rw [readable_advance hr hw hl, hb]; rfl
    exact ⟨_, hstep, rfl, hread, exec_step_valid hs hv ho (by rw [hread, List.append_nil])⟩

/-- A step that does not return NONE moves the reader within the available bytes and runs handlers
(41_rx_framer.md R202). -/
theorem exec_step_progress (hs : s.Ready) (h : exec .step s = .next t)
    (hne : t.result ≠ .step .none) :
    ∃ k u r, 1 ≤ k ∧ k ≤ avail s ∧ Effect (s.advance k) u ∧ t = u.answer r := by
  obtain ⟨hrescan, hdeliver⟩ := examine_bounds (readable s)
  rw [length_readable] at hrescan hdeliver
  rw [exec_step hs] at h
  unfold framerOn at h
  split at h
  case h_1 => cases h; exact absurd rfl hne
  case h_2 => cases h; exact absurd rfl hne
  case h_3 k hk =>
    cases h
    obtain ⟨h1, h2⟩ := hrescan k hk
    exact ⟨k, _, _, h1, h2.le, .refl _, rfl⟩
  case h_4 => cases h; exact absurd rfl hne
  case h_5 => cases h
  case h_6 n o p hd =>
    obtain ⟨h1, h2⟩ := hdeliver n o p hd
    obtain ⟨u, hu, rfl⟩ := dispatch_answer_eq_next h
    exact ⟨n, u, _, by omega, h2, hu, rfl⟩

/-- A drain given more steps than bytes are available ends: a step that does not return NONE leaves
fewer. -/
theorem drain_ends (n : Nat) (s : State) (hs : s.Ready) (hr : s.rd < s.params.cap)
    (hw : s.wr < s.params.cap) (hn : avail s < n) : ∃ o, drain n s = some o := by
  induction n generalizing s with
  | zero => omega
  | succ n ih =>
    unfold drain
    cases h : exec .step s with
    | fault f => exact ⟨_, rfl⟩
    | refused r => exact ⟨_, rfl⟩
    | next t =>
      by_cases hne : t.result = .step .none
      · exact ⟨_, if_pos hne⟩
      obtain ⟨k, u, r, h1, hk, hu, rfl⟩ := exec_step_progress hs h hne
      have hav : avail u = avail s - k := by
        rw [← length_readable, hu.readable_drop hr hw hk, List.length_drop, length_readable]
      have hless : avail u < n := by omega
      obtain ⟨hrd, hwr⟩ := hu.cursors_lt hr hw
      simp only [if_neg hne]
      exact ih (u.answer r) (hu.ready hs) hrd hwr hless

/-- Settles O28: the progress of a step, then the bound it gives a drain. -/
theorem drainEnds : Obligations.DrainEnds := by
  refine ⟨fun s t hs h hne => ?_, fun s hs hr hw => drain_ends _ s hs hr hw (Nat.lt_succ_self _)⟩
  obtain ⟨k, u, r, h1, hk, hu, rfl⟩ := exec_step_progress hs h hne
  exact ⟨k, h1, hk, hu.cursors⟩

/-! ## Wire frames -/

/-- A well-formed wire frame is dispatched whole (41_rx_framer.md R187). -/
theorem exec_wireFrame_valid {f : Frame} (hs : s.Ready) (hf : framer i = true) (hi : i ≠ .step)
    (hwf : i.wf s.params = true) (he : f = encode s.params i) (ho : f.head? = some opc) :
    exec i s =
      thenDo (dispatch opc (f.drop (hdr opc)) (s.advance f.length))
        fun u => .next (u.answer (.step .handled)) := by
  have hv : validFrame f = true := he ▸ validFrame_of_wf hf hi hwf
  have hx := examine_valid hv ho []
  rw [List.append_nil] at hx
  rw [exec_wireFrame hs hf hi, ← he, framerOn, hx]

/-- Settles O30: the frame is dispatched, and each handler is an event. -/
theorem wireFramesReachExternalHandlers : Obligations.WireFramesReachExternalHandlers := by
  intro s i f opc hs hf hi hwf he ho hext
  rw [exec_wireFrame_valid hs hf hi hwf he ho,
    dispatch_external (s := s.advance f.length) hext]
  rfl

/-- The scan of step 4 covers no byte but those between opcode and checksum. -/
theorem firstMarked_scan {n : Nat} (hl : n ≤ bs.length)
    (h : ∀ b ∈ (bs.drop 1).dropLast, b.msb = false) :
    firstMarked (bs.take (n - 1)).tail = none := by
  refine firstMarked_none.2 fun b hb => h b ?_
  rw [← List.drop_one, List.drop_take] at hb
  rw [List.dropLast_eq_take, List.length_drop]
  exact List.take_subset_take_left _ (by omega) hb

/-- Settles O31: the frame is complete because it decodes, so its checksum is what step 6 looks
at. -/
theorem badChecksumDropsTheFrame : Obligations.BadChecksumDropsTheFrame := by
  intro s i f b0 b1 tl hs hf hi henc hp he hb hdata hx
  obtain ⟨-, hdec, -⟩ := roundTrip i s.params [] hp henc
  rw [List.append_nil, ← he] at hdec
  obtain ⟨-, -, b0', b1', tl', hb', hm, hl, -⟩ := candidate_of_decodeWire (hdec hf hi)
  obtain ⟨rfl, rfl, rfl⟩ : b0 = b0' ∧ b1 = b1' ∧ tl = tl' := by simpa using hb.symm.trans hb'
  have hlen : frameLen b0 b1 ≤ f.length := by rw [hb]; exact hl
  rw [exec_wireFrame hs hf hi, ← he, framerOn,
    examine_unmarked hb hm (firstMarked_scan hlen hdata), if_neg (Nat.not_lt.2 hlen), if_pos hx]
  rfl

/-! ## Requests to the CV unit -/

/-- The CV unit runs the request its decoder reads (43_cv_handler.md R263, R265). -/
theorem cvMessage_request (hs : s.Ready) (hl : payload.length = 13)
    (hm : payload.getD 0 0 ∈ s.params.recognizedSources) :
    cvMessage opc payload s = exec (cvRequest s.params opc (CvMessage.unpack payload)) s := by
  rw [cvMessage, if_neg (not_not.2 hl), if_neg (not_not.2 hm), cvSelect, cvRequest]
  split
  · rw [exec, execCvProgOn, whenUp_ready hs]
  split
  · rw [exec, execCvProgOff, whenUp_ready hs]
  split
  · rw [exec, execCvWrite, whenUp_ready hs]
  · rw [exec, execCvRead, whenUp_ready hs]

/-- A slave-data payload without the sentinel is ignored (43_cv_handler.md R280, R281). -/
theorem slave_ignored (h : payload.head? ≠ some s.params.slaveSentinel) :
    slaveWrite payload s = .next s ∧ slaveRead payload s = .next s := by
  cases payload with
  | nil => exact ⟨rfl, rfl⟩
  | cons b rest =>
    have hb : b ≠ s.params.slaveSentinel := fun hb => h (congrArg some hb)
    exact ⟨if_neg hb, if_neg hb⟩

/-- The CV unit runs the request its decoder reads in a payload (43_cv_handler.md R261). -/
theorem cvHandle_of_decodeCv_some (hs : s.Ready) (h : decodeCv s.params opc payload = some i) :
    cvHandle opc payload s = exec i s := by
  unfold decodeCv at h
  unfold cvHandle
  split at h
  · split at h <;> cases h
    rename_i hk hm
    rw [if_pos hk, cvMessage_request hs hm.1 hm.2]
  rw [if_neg ‹_›]
  split at h
  · split at h <;> cases h
    rw [if_pos ‹_›, exec, execCvSlaveWrite, whenUp_ready hs]
  rw [if_neg ‹_›]
  split at h
  · split at h <;> cases h
    rw [if_pos ‹_›, exec, execCvSlaveRead, whenUp_ready hs]
  · cases h

/-- The CV unit ignores a payload its decoder reads no request in (43_cv_handler.md R261). -/
theorem cvHandle_of_decodeCv_none (h : decodeCv s.params opc payload = none) :
    cvHandle opc payload s = .next s := by
  unfold decodeCv at h
  unfold cvHandle
  split at h
  · split at h
    · cases h
    rename_i hk hm
    rw [if_pos hk, cvMessage]
    split
    · rfl
    split
    · rfl
    · exact absurd ⟨not_not.1 ‹_›, not_not.1 ‹_›⟩ hm
  rw [if_neg ‹_›]
  split at h
  · split at h
    · cases h
    · rw [if_pos ‹_›, (slave_ignored ‹_›).1]
  rw [if_neg ‹_›]
  split at h
  · split at h
    · cases h
    · rw [if_pos ‹_›, (slave_ignored ‹_›).2]
  · rw [if_neg ‹_›]

/-- A slave-data write with the sentinel is a request for the sequence-start hook (43_cv_handler.md
R280). -/
theorem cvHandle_wrSlData {p : Params} (hp : p.WF) (hs : s.params = p) (rest : List Byte) :
    cvHandle p.opcWrSlData (p.slaveSentinel :: rest) s =
      .next (s.emit (.hookSeqStart rest)) := by
  subst hs
  obtain ⟨-, hw, -, hw', -, -⟩ := hp.keys
  rw [cvHandle, if_neg (by simp [hw, hw']), if_pos rfl, slaveWrite, if_pos rfl]

/-- A slave-data read with the sentinel is a request for the sequence-final hook (43_cv_handler.md
R281). -/
theorem cvHandle_slRdData {p : Params} (hp : p.WF) (hs : s.params = p) (rest : List Byte) :
    cvHandle p.opcSlRdData (p.slaveSentinel :: rest) s =
      .next (s.emit (.hookSeqFinal rest)) := by
  subst hs
  obtain ⟨-, -, hr, -, hr', hr''⟩ := hp.keys
  rw [cvHandle, if_neg (by simp [hr, hr']), if_neg hr'', if_pos rfl, slaveRead, if_pos rfl]

/-- Settles O52: the frame runs the CV unit, then its external handlers. -/
theorem cvFramesRunTheirRequest : Obligations.CvFramesRunTheirRequest := by
  rintro s i f opc ext es hs hf hi hwf he ho hreg hext rfl
  have hexec := exec_wireFrame_cv hs hf hi hwf he ho hreg hext
  refine ⟨fun r t hd ht => ?_, fun b rest hib hp => ?_, fun b rest hib hp => ?_, fun hd => ?_⟩
  · rw [hexec, cvHandle_of_decodeCv_some (s := s.advance f.length) hs hd, ht]; rfl
  · subst hib
    obtain rfl : s.params.opcWrSlData = opc := by rw [he] at ho; exact Option.some.inj ho
    have hpay : f.drop (hdr s.params.opcWrSlData) = s.params.slaveSentinel :: rest := by
      rw [he, hdr_variable hp.classes.2.1]; rfl
    rw [hexec, hpay, cvHandle_wrSlData hp (s.advance_params f.length)]; rfl
  · subst hib
    obtain rfl : s.params.opcSlRdData = opc := by rw [he] at ho; exact Option.some.inj ho
    have hpay : f.drop (hdr s.params.opcSlRdData) = s.params.slaveSentinel :: rest := by
      rw [he, hdr_variable hp.classes.2.2.1]; rfl
    rw [hexec, hpay, cvHandle_slRdData hp (s.advance_params f.length)]; rfl
  · rw [hexec, cvHandle_of_decodeCv_none (s := s.advance f.length) hd]; rfl

end Sys2Proof.Machine
end

section
/-! SUPPORT. The family of 42_tx_queue.md: what is queued, the two phases of the service, the bytes of a
transmission, and the order of the queue. -/

namespace Sys2Proof.Machine

variable {s t : State} {opc : Byte} {d : List Byte} {f : Frame}

/-! ## Queueing a frame -/

theorem exec_enqueue (h : s.Ready) (opc : Byte) (d : List Byte) :
    exec (.enqueue opc d) s = enqueueFrame opc d s := by
  rw [exec, execEnqueue, whenUp_ready h]

theorem exec_longAck (h : s.Ready) (opc code : Byte) :
    exec (.longAck opc code) s = longAck opc code s := by
  rw [exec, execLongAck, whenUp_ready h]

/-- The three malformed forms: the opcode, a data byte, the length of the class (42_tx_queue.md
R221). -/
theorem enqueueOk_eq_false
    (h : opc.msb = false ∨ (∃ b ∈ d, b.msb = true) ∨
      (frameClass opc = 7 ∧ ∀ l tl, d = l :: tl → l.toNat ≠ d.length + 2) ∨
      (frameClass opc ≠ 7 ∧ d.length + 2 ≠ frameLen opc 0)) : enqueueOk opc d = false := by
  refine Bool.eq_false_iff.2 fun hok => ?_
  obtain ⟨hopc, hdata, hvariable, hfixed⟩ := enqueueOk_iff.1 hok
  obtain h | ⟨b, hb, h⟩ | ⟨hc, h⟩ | ⟨hc, h⟩ := h
  · rw [hopc] at h; cases h
  · rw [hdata b hb] at h; cases h
  · obtain ⟨l, tl, hd, hl⟩ := hvariable hc
    exact h l tl hd hl
  · exact h (hfixed hc)

/-- Settles O35: the operand check, then the room in the queue. -/
theorem enqueueBuildsAndAppendsAFrame : Obligations.EnqueueBuildsAndAppendsAFrame := by
  refine fun s opc d hs => ⟨fun hbad => ?_, fun hopc hdata hvariable hfixed => ?_⟩
  · rw [exec_enqueue hs, enqueueFrame_malformed (enqueueOk_eq_false hbad)]
  · have hok := enqueueOk_iff.2 ⟨hopc, hdata, hvariable, hfixed⟩
    rw [exec_enqueue hs]
    exact ⟨enqueueFrame_full hok, enqueueFrame_room hok⟩

/-- Settles O37: the frame is valid, and a valid frame at the reader is dispatched whole. -/
theorem enqueuedFramesAreDeliverable : Obligations.EnqueuedFramesAreDeliverable := by
  intro s t opc d hs h
  rw [exec_enqueue hs] at h
  obtain ⟨hok, -, rfl⟩ := enqueueFrame_eq_next h
  have hv := validFrame_of_enqueueOk hok
  exact ⟨_, rfl, hv, rfl, length_withChecksum _, fun r rest hr hread =>
    exec_step_valid hr hv rfl hread⟩

/-- A code with bit 7 set makes no long-ack (42_tx_queue.md R240). -/
theorem longAck_malformed (opc : Byte) {code : Byte} (h : code.msb = true) (s : State) :
    longAck opc code s = .refused .malformedEnqueue :=
  enqueueFrame_malformed (enqueueOk_eq_false (.inr (.inl ⟨code, by simp, h⟩)))

/-- Settles O36: the acknowledgement of a 7-bit code can be framed, so only room can be missing. -/
theorem longAckAppendsItsFrame : Obligations.LongAckAppendsItsFrame := by
  intro s opc code hs hp
  rw [exec_longAck hs]
  exact ⟨fun hc => longAck_malformed opc hc s, fun hc => longAck_full hp opc hc,
    fun hc => longAck_room hp opc hc⟩

/-! ## The service -/

theorem exec_svcCheck (h : s.Ready) :
    exec .svcCheck s = .next { s with
      svcLatch := decide (s.txState = .none) && decide (s.txq ≠ []) && !s.busy } := by
  rw [exec, execSvcCheck, whenUp_ready h]

theorem exec_svcAct_unlatched (h : s.Ready) (hl : s.svcLatch = false) :
    exec .svcAct s = .next s := by
  rw [exec, execSvcAct, whenUp_ready h, if_neg (Bool.eq_false_iff.1 hl)]

/-- A start takes the head of the queue into transmission, whatever `busy` is (42_tx_queue.md R233). -/
theorem startTransmission_cons {q : List Frame} (hq : s.txq = f :: q) :
    startTransmission s = { s with
      svcLatch := false, txq := q, txState := .sending f 0, transmitting := true, busy := true
      lastSent := none, out := s.out ++ [.chanStart] } := by
  rw [startTransmission, hq]; rfl

/-- Settles O38: the check writes the latch, the action reads only the latch and the queue. -/
theorem serviceChecksThenStarts : Obligations.ServiceChecksThenStarts := by
  refine fun s hs => ⟨⟨_, exec_svcCheck hs, rfl, ?_⟩, exec_svcAct_unlatched hs,
    fun f q hl hq => ?_⟩
  · simp [and_assoc]
  · rw [exec_svcAct_latched hs hl, startTransmission_cons hq]

/-! ## The transmitter -/

theorem exec_evTxReady (h : s.Ready) : exec .evTxReady s = .next (txReady s) := by
  rw [exec, execEvTxReady, whenUp_ready h]

theorem exec_evTxComplete (h : s.Ready) : exec .evTxComplete s = .next (txComplete s) := by
  rw [exec, execEvTxComplete, whenUp_ready h]

/-- While bytes are left, the one at the cursor is handed over (42_tx_queue.md R235). -/
theorem txReady_supply {c : Nat} {b : Byte} (hx : s.txState = .sending f c) (hb : f[c]? = some b) :
    txReady s = { s with
      txState := .sending f (c + 1), lastSent := some b, out := s.out ++ [.chanTx b] } := by
  simp only [txReady, hx, hb]; rfl

/-- After the last byte the frame is complete and drains (42_tx_queue.md R236). -/
theorem txReady_complete (hx : s.txState = .sending f f.length) :
    txReady s = { s with
      transmitting := false, txState := .draining f, out := s.out ++ [.txDone] } := by
  simp only [txReady, hx, List.getElem?_length]; rfl

/-- With no frame being sent there is nothing to hand over (42_tx_queue.md R234). -/
theorem txReady_notSending (h : s.txState.isSending = false) : txReady s = s := by
  cases hx : s.txState with
  | none => simp only [txReady, hx]
  | sending f c => rw [hx] at h; cases h
  | draining f => simp only [txReady, hx]

/-- A draining frame is released (42_tx_queue.md R237). -/
theorem txComplete_draining (hx : s.txState = .draining f) :
    txComplete s = { s with txState := .none, out := s.out ++ [.txReleased] } := by
  simp only [txComplete, hx]; rfl

/-- With no frame draining there is nothing to release (42_tx_queue.md R237). -/
theorem txComplete_notDraining (h : ∀ f, s.txState ≠ .draining f) : txComplete s = s := by
  cases hx : s.txState with
  | none => simp only [txComplete, hx]
  | sending f c => simp only [txComplete, hx]
  | draining f => exact absurd hx (h f)

/-- Settles O39, one rule of the transmitter per clause. -/
theorem transmitterSuppliesCompletesReleases :
    Obligations.TransmitterSuppliesCompletesReleases := by
  intro s hs
  rw [exec_evTxReady hs, exec_evTxComplete hs]
  refine ⟨fun f c h hx => ?_, fun f hx => ?_, fun h => ?_, fun f hx => ?_, fun h => ?_⟩
  · rw [txReady_supply hx (List.getElem?_eq_getElem h)]
  · rw [txReady_complete hx]
  · rw [txReady_notSending h]
  · rw [txComplete_draining hx]
  · rw [txComplete_notDraining h]

/-! ## A whole transmission -/

/-- From a cursor behind the bytes `sent`, a ready notification per byte of the rest and one more send
the rest and complete the frame. -/
theorem execAll_evTxReady {sent rest : List Byte} (hs : s.Ready)
    (hx : s.txState = .sending (sent ++ rest) sent.length) :
    execAll (List.replicate (rest.length + 1) .evTxReady) s = .next { s with
      transmitting := false, txState := .draining (sent ++ rest)
      lastSent := rest.getLast?.or s.lastSent
      out := s.out ++ rest.map .chanTx ++ [.txDone] } := by
  induction rest generalizing s sent with
  | nil =>
    rw [List.append_nil] at hx ⊢
    rw [List.length_nil, List.replicate_succ, execAll, exec_evTxReady hs, thenDo_next,
      txReady_complete hx]
    simp [execAll]
  | cons b rest ih =>
    have hsupply := txReady_supply hx (b := b) (by simp)
    have hs' : (txReady s).Ready := by rw [hsupply]; exact hs
    have hx' : (txReady s).txState = .sending (sent ++ [b] ++ rest) (sent ++ [b]).length := by
      rw [hsupply]; simp
    rw [List.length_cons, List.replicate_succ, execAll, exec_evTxReady hs, thenDo_next, ih hs' hx',
      hsupply]
    simp [List.getLast?_cons]

/-- Settles O40: the induction over the bytes, from a cursor with all of them to come. -/
theorem transmissionSendsEachByteOnce : Obligations.TransmissionSendsEachByteOnce := by
  intro s f hs hx hne
  rw [execAll_evTxReady (sent := []) hs hx, List.nil_append, List.getLast?_eq_some_getLast hne]
  rfl

/-! ## The order of the queue -/

/-- Settles O42: what each instruction's effect does to the queue; a held machine leaves it. -/
theorem queueOrderIsKept : Obligations.QueueOrderIsKept := by
  intro i s t h hr
  obtain ⟨rfl, -⟩ | ⟨-, hd⟩ := exec_eq_next h
  · exact .inl ⟨[], (List.append_nil _).symm⟩
  · obtain ⟨-, -, hq⟩ | hact | ⟨hi, -, f, c, hx, hq, hn, -⟩ | ⟨-, hq, -⟩ := hd.queue hr
    · exact .inl hq
    · exact .inr (.inl hact)
    · exact .inr (.inr ⟨hi, f, c, hx, hq, hn⟩)
    · exact .inl ⟨[], by rw [hq, List.append_nil]⟩

end Sys2Proof.Machine
end

section
/-! SUPPORT. The family of 43_cv_handler.md: the lookup, reads and programming mode, the branches of a
write, slave data, and a write read back. -/

namespace Sys2Proof

theorem Params.WF.three_le_nCv {p : Params} (h : p.WF) : 3 ≤ p.nCv := by
  obtain ⟨-, -, -, -, h, -⟩ := h
  exact h

end Sys2Proof

namespace Sys2Proof.Machine

variable {s t : State} {i : Instr} {opc : Byte} {m : CvMessage} {n : Nat} {v : Word} {st : Status}

/-! ## The requests -/

theorem exec_cvProgOn (h : s.Ready) (opc : Byte) (m : CvMessage) :
    exec (.cvProgOn opc m) s = progOn m s := by
  rw [exec, execCvProgOn, whenUp_ready h]

theorem exec_cvProgOff (h : s.Ready) (opc : Byte) (m : CvMessage) :
    exec (.cvProgOff opc m) s = progOff s := by
  rw [exec, execCvProgOff, whenUp_ready h]

theorem exec_cvWrite (h : s.Ready) (opc : Byte) (m : CvMessage) :
    exec (.cvWrite opc m) s = cvWriteWith (Config.authAnswer s.draws) opc m s := by
  rw [exec, execCvWrite, whenUp_ready h, cvWrite]

theorem exec_cvRead (h : s.Ready) (opc : Byte) (m : CvMessage) :
    exec (.cvRead opc m) s = cvRead opc m s := by
  rw [exec, execCvRead, whenUp_ready h]

theorem exec_cvSlaveWrite (h : s.Ready) (opc : Byte) (payload : List Byte) :
    exec (.cvSlaveWrite opc payload) s = slaveWrite payload s := by
  rw [exec, execCvSlaveWrite, whenUp_ready h]

theorem exec_cvSlaveRead (h : s.Ready) (opc : Byte) (payload : List Byte) :
    exec (.cvSlaveRead opc payload) s = slaveRead payload s := by
  rw [exec, execCvSlaveRead, whenUp_ready h]

/-- Settles O11: the request the decoder reads, or none. -/
theorem cvUnitRunsDecodedRequest : Obligations.CvUnitRunsDecodedRequest := by
  intro s opc payload hs
  cases h : decodeCv s.params opc payload with
  | none => exact cvHandle_of_decodeCv_none h
  | some i => exact cvHandle_of_decodeCv_some hs h

/-- Settles O51: the first byte is the sentinel or the message is ignored. -/
theorem slaveDataIsForwardedToHooks : Obligations.SlaveDataIsForwardedToHooks := by
  intro s opc b rest hs
  rw [exec_cvSlaveWrite hs, exec_cvSlaveRead hs]
  exact ⟨fun hb => ⟨if_pos hb, if_pos hb⟩, fun hb => slave_ignored fun h => hb (Option.some.inj h)⟩

/-! ## The lookup -/

theorem cvLookup_zero_unconfigured (h : storeRead s 1 ≠ s.params.deviceClass) :
    cvLookup s 0 = s.params.defaultAddress := if_pos ⟨rfl, h⟩

theorem cvLookup_two_unconfigured (h : storeRead s 1 ≠ s.params.deviceClass) :
    cvLookup s 2 = s.params.defaultPriority := by
  rw [cvLookup, if_neg (by simp), if_pos ⟨rfl, h⟩]

theorem cvLookup_configured (h : storeRead s 1 = s.params.deviceClass) (n : Nat) :
    cvLookup s n = storeRead s n := by simp [cvLookup, h]

/-- Settles O44: one rule of the lookup per clause. -/
theorem cvLookupFallsBackToDefaults : Obligations.CvLookupFallsBackToDefaults :=
  fun _ n => ⟨fun h => ⟨cvLookup_zero_unconfigured h, cvLookup_two_unconfigured h⟩,
    fun h => cvLookup_configured h n, cvLookup_other⟩

/-! ## The response -/

/-- A response is queued as a valid frame whose message reads back what it was built from
(43_cv_handler.md R278). -/
theorem respond_room (hp : s.params.WF) (hr : framesHeld s < s.params.txqCap)
    (hm : (loByte m.destination).msb = false ∧ (hiByte m.destination).msb = false ∧
      m.requestId.msb = false) (n v : Word) :
    ∃ f body, respond m n v s = .next { s with txq := s.txq ++ [f] } ∧
      f = opcPeerXfer :: 0x0F :: body ∧ f.length = 15 ∧ validFrame f = true ∧
      CvMessage.unpack body =
        { source := s.params.respSrc, destination := m.destination, requestId := m.requestId
          msbBits := body.getD 4 0, deviceClass := m.deviceClass, lncvNumber := n
          lncvValue := v, flags := 0 } := by
  obtain ⟨hlo, hhi, hreq⟩ := hm
  have hok : enqueueOk opcPeerXfer (0x0F :: (responseMessage s.params m n v).pack) = true :=
    enqueueOk_pack hp.respSrc_msb hlo hhi hreq
  exact ⟨_, _, enqueueFrame_room hok hr, rfl, rfl, validFrame_of_enqueueOk hok, unpack_pack _ _⟩

/-- A well-formed CV request travels in a valid frame. -/
theorem validFrame_of_wf_request {p : Params} (hc : cvRequestInstr i = true)
    (h : i.wf p = true) : validFrame (encode p i) = true := by
  cases i <;> simp only [cvRequestInstr, Bool.false_eq_true] at hc
  all_goals exact (Bool.and_eq_true_iff.1 h).2

/-! ## Reads -/

theorem cvRead_outOfRange (h : s.params.nCv ≤ m.lncvNumber.toNat) :
    cvRead opc m s = longAck opc s.params.stOutOfRange s := if_pos h

theorem cvRead_inRange (h : m.lncvNumber.toNat < s.params.nCv) :
    cvRead opc m s = respond m m.lncvNumber (cvLookup s m.lncvNumber.toNat) s :=
  if_neg (Nat.not_le.2 h)

/-- Settles O45: the long-ack out of range, the response in range. -/
theorem cvReadAnswersTheLookupValue : Obligations.CvReadAnswersTheLookupValue := by
  intro s opc m hs hp hr hwf
  rw [exec_cvRead hs]
  refine ⟨fun h => ?_, fun h => ?_⟩
  · rw [cvRead_outOfRange h]
    exact longAck_room hp opc (hp.code_msb .outOfRange) hr
  · rw [cvRead_inRange h]
    exact respond_room hp hr (carried_msb (validFrame_of_wf_request rfl hwf)) _ _

/-! ## Programming mode -/

theorem progOnAccepted_iff : progOnAccepted m s = true ↔
    m.lncvNumber = 0 ∧ (m.lncvValue = 0xFFFF ∨ m.lncvValue = s.address.setWidth 16) := by
  simp [progOnAccepted]

theorem progOn_accepted (h : progOnAccepted m s = true) :
    progOn m s = respond m 0 (cvLookup s 0) { s with progMode := true } := if_pos h

theorem progOn_notAccepted (h : ¬ progOnAccepted m s = true) : progOn m s = .next s := if_neg h

/-- Settles O46: the test of programming-on, then its response; programming-off has no test. -/
theorem programmingModeIsEnteredAndLeft : Obligations.ProgrammingModeIsEnteredAndLeft := by
  intro s opc m hs
  rw [exec_cvProgOn hs, exec_cvProgOff hs]
  refine ⟨fun hp hr hwf hn hv => ?_, fun h => progOn_notAccepted fun ha => ?_, rfl⟩
  · rw [progOn_accepted (progOnAccepted_iff.2 ⟨hn, hv⟩)]
    exact respond_room (s := { s with progMode := true }) hp hr
      (carried_msb (validFrame_of_wf_request rfl hwf)) _ _
  · obtain ⟨hn, hv⟩ := progOnAccepted_iff.1 ha
    obtain h | ⟨hany, hown⟩ := h
    · exact h hn
    · exact hv.elim hany hown

/-! ## The branches of a write -/

theorem cvWriteWith_off (h : s.progMode = false) : cvWriteWith st opc m s = .next s := if_pos h

theorem cvWriteWith_outOfRange (hon : s.progMode = true) (h : s.params.nCv ≤ m.lncvNumber.toNat) :
    cvWriteWith st opc m s = longAck opc s.params.stOutOfRange s := by
  rw [cvWriteWith, if_neg (by simp [hon]), if_pos h]

theorem cvWriteWith_marker (hp : s.params.WF) (hon : s.progMode = true) (h : m.lncvNumber = 1) :
    cvWriteWith st opc m s = longAck opc s.params.stReadOnly s := by
  have hin : ¬ s.params.nCv ≤ m.lncvNumber.toNat := by
    have h3 := hp.three_le_nCv
    have h1 : m.lncvNumber.toNat = 1 := by rw [h]; rfl
    omega
  rw [cvWriteWith, if_neg (by simp [hon]), if_neg hin, if_pos h]

/-- Slots 0 and 2 are judged by the device (43_cv_handler.md R273). -/
theorem cvWriteWith_config (hp : s.params.WF) (hon : s.progMode = true)
    (h : m.lncvNumber = 0 ∨ m.lncvNumber = 2) :
    cvWriteWith st opc m s =
      finishWrite opc m.lncvNumber.toNat m.lncvValue
        (slotStatus m.lncvNumber.toNat m.lncvValue) s := by
  have h1 : m.lncvNumber ≠ 1 := by rintro h'; rw [h'] at h; revert h; decide
  have hin : ¬ s.params.nCv ≤ m.lncvNumber.toNat := by
    have h3 := hp.three_le_nCv
    have h2 : m.lncvNumber.toNat ≤ 2 := by obtain h | h := h <;> rw [h] <;> decide
    omega
  rw [cvWriteWith, if_neg (by simp [hon]), if_neg hin, if_neg h1, if_pos h]

theorem cvWriteWith_zero (hp : s.params.WF) (hon : s.progMode = true) (h : m.lncvNumber = 0) :
    cvWriteWith st opc m s = finishWrite opc 0 m.lncvValue (slotStatus 0 m.lncvValue) s := by
  rw [cvWriteWith_config hp hon (.inl h), h]; rfl

theorem cvWriteWith_two (hp : s.params.WF) (hon : s.progMode = true) (h : m.lncvNumber = 2) :
    cvWriteWith st opc m s = finishWrite opc 2 m.lncvValue (slotStatus 2 m.lncvValue) s := by
  rw [cvWriteWith_config hp hon (.inr h), h]; rfl

/-- Slots from 3 up are judged by the hook (43_cv_handler.md R274). -/
theorem cvWriteWith_device (hon : s.progMode = true) (hn : 3 ≤ m.lncvNumber.toNat)
    (hin : m.lncvNumber.toNat < s.params.nCv) :
    cvWriteWith st opc m s =
      finishWrite opc m.lncvNumber.toNat m.lncvValue st
        (authorize m.lncvNumber.toNat m.lncvValue st s) := by
  have hne : ∀ w : Word, w.toNat < 3 → m.lncvNumber ≠ w := by rintro w hw rfl; omega
  rw [cvWriteWith, if_neg (by simp [hon]), if_neg (Nat.not_le.2 hin), if_neg (hne 1 (by decide)),
    if_neg (not_or.2 ⟨hne 0 (by decide), hne 2 (by decide)⟩)]

theorem slotStatus_zero_ok (h : v.toNat < 0x3FF) : slotStatus 0 v = .ok := by
  simp [slotStatus, h]

theorem slotStatus_zero_invalid (h : 0x3FF ≤ v.toNat) : slotStatus 0 v = .invalidValue := by
  simp [slotStatus, Nat.not_lt.2 h]

theorem slotStatus_two_ok (h0 : 0 < v.toNat) (h : v.toNat < 0x10) : slotStatus 2 v = .ok := by
  simp [slotStatus, h0, h]

theorem slotStatus_two_invalid (h : v = 0 ∨ 0x10 ≤ v.toNat) : slotStatus 2 v = .invalidValue := by
  have hv : ¬ (0 < v.toNat ∧ v.toNat < 0x10) := by
    obtain rfl | h := h
    · simp
    · omega
  rw [slotStatus, if_neg (by decide), if_neg hv]

/-! ## The end of a write -/

/-- A verdict other than ok, or a value already there, is only answered (43_cv_handler.md R276). -/
theorem finishWrite_unchanged (hp : s.params.WF) (hr : framesHeld s < s.params.txqCap)
    (h : st ≠ .ok ∨ v = cvLookup s n) :
    finishWrite opc n v st s =
      .next { s with txq := s.txq ++ [ackFrame s.params opc (s.params.code st)] } := by
  rw [finishWrite, if_neg (by tauto), longAck_room hp opc (hp.code_msb st) hr]

theorem persist_txq (n : Nat) (v : Word) (s : State) : (persist n v s).txq = s.txq := by
  by_cases h0 : n = 0 <;> by_cases h2 : n = 2 <;> simp [persist, h0, h2, storeWrite]

/-- An accepted value that differs is persisted, then answered (43_cv_handler.md R275, R276). -/
theorem finishWrite_persisted (hp : s.params.WF) (hr : framesHeld s < s.params.txqCap)
    (h : v ≠ cvLookup s n) :
    finishWrite opc n v .ok s =
      .next { persist n v s with txq := s.txq ++ [ackFrame s.params opc s.params.stOk] } := by
  have hparams := persist_params n v s
  have hp' : (persist n v s).params.WF := by rwa [hparams]
  have hroom : framesHeld (persist n v s) < (persist n v s).params.txqCap := by
    rwa [persist_framesHeld, hparams]
  have hcode : s.params.code .ok = (persist n v s).params.code .ok := by rw [hparams]
  have hack : ackFrame (persist n v s).params opc ((persist n v s).params.code .ok) =
      ackFrame s.params opc s.params.stOk := by rw [hparams]; rfl
  rw [finishWrite, if_pos ⟨rfl, h⟩, hcode, longAck_room hp' opc (hp'.code_msb .ok) hroom,
    persist_txq, hack]

/-- Settles O47: one branch of the write per clause, none of which persists. -/
theorem writesThatChangeNoSlot : Obligations.WritesThatChangeNoSlot := by
  intro s opc m hs
  rw [exec_cvWrite hs]
  refine ⟨cvWriteWith_off, fun hon hp hr => ⟨fun h => ?_, fun h => ?_, fun hn hv => ?_,
    fun hn hv => ?_, fun hok heq => ?_⟩⟩
  · rw [cvWriteWith_outOfRange hon h]
    exact longAck_room hp opc (hp.code_msb .outOfRange) hr
  · rw [cvWriteWith_marker hp hon h]
    exact longAck_room hp opc (hp.code_msb .readOnly) hr
  · rw [cvWriteWith_zero hp hon hn, slotStatus_zero_invalid hv]
    exact finishWrite_unchanged hp hr (.inl nofun)
  · rw [cvWriteWith_two hp hon hn, slotStatus_two_invalid hv]
    exact finishWrite_unchanged hp hr (.inl nofun)
  · obtain ⟨hn, hv⟩ | ⟨hn, h0, hv⟩ := hok
    · rw [hn] at heq
      rw [cvWriteWith_zero hp hon hn, slotStatus_zero_ok hv]
      exact finishWrite_unchanged hp hr (.inr heq)
    · rw [hn] at heq
      have hpos : 0 < m.lncvValue.toNat :=
        Nat.pos_of_ne_zero fun h => h0 (BitVec.eq_of_toNat_eq h)
      rw [cvWriteWith_two hp hon hn, slotStatus_two_ok hpos hv]
      exact finishWrite_unchanged hp hr (.inr heq)

/-! ## Persisted writes -/

/-- Settles O48: what persisting slots 0 and 2 writes, and what every slot then reads. -/
theorem persistedWritesOfConfigSlots : Obligations.PersistedWritesOfConfigSlots := by
  intro s opc m hs hp hon hr hw hne
  rw [exec_cvWrite hs]
  refine ⟨fun hn hv => ?_, fun hn h0 hv => ?_⟩
  · rw [hn] at hne
    have hpage : pageValues (storeWrite 0 m.lncvValue s) 0 = (List.range s.params.pageSize).map
        fun k => if k = 0 then m.lncvValue else storeRead s k := by
      simp only [pageValues, storeRead_storeWrite hw, Nat.zero_mul, Nat.zero_add]
      rfl
    rw [cvWriteWith_zero hp hon hn, slotStatus_zero_ok hv,
      finishWrite_persisted (n := 0) hp hr hne]
    refine ⟨_, _, _, rfl, ?_, storeRead_persist_zero hw m.lncvValue, rfl, rfl⟩
    rw [persist_zero, hpage, BitVec.ofNat_toNat]
    rfl
  · rw [hn] at hne
    rw [cvWriteWith_two hp hon hn, slotStatus_two_ok h0 hv,
      finishWrite_persisted (n := 2) hp hr hne]
    refine ⟨_, _, rfl, ?_, storeRead_persist (by decide) hw m.lncvValue, rfl⟩
    rw [persist_two, BitVec.ofNat_toNat]
    rfl

/-- The values a commit carries are those the persisted write leaves. -/
theorem pageValues_persist (n : Nat) (v : Word) (s : State) (page : Nat) :
    pageValues (persist n v s) page = (List.range s.params.pageSize).map
      fun k => storeRead (persist n v s) (page * s.params.pageSize + k) := by
  rw [pageValues, persist_params]

/-- Recording the draw leaves every lookup. -/
theorem cvLookup_authorize (n k : Nat) (v : Word) (st : Status) (s : State) :
    cvLookup (authorize n v st s) k = cvLookup s k := cvLookup_congr rfl rfl k

/-- Settles O49: the draw is recorded, then the write ends with the hook's verdict. -/
theorem hookDecidesDeviceSpecificWrites : Obligations.HookDecidesDeviceSpecificWrites := by
  rintro s opc m n hs hp hon hr hw rfl hn hin
  have h0 : m.lncvNumber.toNat ≠ 0 := by omega
  have h2 : m.lncvNumber.toNat ≠ 2 := by omega
  refine ⟨exec_cvWrite hs opc m, fun st => ?_⟩
  have hlookup : cvLookup (authorize m.lncvNumber.toNat m.lncvValue st s) m.lncvNumber.toNat =
      storeRead s m.lncvNumber.toNat := by rw [cvLookup_authorize, cvLookup_other h0 h2]
  rw [cvWriteWith_device hon hn hin]
  refine ⟨fun h => ?_, fun hok hne => ?_⟩
  · rw [← hlookup] at h
    exact finishWrite_unchanged (s := authorize _ _ st s) hp hr h
  · subst hok
    rw [← hlookup] at hne
    rw [finishWrite_persisted (s := authorize _ _ .ok s) hp hr hne]
    refine ⟨_, _, rfl, ?_, storeRead_persist (s := authorize _ _ .ok s) h0 hw m.lncvValue,
      pageValues_persist _ m.lncvValue (authorize _ _ .ok s) _⟩
    have hpersist := persist_other h0 h2 m.lncvValue
      (authorize m.lncvNumber.toNat m.lncvValue .ok s)
    -- the page is the same on both sides, and rewriting by `hpersist` would open it
    simp only [authorize, State.emit, List.append_assoc] at hpersist ⊢
    generalize pageValues _ _ = page at hpersist ⊢
    rw [hpersist]
    rfl

/-! ## A write read back -/

/-- A long-ack only queues a frame. -/
theorem longAck_eq_next {code : Byte} (h : longAck opc code s = .next t) :
    ∃ f, t = { s with txq := s.txq ++ [f] } := by
  obtain ⟨-, -, ht⟩ := enqueueFrame_eq_next h
  exact ⟨_, ht⟩

/-- After a write that ends, the slot's lookup answers the value if the verdict was ok, else what it
answered before. -/
theorem cvLookup_finishWrite (hw : Memory.wf unlistedSlot s.store) (h1 : n ≠ 1)
    (h2 : n = 2 → storeRead s 1 = s.params.deviceClass)
    (h : finishWrite opc n v st s = .next t) :
    cvLookup t n = if st = .ok then v else cvLookup s n := by
  unfold finishWrite at h
  obtain ⟨f, rfl⟩ := longAck_eq_next h
  split
  case isTrue hp =>
    rw [if_pos hp.1]
    exact (cvLookup_congr rfl rfl n).trans (cvLookup_persist hw h1 h2)
  case isFalse hp =>
    refine (cvLookup_congr rfl rfl n).trans ?_
    split
    · exact (not_not.1 fun hne => hp ⟨‹_›, hne⟩).symm
    · rfl

/-- What a lookup of the written slot answers after a write in programming mode (43_cv_handler.md
R285). -/
theorem cvLookup_cvWriteWith (hp : s.params.WF) (hw : Memory.wf unlistedSlot s.store)
    (hon : s.progMode = true) (hin : m.lncvNumber.toNat < s.params.nCv)
    (hslot : (m.lncvNumber = 0 ∧ m.lncvValue.toNat < 0x3FF) ∨
      (m.lncvNumber = 2 ∧ 0 < m.lncvValue.toNat ∧ m.lncvValue.toNat < 0x10 ∧
        storeRead s 1 = s.params.deviceClass) ∨ 3 ≤ m.lncvNumber.toNat)
    (h : cvWriteWith st opc m s = .next t) :
    cvLookup t m.lncvNumber.toNat =
      if 3 ≤ m.lncvNumber.toNat ∧ st ≠ .ok then storeRead s m.lncvNumber.toNat
      else m.lncvValue := by
  obtain ⟨hn, hv⟩ | ⟨hn, h0, hv, hmark⟩ | h3 := hslot
  · rw [cvWriteWith_zero hp hon hn, slotStatus_zero_ok hv] at h
    rw [hn, if_neg (by simp)]
    exact cvLookup_finishWrite hw (by decide) (fun h => absurd h (by decide)) h
  · rw [cvWriteWith_two hp hon hn, slotStatus_two_ok h0 hv] at h
    rw [hn, if_neg (by simp)]
    exact cvLookup_finishWrite hw (by decide) (fun _ => hmark) h
  · rw [cvWriteWith_device hon h3 hin] at h
    rw [cvLookup_finishWrite (s := authorize _ _ st s) hw (by omega) (by omega) h,
      cvLookup_authorize, cvLookup_other (by omega) (by omega)]
    by_cases hst : st = .ok <;> simp [hst, h3]

/-- Settles O54: the write's lookup is what the read's response carries. -/
theorem cvRoundTrip : Obligations.CvRoundTrip := by
  intro s t opc m hs hp hw hin h
  rw [exec_cvWrite hs] at h
  refine ⟨fun hon hslot opc' m' hm hwf hr => ?_, fun hoff => ?_⟩
  · have he := cvWriteWith_effect h
    have hpt : t.params.WF := by rwa [he.params]
    have hin' : m'.lncvNumber.toNat < t.params.nCv := by rwa [hm, he.params]
    obtain ⟨f, body, hrespond, rfl, -, -, hbody⟩ := respond_room hpt hr
      (carried_msb (validFrame_of_wf_request rfl hwf)) m'.lncvNumber
      (cvLookup t m'.lncvNumber.toNat)
    refine ⟨body, ?_, ?_, ?_⟩
    · rw [exec_cvRead (he.ready hs), cvRead_inRange hin', hrespond]
    · rw [hbody, hm]
    · rw [hbody, hm, ← cvLookup_cvWriteWith hp hw hon hin hslot h]
  · rw [cvWriteWith_off hoff] at h
    cases h; rfl

/-! ## A read on a factory-fresh device -/

/-- A payload of a CvMessage key is read as a message (43_cv_handler.md R261). -/
theorem cvHandle_message {payload : List Byte}
    (h : key opc = key opcPeerXfer ∨ key opc = key s.params.opcImmPacket) :
    cvHandle opc payload s = cvMessage opc payload s := if_pos h

/-- The two wire messages that carry CV requests. -/
theorem cvCarrier_spec {p : Params} {len : Byte} {body : List Byte} (hp : p.WF)
    (h : i = .opcPeerXfer len body ∧ opc = opcPeerXfer ∨
      i = .opcImmPacket len body ∧ opc = p.opcImmPacket) :
    framer i = true ∧ i ≠ .step ∧ encode p i = opc :: len :: body ∧ frameClass opc = 7 ∧
      (key opc = key opcPeerXfer ∨ key opc = key p.opcImmPacket) := by
  obtain ⟨rfl, rfl⟩ | ⟨rfl, rfl⟩ := h
  · exact ⟨rfl, nofun, rfl, rfl, .inl rfl⟩
  · exact ⟨rfl, nofun, rfl, hp.classes.1, .inr rfl⟩

/-- A valid variable frame of length byte 15 holds a payload of 13 bytes. -/
theorem length_of_validFrame {body : List Byte} (hc : frameClass opc = 7)
    (hv : validFrame (opc :: 0x0F :: body) = true) : body.length = 13 := by
  obtain ⟨-, hl, -⟩ := validFrame_cons.1 hv
  rw [frameLen_variable hc] at hl
  exact Nat.add_right_cancel hl

/-- The bytes that the message of a valid frame keeps for its response have bit 7 clear. -/
theorem unpack_msb {body : List Byte} (hl : body.length = 13)
    (hv : validFrame (opc :: 0x0F :: body) = true) :
    (loByte (CvMessage.unpack body).destination).msb = false ∧
      (hiByte (CvMessage.unpack body).destination).msb = false ∧
      (CvMessage.unpack body).requestId.msb = false := by
  obtain ⟨-, -, -, hd, -⟩ := validFrame_cons.1 hv
  have hget : ∀ k < 12, (body.getD k 0).msb = false := by
    intro k hk
    have hk' : k + 1 < (0x0F :: body).length - 1 := by rw [List.length_cons, hl]; omega
    have h := msb_getD hd (k + 1)
    rwa [List.getD_eq_getElem?_getD, List.getElem?_dropLast, if_pos hk', List.getElem?_cons_succ,
      ← List.getD_eq_getElem?_getD] at h
  simp only [CvMessage.unpack, lo_mkWord, hi_mkWord]
  exact ⟨hget 1 (by decide), hget 2 (by decide), hget 3 (by decide)⟩

/-- Settles O53: the frame runs the CV unit, whose read answers the fallback of slot 0. -/
theorem factoryFreshReadAnswersDefaultAddress :
    Obligations.FactoryFreshReadAnswersDefaultAddress := by
  intro s i body opc ext hs hp hi hwf hsource hn hread hreg hext hr hfresh
  obtain ⟨hf, hstep, hencode, hc, hkey⟩ := cvCarrier_spec hp hi
  have hv := validFrame_of_wf hf hstep hwf
  rw [hencode] at hv
  have hl := length_of_validFrame hc hv
  have hin : (CvMessage.unpack body).lncvNumber.toNat < s.params.nCv := by
    rw [hn]; exact Nat.lt_of_lt_of_le (by decide) hp.three_le_nCv
  obtain ⟨f, answer, hrespond, rfl, -, -, hanswer⟩ :=
    respond_room (s := s.advance 15) hp hr (unpack_msb hl hv) 0 (cvLookup s 0)
  have hcv : cvHandle opc body (s.advance 15) =
      respond (CvMessage.unpack body) 0 (cvLookup s 0) (s.advance 15) := by
    rw [cvHandle_message (s := s.advance 15) hkey,
      cvMessage_request (s := s.advance 15) hs hl hsource, State.advance_params, hread,
      exec_cvRead (s := s.advance 15) hs, cvRead_inRange (s := s.advance 15) hin, hn]
    rfl
  refine ⟨answer, ?_, by rw [hanswer], by rw [hanswer, cvLookup_zero_unconfigured hfresh]⟩
  rw [exec_wireFrame_cv hs hf hstep hwf hencode.symm rfl hreg hext, hdr_variable hc]
  have hlen : (opc :: 0x0F :: body).length = 15 := by simp [hl]
  rw [hlen]
  change thenDo (cvHandle opc body (s.advance 15)) _ = _
  rw [hcv, hrespond]
  rfl

end Sys2Proof.Machine
end

section
/-! SUPPORT. The family of 60_exceptions.md: the hold, the faults, the notifications, the collision's
causes, and the writers of the store and of Config. -/

namespace Sys2Proof.Machine

variable {s t u : State} {i : Instr} {opc : Byte} {payload : List Byte}

/-! ## The hold -/

/-- Settles O5: a push finds the buffer full, nothing else marks the hold, and the gate repeats it. -/
theorem heldMachineNeverMoves : Obligations.HeldMachineNeverMoves := by
  refine ⟨fun s b hs hb hfull => ?_, fun i s t h hne => ?_, fun s k hf hr hk =>
    ⟨gate_hung hf hr hk, exec_hung hf hr hk⟩⟩
  · rw [exec_evRxByte_push hs hb, push_full hfull]
  · obtain ⟨rfl, -⟩ | ⟨-, hd⟩ := exec_eq_next h
    · exact absurd rfl hne
    · exact hd.hung.resolve_left hne

/-! ## Notifications -/

/-- A push answers a next state, with room or without (60_exceptions.md R333). -/
theorem push_completes (b : Byte) (s : State) : ∃ t, push b s = .next t := by
  by_cases h : (s.wr + 1) % s.params.cap = s.rd
  · exact ⟨_, push_full h⟩
  · exact ⟨_, push_room h⟩

/-- A received byte is a collision or a push (41_rx_framer.md R172). -/
theorem exec_evRxByte_completes (h : s.Ready) (b : Byte) : ∃ t, exec (.evRxByte b) s = .next t := by
  by_cases hb : s.transmitting = true → s.lastSent = some b
  · rw [exec_evRxByte_push h hb]; exact push_completes b s
  · obtain ⟨ht, hne⟩ := Classical.not_imp.1 hb
    exact ⟨_, exec_evRxByte_mismatch h ht hne⟩

/-- With no delay armed an expiry changes nothing (40_arbitration.md R133). -/
theorem exec_evTimerExpiry_unarmed (h : s.Ready) (ht : s.timer = none) :
    exec .evTimerExpiry s = .next s := by
  rw [exec, execEvTimerExpiry, whenUp_ready h, ht]; rfl

theorem exec_evTimerExpiry_completes (h : s.Ready) : ∃ t, exec .evTimerExpiry s = .next t := by
  cases ht : s.timer with
  | none => exact ⟨_, exec_evTimerExpiry_unarmed h ht⟩
  | some d => exact ⟨_, exec_evTimerExpiry h ht⟩

/-- Settles O7, one rule per notification. -/
theorem notificationsAlwaysComplete : Obligations.NotificationsAlwaysComplete := by
  intro i s hn h
  cases i <;> simp only [notification, Bool.false_eq_true] at hn
  case evBusFall => exact ⟨_, exec_evBusFall h⟩
  case evBusRise => exact ⟨_, exec_evBusRise h⟩
  case evTimerExpiry => exact exec_evTimerExpiry_completes h
  case evRxByte b => exact exec_evRxByte_completes h b
  case evRxError => exact ⟨_, exec_evRxError h⟩
  case evTxReady => exact ⟨_, exec_evTxReady h⟩
  case evTxComplete => exact ⟨_, exec_evTxComplete h⟩

/-! ## Faults -/

/-- Before the first `RESET` only `RESET` answers anything but a refusal (10_state.md R46). -/
theorem ready_of_exec {o : Outcome} (hl : s.Live) (hi : i ≠ .reset) (h : exec i s = o)
    (ho : o ≠ .refused .notUp) : s.Ready := by
  cases hu : s.up with
  | true => exact ⟨hl, hu⟩
  | false => exact absurd (h.symm.trans (exec_notUp hl hu hi)) ho

/-- `STEP` and the wire frames are the framer on some bytes (41_rx_framer.md R180). -/
theorem exec_framer (h : s.Ready) (hf : framer i = true) : ∃ bs, exec i s = framerOn bs s := by
  by_cases hi : i = .step
  · subst hi; exact ⟨_, exec_step h⟩
  · exact ⟨_, exec_wireFrame h hf hi⟩

/-- A CV request stops only for its answer (60_exceptions.md R331). -/
theorem exec_cvRequest_stops (h : s.Ready) (hi : cvRequestInstr i = true) :
    QueueStops (exec i s) := by
  cases i <;> simp only [cvRequestInstr, Bool.false_eq_true] at hi
  case cvProgOn opc m => rw [exec_cvProgOn h]; exact progOn_stops m s
  case cvProgOff opc m => rw [exec_cvProgOff h]; trivial
  case cvWrite opc m => rw [exec_cvWrite h]; exact cvWriteWith_stops _ opc m s
  case cvRead opc m => rw [exec_cvRead h]; exact cvRead_stops opc m s
  case cvSlaveWrite opc payload => rw [exec_cvSlaveWrite h]; exact slaveWrite_stops payload s
  case cvSlaveRead opc payload => rw [exec_cvSlaveRead h]; exact slaveRead_stops payload s

theorem exec_reset_live (h : s.Live) :
    exec .reset s =
      if s.storeReady then .next (resetFields s) else .fault .storeNotInitialized := by
  rw [exec, execReset, gate_live h]

/-- `RESET` faults only on a store that is not initialized (70_reset_and_hazards.md R361). -/
theorem exec_reset_eq_fault {f : Fault} (hl : s.Live) (h : exec .reset s = .fault f) :
    f = .storeNotInitialized := by
  rw [exec_reset_live hl] at h
  split at h <;> cases h
  rfl

theorem exec_svcAct_completes (h : s.Ready) : ∃ t, exec .svcAct s = .next t := by
  cases hl : s.svcLatch with
  | true => exact ⟨_, exec_svcAct_latched h hl⟩
  | false => exact ⟨_, exec_svcAct_unlatched h hl⟩

/-- The operand check faults only through its operation. -/
theorem withEntry_eq_fault {k hid : Byte} {op : RegEntry → Outcome} {f : Fault}
    (h : withEntry k hid op = .fault f) : ∃ e, op e = .fault f := by
  unfold withEntry at h
  split at h
  · exact ⟨_, h⟩
  · cases h

/-- `REGISTER` faults only on a full registry (41_rx_framer.md R195). -/
theorem exec_register_eq_fault {k hid : Byte} {f : Fault} (hs : s.Ready)
    (h : exec (.register k hid) s = .fault f) : f = .registryFull := by
  rw [exec_register hs] at h
  obtain ⟨e, he⟩ := withEntry_eq_fault h
  split at he <;> cases he
  rfl

theorem exec_unregister_ne_fault {k hid : Byte} {f : Fault} (hs : s.Ready) :
    exec (.unregister k hid) s ≠ .fault f := by
  intro h
  rw [exec_unregister hs] at h
  obtain ⟨e, he⟩ := withEntry_eq_fault h
  cases he

theorem exec_readReg_ne_fault {r : Byte} {f : Fault} (hs : s.Ready) :
    exec (.readReg r) s ≠ .fault f := by
  rw [exec_readReg hs]
  split <;> exact nofun

/-- Settles O6: notifications complete, the framer and the CV unit stop as they may, and each command is
left with the one check it makes. -/
theorem faultsComeOnlyFromTheirOperations : Obligations.FaultsComeOnlyFromTheirOperations := by
  intro i s f hl h
  by_cases hi : i = .reset
  · subst hi; exact .inr (.inr (.inr ⟨exec_reset_eq_fault hl h, rfl⟩))
  have hs : s.Ready := ready_of_exec hl hi h nofun
  by_cases hn : notification i = true
  · obtain ⟨t, ht⟩ := notificationsAlwaysComplete i s hn hs
    rw [ht] at h; cases h
  by_cases hf : framer i = true
  · obtain ⟨bs, hbs⟩ := exec_framer hs hf
    rw [hbs] at h
    obtain hq | hshort := framerOn_stops bs s
    · exact .inr (.inl ⟨hq.fault h, .inl hf⟩)
    · rw [hshort] at h; cases h; exact .inl ⟨rfl, hf⟩
  by_cases hc : cvRequestInstr i = true
  · exact .inr (.inl ⟨(exec_cvRequest_stops hs hc).fault h, .inr (.inl hc)⟩)
  cases i <;> simp only [notification, framer, cvRequestInstr, not_true] at hn hf hc
  case reset => exact absurd rfl hi
  case svcCheck => rw [exec_svcCheck hs] at h; cases h
  case svcAct => obtain ⟨t, ht⟩ := exec_svcAct_completes hs; rw [ht] at h; cases h
  case enqueue opc d =>
    rw [exec_enqueue hs] at h
    exact .inr (.inl ⟨(enqueueFrame_stops opc d s).fault h, .inr (.inr (.inl ⟨opc, d, rfl⟩))⟩)
  case longAck opc code =>
    rw [exec_longAck hs] at h
    exact .inr (.inl ⟨(enqueueFrame_stops _ _ s).fault h, .inr (.inr (.inr ⟨opc, code, rfl⟩))⟩)
  case register k hid =>
    exact .inr (.inr (.inl ⟨exec_register_eq_fault hs h, k, hid, rfl⟩))
  case unregister k hid => exact absurd h (exec_unregister_ne_fault hs)
  case readReg r => exact absurd h (exec_readReg_ne_fault hs)

/-! ## The causes of a collision -/

/-- From `s` to `t` no collision was raised: the flag was not set, and no event reports one. -/
structure NoCollision (s t : State) : Prop where
  flag  : t.collisionDetected = true → s.collisionDetected = true
  trace : ∃ es, t.out = s.out ++ es ∧ ∀ c, Event.collision c ∉ es

theorem NoCollision.silent (hf : t.collisionDetected = true → s.collisionDetected = true)
    (ho : t.out = s.out) : NoCollision s t :=
  ⟨hf, [], by rw [ho, List.append_nil], nofun⟩

theorem NoCollision.refl (s : State) : NoCollision s s := .silent id rfl

theorem timerExpired_noCollision (s : State) : NoCollision s (timerExpired s) := by
  unfold timerExpired
  split
  case h_1 =>
    unfold cdExpired
    split
    · exact .silent id rfl
    · exact ⟨id, _, rfl, by simp⟩
  case h_2 =>
    unfold mdExpired
    split
    · exact ⟨id, _, rfl, by simp⟩
    · exact .silent id rfl
  case h_3 => exact .silent id rfl
  case h_4 => rw [lbExpired_eq]; exact ⟨nofun, _, rfl, by simp⟩
  case h_5 => exact .silent id rfl

theorem txReady_noCollision (s : State) : NoCollision s (txReady s) := by
  unfold txReady
  split
  case h_1 => split <;> exact ⟨id, _, rfl, by simp⟩
  case h_2 => exact .refl s
  case h_3 => exact .refl s

theorem txComplete_noCollision (s : State) : NoCollision s (txComplete s) := by
  unfold txComplete
  split
  case h_1 => exact ⟨id, _, rfl, by simp⟩
  case h_2 => exact .refl s
  case h_3 => exact .refl s

theorem startTransmission_noCollision (s : State) : NoCollision s (startTransmission s) := by
  unfold startTransmission
  split
  · exact ⟨id, _, rfl, by simp⟩
  · exact .silent id rfl

theorem push_noCollision {b : Byte} (h : push b s = .next t) : NoCollision s t := by
  obtain ⟨-, rfl⟩ | ⟨-, rfl⟩ := push_eq_next h <;> exact .silent id rfl

theorem Effect.noCollision (h : Effect s t) : NoCollision s t :=
  ⟨fun ht => by rw [h.frame] at ht; exact ht, h.trace⟩

/-- The instruction that raises a collision of a cause, and when it does (60_exceptions.md R322). -/
def Raises (c : Cause) (i : Instr) (s : State) : Prop :=
  match c with
  | .framingError => i = .evRxError
  | .echoMismatch => ∃ b, i = .evRxByte b ∧ s.transmitting = true ∧ s.lastSent ≠ some b

/-- An instruction is the collision of its cause, or raises none. -/
theorem Did.collision (h : Did i s t) :
    (∃ c, Raises c i s ∧ t = collide c s) ∨ NoCollision s t := by
  have hd := h
  cases i <;> simp only [Did] at h
  case evRxError => exact .inl ⟨.framingError, rfl, h⟩
  case evRxByte b =>
    obtain ⟨ht, hb, h⟩ | ⟨-, h⟩ := h
    · exact .inl ⟨.echoMismatch, ⟨b, rfl, ht, hb⟩, h⟩
    · exact .inr (push_noCollision h)
  all_goals refine .inr ?_
  case reset => obtain ⟨-, rfl⟩ := h; exact .silent nofun rfl
  case evBusFall => rw [h]; exact ⟨id, _, rfl, by simp⟩
  case evBusRise => rw [h]; exact ⟨id, _, rfl, by simp⟩
  case evTimerExpiry =>
    rw [h]; split
    · exact timerExpired_noCollision s
    · exact .refl s
  case evTxReady => rw [h]; exact txReady_noCollision s
  case evTxComplete => rw [h]; exact txComplete_noCollision s
  case svcCheck => rw [h]; exact .silent id rfl
  case svcAct =>
    rw [h]; split
    · exact startTransmission_noCollision s
    · exact .refl s
  case register => obtain ⟨-, -, rfl⟩ := h; exact .silent id rfl
  case unregister => obtain ⟨-, rfl⟩ := h; exact .silent id rfl
  case readReg => obtain ⟨-, rfl⟩ := h; exact .silent id rfl
  all_goals
    obtain ⟨rd, r, u, he, rfl, -⟩ := hd.effect (by simp [framer, cvRequestInstr])
    exact ⟨he.noCollision.flag, he.noCollision.trace⟩

/-- The one collision event of a collision carries its cause (40_arbitration.md R141). -/
theorem collide_event {c c' : Cause} {es : List Event}
    (h : (collide c s).out = s.out ++ es) (hc : Event.collision c' ∈ es) : c' = c := by
  rw [collide_eq] at h
  rw [← List.append_cancel_left h] at hc
  simpa using hc

theorem NoCollision.no_event (h : NoCollision s t) {es : List Event} (ht : t.out = s.out ++ es)
    (c : Cause) : Event.collision c ∉ es := by
  obtain ⟨es', ho, hes⟩ := h.trace
  rw [List.append_cancel_left (ht.symm.trans ho)]
  exact hes c

/-- Settles O21: an instruction is the collision of its cause, or raises none; so is standing still. -/
theorem noOtherOperationRaisesACollision : Obligations.NoOtherOperationRaisesACollision := by
  refine ⟨rfl, rfl, fun i s t h => ?_⟩
  have hcases : (∃ c, Raises c i s ∧ t = collide c s) ∨ NoCollision s t := by
    obtain ⟨rfl, -⟩ | ⟨-, hd⟩ := exec_eq_next h
    · exact .inr (.refl t)
    · exact hd.collision
  obtain ⟨c, hr, rfl⟩ | hno := hcases
  · refine ⟨fun _ _ => ?_, fun c' es ho hc => ?_⟩
    · cases c with
      | framingError => exact .inl hr
      | echoMismatch => exact .inr hr
    · obtain rfl := collide_event ho hc
      cases c' with
      | framingError => exact .inl ⟨rfl, hr⟩
      | echoMismatch => exact .inr ⟨rfl, hr⟩
  · refine ⟨fun hs ht => ?_, fun c es ho hc => absurd hc (hno.no_event ho c)⟩
    rw [hno.flag ht] at hs; cases hs

/-! ## The writers of the store and of Config -/

/-- The parameters, the store, and what a persisted write refreshes of Config stand as they were. -/
structure StoreStands (s t : State) : Prop where
  params   : t.params = s.params
  store    : t.store = s.store
  address  : t.address = s.address
  priority : t.priority = s.priority

theorem StoreStands.refl (s : State) : StoreStands s s := ⟨rfl, rfl, rfl, rfl⟩

theorem StoreStands.trans (h : StoreStands s t) (h' : StoreStands t u) : StoreStands s u :=
  ⟨h'.params.trans h.params, h'.store.trans h.store, h'.address.trans h.address,
    h'.priority.trans h.priority⟩

theorem NotificationWrites.storeStands (h : NotificationWrites s t) : StoreStands s t := by
  rw [h]; exact ⟨rfl, rfl, rfl, rfl⟩

theorem ServiceWrites.storeStands (h : ServiceWrites s t) : StoreStands s t := by
  rw [h]; exact ⟨rfl, rfl, rfl, rfl⟩

theorem enqueueFrame_storeStands {d : List Byte} (h : enqueueFrame opc d s = .next t) :
    StoreStands s t := by
  obtain ⟨-, -, rfl⟩ := enqueueFrame_eq_next h; exact ⟨rfl, rfl, rfl, rfl⟩

theorem progOn_storeStands {m : CvMessage} (h : progOn m s = .next t) : StoreStands s t := by
  unfold progOn at h
  split at h
  · have hs := enqueueFrame_storeStands h
    exact ⟨hs.params, hs.store, hs.address, hs.priority⟩
  · cases h; exact .refl s

theorem progOff_storeStands (h : progOff s = .next t) : StoreStands s t := by
  cases h; exact ⟨rfl, rfl, rfl, rfl⟩

theorem cvRead_storeStands {m : CvMessage} (h : cvRead opc m s = .next t) : StoreStands s t := by
  unfold cvRead at h
  split at h <;> exact enqueueFrame_storeStands h

theorem slaveWrite_storeStands (h : slaveWrite payload s = .next t) : StoreStands s t := by
  unfold slaveWrite at h
  repeat' split at h
  all_goals
    cases h
    exact ⟨rfl, rfl, rfl, rfl⟩

theorem slaveRead_storeStands (h : slaveRead payload s = .next t) : StoreStands s t := by
  unfold slaveRead at h
  repeat' split at h
  all_goals
    cases h
    exact ⟨rfl, rfl, rfl, rfl⟩

/-- Outside `RESET`, the framer and a write request, the store and Config stand. -/
theorem Did.storeStands (h : Did i s t) (hr : i ≠ .reset) (hf : framer i = false)
    (hw : ∀ opc m, i ≠ .cvWrite opc m) : StoreStands s t := by
  obtain ⟨hi, -⟩ | ⟨-, hn⟩ | ⟨hn, -⟩ := h.writes
  · exact absurd hi hr
  · exact hn.storeStands
  cases i <;> simp only [framer, notification, Bool.true_eq_false] at hf hn <;> simp only [Did] at h
  case reset => exact absurd rfl hr
  case svcCheck => rw [h]; exact ⟨rfl, rfl, rfl, rfl⟩
  case svcAct =>
    rw [h]; split
    · exact (startTransmission_writes s).storeStands
    · exact .refl s
  case enqueue => exact enqueueFrame_storeStands h
  case longAck => exact enqueueFrame_storeStands h
  case register => obtain ⟨-, -, rfl⟩ := h; exact ⟨rfl, rfl, rfl, rfl⟩
  case unregister => obtain ⟨-, rfl⟩ := h; exact ⟨rfl, rfl, rfl, rfl⟩
  case readReg => obtain ⟨-, rfl⟩ := h; exact ⟨rfl, rfl, rfl, rfl⟩
  case cvProgOn => exact progOn_storeStands h
  case cvProgOff => exact progOff_storeStands h
  case cvWrite opc m => exact absurd rfl (hw opc m)
  case cvRead => exact cvRead_storeStands h
  case cvSlaveWrite => exact slaveWrite_storeStands h
  case cvSlaveRead => exact slaveRead_storeStands h

/-- From a ready state a next state is the effect of the instruction: nothing holds the machine. -/
theorem did_of_exec (hs : s.Ready) (h : exec i s = .next t) : Did i s t := by
  obtain ⟨⟨-, -, hhung⟩, -⟩ := hs
  obtain ⟨-, hh⟩ | ⟨-, hd⟩ := exec_eq_next h
  · exact absurd hhung hh
  · exact hd

/-- What the CV decoder reads is a CV request, no command and no wire frame. -/
theorem framer_of_decodeCv {p : Params} (h : decodeCv p opc payload = some i) :
    i ≠ .reset ∧ framer i = false := by
  unfold decodeCv cvRequest at h
  repeat' split at h
  all_goals cases h
  all_goals exact ⟨nofun, rfl⟩

/-- The payload cannot write the store: programming mode is off, or it is no write request. A second
entry of the CV unit runs the same request, so this outlasts every handler of a dispatch. -/
def WriteBlocked (opc : Byte) (payload : List Byte) (s : State) : Prop :=
  s.progMode = false ∨ ∀ o m, decodeCv s.params opc payload ≠ some (.cvWrite o m)

/-- A blocked payload leaves the store and Config, and stays blocked (43_cv_handler.md R271). -/
theorem cvHandle_blocked (hs : s.Ready) (hb : WriteBlocked opc payload s)
    (h : cvHandle opc payload s = .next t) : StoreStands s t ∧ WriteBlocked opc payload t := by
  cases hd : decodeCv s.params opc payload with
  | none =>
    rw [cvHandle_of_decodeCv_none hd] at h
    cases h; exact ⟨.refl s, hb⟩
  | some i =>
    rw [cvHandle_of_decodeCv_some hs hd] at h
    by_cases hw : ∃ o m, i = .cvWrite o m
    · obtain ⟨o, m, rfl⟩ := hw
      obtain hoff | hno := hb
      · rw [exec_cvWrite hs, cvWriteWith_off hoff] at h
        cases h; exact ⟨.refl s, .inl hoff⟩
      · exact absurd hd (hno o m)
    · have hno : ∀ o m, i ≠ .cvWrite o m := fun o m he => hw ⟨o, m, he⟩
      obtain ⟨hr, hf⟩ := framer_of_decodeCv hd
      have hst := (did_of_exec hs h).storeStands hr hf hno
      refine ⟨hst, .inr fun o m he => ?_⟩
      rw [hst.params, hd] at he
      exact hno o m (Option.some.inj he)

theorem invoke_blocked {e : RegEntry} (hs : s.Ready) (hb : WriteBlocked opc payload s)
    (h : invoke opc payload e s = .next t) : StoreStands s t ∧ WriteBlocked opc payload t := by
  unfold invoke at h
  split at h
  · exact cvHandle_blocked hs hb h
  · cases h; exact ⟨⟨rfl, rfl, rfl, rfl⟩, hb⟩

theorem dispatchTo_blocked {es : List RegEntry} (hs : s.Ready) (hb : WriteBlocked opc payload s)
    (h : dispatchTo opc payload es s = .next t) : StoreStands s t := by
  induction es generalizing s with
  | nil => cases h; exact .refl _
  | cons e es ih =>
    unfold dispatchTo at h
    split at h
    · obtain ⟨u, hu, ht⟩ := thenDo_eq_next.1 h
      obtain ⟨hsu, hbu⟩ := invoke_blocked hs hb hu
      exact hsu.trans (ih ((invoke_effect hu).ready hs) hbu ht)
    · exact ih hs hb h

/-- With programming mode off the framer leaves the store and Config (43_cv_handler.md R271). -/
theorem framerOn_storeStands {bs : List Byte} (hs : s.Ready) (hoff : s.progMode = false)
    (h : framerOn bs s = .next t) : StoreStands s t := by
  unfold framerOn at h
  split at h
  case h_5 => cases h
  case h_6 n opc payload _ =>
    obtain ⟨u, hu, ht⟩ := thenDo_eq_next.1 h
    cases ht
    have hst : StoreStands (s.advance n) u := dispatchTo_blocked (s := s.advance n) hs (.inl hoff) hu
    exact ⟨hst.params, hst.store, hst.address, hst.priority⟩
  all_goals
    cases h
    exact ⟨rfl, rfl, rfl, rfl⟩

/-- With programming mode off only `RESET` changes the store or Config. -/
theorem exec_storeStands (hs : s.Ready) (hoff : s.progMode = false) (hr : i ≠ .reset)
    (h : exec i s = .next t) : StoreStands s t := by
  by_cases hf : framer i = true
  · obtain ⟨bs, hbs⟩ := exec_framer hs hf
    exact framerOn_storeStands hs hoff (hbs.symm.trans h)
  by_cases hw : ∃ o m, i = .cvWrite o m
  · obtain ⟨o, m, rfl⟩ := hw
    rw [exec_cvWrite hs, cvWriteWith_off hoff] at h
    cases h; exact .refl s
  · exact (did_of_exec hs h).storeStands hr (Bool.eq_false_iff.2 hf) fun o m he => hw ⟨o, m, he⟩

/-- No instruction changes the parameters, and only `RESET` changes `is_master`. -/
theorem Did.params_isMaster (h : Did i s t) :
    t.params = s.params ∧ (t.isMaster ≠ s.isMaster → i = .reset) := by
  obtain ⟨rfl, rfl⟩ | ⟨-, hw⟩ | ⟨-, hw | ⟨rd, r, u, he, rfl⟩⟩ := h.writes
  · exact ⟨rfl, fun _ => rfl⟩
  · rw [hw]; exact ⟨rfl, fun hne => absurd rfl hne⟩
  · rw [hw]; exact ⟨rfl, fun hne => absurd rfl hne⟩
  · rw [he.frame]; exact ⟨rfl, fun hne => absurd rfl hne⟩

/-- Settles O56: the writers by the effect of each instruction, the gate of programming mode by
`exec_storeStands`. -/
theorem storeAndConfigHaveTheirWriters : Obligations.StoreAndConfigHaveTheirWriters := by
  intro i s t h
  obtain ⟨rfl, -⟩ | ⟨hl, hd⟩ := exec_eq_next h
  · exact ⟨rfl, fun hne => absurd rfl hne, fun hne => absurd rfl (hne.resolve_left (absurd rfl)),
      fun hne => absurd rfl hne, fun _ => ⟨rfl, fun _ => ⟨rfl, rfl⟩⟩⟩
  obtain ⟨hparams, hmaster⟩ := hd.params_isMaster
  refine ⟨hparams, hmaster, ?_⟩
  by_cases hr : i = .reset
  · subst hr
    have hstore : t.store = s.store := by rw [exec_reset_eq_next hl h]; rfl
    exact ⟨fun _ => .inl rfl, fun hne => absurd hstore hne,
      fun _ => ⟨hstore, fun hne => absurd rfl hne⟩⟩
  have hwriters : (framer i = true ∨ ∃ opc m, i = .cvWrite opc m) ∨ StoreStands s t := by
    by_cases hw : framer i = true ∨ ∃ opc m, i = .cvWrite opc m
    · exact .inl hw
    · obtain ⟨hf, hw⟩ := not_or.1 hw
      exact .inr (hd.storeStands hr (Bool.eq_false_iff.2 hf) fun o m he => hw ⟨o, m, he⟩)
  have hs : s.Ready := ready_of_exec hl hr h nofun
  refine ⟨fun hne => .inr (hwriters.resolve_right fun hst => ?_),
    fun hne => hwriters.resolve_right fun hst => hne hst.store, fun hoff => ?_⟩
  · exact hne.elim (fun ha => ha hst.address) fun hp => hp hst.priority
  · have hst := exec_storeStands hs hoff hr h
    exact ⟨hst.store, fun _ => ⟨hst.address, hst.priority⟩⟩

end Sys2Proof.Machine
end

section
/-! SUPPORT. The family of 70_reset_and_hazards.md: the answers a full queue has no room for, `RESET`
and power-up, and the priority of an unconfigured device. -/

namespace Sys2Proof.Machine

variable {s t : State} {opc : Byte} {m : CvMessage} {n : Nat} {v : Word} {st : Status}

/-! ## A full queue -/

/-- A response that can be framed needs room in the queue (43_cv_handler.md R278). -/
theorem respond_full (hp : s.params.WF) (hq : s.params.txqCap ≤ framesHeld s)
    (hm : validFrame (cvFrame opc m) = true) (n v : Word) :
    respond m n v s = .fault .txqOverflow :=
  enqueueFrame_full (enqueueOk_response hp hm n v) hq

/-- The end of a write always answers, so it faults whether or not it persists (43_cv_handler.md
R276). -/
theorem finishWrite_full (hp : s.params.WF) (hq : s.params.txqCap ≤ framesHeld s) :
    finishWrite opc n v st s = .fault .txqOverflow := by
  unfold finishWrite
  split
  · have hparams := persist_params n v s
    exact longAck_full (by rwa [hparams]) opc (hp.code_msb st)
      (by rwa [hparams, persist_framesHeld])
  · exact longAck_full hp opc (hp.code_msb st) hq

/-- The three branches of a write by slot: the marker, Config, the device's own (43_cv_handler.md
R272 to R274). -/
theorem marker_or_config_or_device (w : Word) : w = 1 ∨ (w = 0 ∨ w = 2) ∨ 3 ≤ w.toNat := by
  bv_omega

/-- In programming mode every branch of a write ends in a long-ack (43_cv_handler.md R270). -/
theorem cvWriteWith_full (hp : s.params.WF) (hq : s.params.txqCap ≤ framesHeld s)
    (hon : s.progMode = true) : cvWriteWith st opc m s = .fault .txqOverflow := by
  by_cases hin : s.params.nCv ≤ m.lncvNumber.toNat
  · rw [cvWriteWith_outOfRange hon hin]
    exact longAck_full hp opc (hp.code_msb .outOfRange) hq
  obtain h1 | hc | h3 := marker_or_config_or_device m.lncvNumber
  · rw [cvWriteWith_marker hp hon h1]
    exact longAck_full hp opc (hp.code_msb .readOnly) hq
  · rw [cvWriteWith_config hp hon hc]
    exact finishWrite_full hp hq
  · rw [cvWriteWith_device hon h3 (Nat.not_le.1 hin)]
    exact finishWrite_full (s := authorize _ _ st s) hp hq

/-- A carried read is answered in range and out of range (43_cv_handler.md R277). -/
theorem cvRead_full (hp : s.params.WF) (hq : s.params.txqCap ≤ framesHeld s)
    (hm : validFrame (cvFrame opc m) = true) : cvRead opc m s = .fault .txqOverflow := by
  by_cases hin : s.params.nCv ≤ m.lncvNumber.toNat
  · rw [cvRead_outOfRange hin]
    exact longAck_full hp opc (hp.code_msb .outOfRange) hq
  · rw [cvRead_inRange (Nat.not_le.1 hin)]
    exact respond_full hp hq hm _ _

/-- Settles O50: each of the three requests ends by queueing an answer that can be framed. -/
theorem answersNeedQueueRoom : Obligations.AnswersNeedQueueRoom := by
  intro s opc m hs hp hq
  refine ⟨fun hon => ?_, fun hwf => ?_, fun hwf ha => ?_⟩
  · rw [exec_cvWrite hs]
    exact cvWriteWith_full hp hq hon
  · rw [exec_cvRead hs]
    exact cvRead_full hp hq (validFrame_of_wf_request rfl hwf)
  · rw [exec_cvProgOn hs, progOn_accepted ha]
    exact respond_full (s := { s with progMode := true }) hp hq
      (validFrame_of_wf_request rfl hwf) _ _

/-! ## RESET -/

/-- On an initialized store `RESET` completes (70_reset_and_hazards.md R361). -/
theorem exec_reset_initialized (hl : s.Live) (hstore : s.storeReady = true) :
    exec .reset s = .next (resetFields s) := by
  rw [exec_reset_live hl, if_pos hstore]

/-- Settles O1: the fields are those of `resetFields`, the registry being the CV unit's entries. -/
theorem resetWritesInitialValues : Obligations.ResetWritesInitialValues := by
  intro s hl
  rw [exec_reset_live hl]
  rfl

/-! ## The priority of an unconfigured device -/

/-- A write that ends with an accepted value other than the lookup's persisted it. -/
theorem finishWrite_persisted_eq_next (hne : v ≠ cvLookup s n)
    (h : finishWrite opc n v .ok s = .next t) :
    ∃ f, t = { persist n v s with txq := (persist n v s).txq ++ [f] } := by
  rw [finishWrite, if_pos ⟨rfl, hne⟩] at h
  exact longAck_eq_next h

/-- Settles O55: the write persists slot 2 and leaves the marker slot, so the lookup that `RESET` takes
the priority from still falls back to the default. -/
theorem unconfiguredPriorityIsNotKept : Obligations.UnconfiguredPriorityIsNotKept := by
  intro s t opc m hs hp hon hw hmark hn h0 hv hne h
  rw [exec_cvWrite hs] at h
  have hready : t.Ready := (cvWriteWith_effect h).ready hs
  rw [← cvLookup_two_unconfigured hmark] at hne
  rw [cvWriteWith_two hp hon hn, slotStatus_two_ok h0 hv] at h
  obtain ⟨f, ht⟩ := finishWrite_persisted_eq_next hne h
  have hread : ∀ k, storeRead t k = if k = 2 then m.lncvValue else storeRead s k := by
    rw [ht]; exact storeRead_persist (by decide) hw m.lncvValue
  have hparams : t.params = s.params := by rw [ht]; exact persist_params 2 m.lncvValue s
  have hprio : t.priority = m.lncvValue.setWidth 4 := by rw [ht]; rfl
  have hlookup : cvLookup t 2 = s.params.defaultPriority := by
    rw [← hparams]
    refine cvLookup_two_unconfigured ?_
    rw [hread, hparams]
    exact hmark
  refine ⟨hread 2, ?_, hlookup, fun hstore => ⟨resetFields t,
    exec_reset_initialized hready.1 hstore, congrArg (BitVec.setWidth 4) hlookup⟩⟩
  rw [hprio, BitVec.toNat_setWidth, Nat.mod_eq_of_lt hv]

/-! ## Power-up -/

theorem powerUp_of_wf {p : Params} {slots : Memory 16} (hp : p.WF)
    (hw : Memory.wf unlistedSlot slots) (ready : Bool) :
    State.powerUp p ready slots = some { State.reset with
      params := p, store := slots, storeReady := ready, reg := [], up := false } :=
  if_pos ⟨hp, hw⟩

/-- Settles O2: the test of power-up, then the fields of the state it answers. -/
theorem powerUpChecksParameters : Obligations.PowerUpChecksParameters := by
  intro p ready slots
  exact ⟨fun hp => if_neg fun h => hp h.1, fun hp hw =>
    ⟨_, powerUp_of_wf hp hw ready, rfl, rfl, rfl, rfl, rfl, rfl, rfl, rfl⟩⟩

/-- With the marker slot unwritten Config takes the defaults (70_reset_and_hazards.md R360). -/
theorem resetFields_factory :
    resetFields { State.reset with reg := [], up := false } = State.reset := by decide

/-- The state of power-up on the factory store under the reference profile comes up as `State.reset`
(log entries 2, 3, 5). -/
theorem exec_reset_factory :
    exec .reset { State.reset with reg := [], up := false } = .next State.reset :=
  (exec_reset_initialized (by decide) rfl).trans (congrArg _ resetFields_factory)

/-- Settles O59: the invariant of `State.reset`, its address as the lookup's default, and `RESET` run on
power-up. -/
theorem resetStateMeetsTheInvariants : Obligations.ResetStateMeetsTheInvariants := by
  have hup := powerUp_of_wf (p := .reference) State.reset_inv.params State.reset_inv.store true
  refine ⟨State.reset_inv, fun _ => by decide, by decide, ?_⟩
  exact (congrArg (Option.map (exec .reset)) hup).trans (congrArg some exec_reset_factory)

end Sys2Proof.Machine
end
